-- ==== Sys2Proof/Word.lean ====
section
/-! DEFINITION. The words of the block: widths fixed by 00_scope.md rule R5 and 30_encoding.md rules R60, R61. -/

namespace Sys2Proof

/-- A symbol or a byte: SYM_W = 8 bits (R5). -/
abbrev Byte := BitVec 8

/-- A command word: CMD_W = 48 bits (R60). -/
abbrev CmdWord := BitVec 48

/-- A weight or a frequency count: WGT_W = 32 bits (R5). Also the width of `arg32` and of ERRINFO. -/
abbrev Weight := BitVec 32

/-- A node index: IDX_W = 9 bits (R5). -/
abbrev Idx := BitVec 9

/-- The data of a response, and a CSR value zero-extended: 64 bits (R61, R17). -/
abbrev Data := BitVec 64

/-- A bit sequence, first bit (position 0) first (R6). -/
abbrev Bits := List Bool

/-- A table with one entry per symbol: NSYM = 256 entries (R5, R23, R25). -/
abbrev Table (α : Type) := Vector α 256

end Sys2Proof
end

