-- ==== Sys2Proof/Syntax.lean ====
section
/-! DEFINITION. The instructions: one constructor per row of spec/opcode_table.json. -/

namespace Sys2Proof

/-- The rows of the opcode table: the fourteen commands of 30_encoding.md rule R66 and the two tree tokens of
rule R62. Operands are the fields of R67 (unsigned, never extended or scaled) and R68. -/
inductive Instr where
  /-- No operation (R81). -/
  | nop
  /-- Clear: every piece of state to its reset value (R82). -/
  | clr
  /-- Load frequency: `FREQ[sym] <- count` (R84). -/
  | ldf (sym : Byte) (count : Weight)
  /-- Read control and status register `n` (R86). -/
  | rdcsr (n : Byte)
  /-- Put byte into the input byte queue (R88). -/
  | putb (byte : Byte)
  /-- Get byte from the output byte queue (R89). -/
  | getb
  /-- Build the Huffman tree of FREQ (R101). -/
  | build
  /-- Generate the codebook of the tree (R111). -/
  | gencb
  /-- Serialize the tree (R121). -/
  | sert
  /-- Deserialize a tree (R127). -/
  | dest
  /-- Encode a symbol (R136). -/
  | encs (sym : Byte)
  /-- Decode a symbol (R142). -/
  | decs
  /-- Pack the bit queue into bytes (R151). -/
  | pack
  /-- Unpack bytes into the bit queue (R153). -/
  | unpack
  /-- The tree token T.LEAF: a leaf whose byte value is `v` (R62, R125). -/
  | tLeaf (v : Byte)
  /-- The tree token T.ZERO: internal node complete, or terminator (R62, R126). -/
  | tZero
  deriving DecidableEq, Repr

end Sys2Proof
end

