-- ==== Sys2Proof/WellFormed.lean ====
section
/-! DEFINITION. What makes a command word's fields and an instruction well formed (30_encoding.md R60, R66, R71). -/

namespace Sys2Proof

/-- The three fields of a command word, format CMD48 (R60). -/
structure CmdFields where
  /-- Bits 47:40. -/
  opcode : Byte
  /-- Bits 39:32. -/
  arg8 : Byte
  /-- Bits 31:0. -/
  arg32 : Weight
  deriving DecidableEq, Repr

/-- The check of R60 on unused fields: a field that a command does not use must be 0. -/
def CmdFields.unusedZero (f : CmdFields) (usesArg8 usesArg32 : Bool) : Bool :=
  (usesArg8 || f.arg8 == 0) && (usesArg32 || f.arg32 == 0)

/-- The check of R66 on the opcode: 0x00 to 0x05 and 0x10 to 0x17 are defined, every other is reserved. -/
def CmdFields.opcodeDefined (f : CmdFields) : Bool :=
  f.opcode.toNat ≤ 0x05 || (0x10 ≤ f.opcode.toNat && f.opcode.toNat ≤ 0x17)

/-- An instruction is well formed when the spec calls none of its operands illegal. The one illegal operand is a
CSR number above 8 (R17, R71); such an RDCSR still decodes, and its own rule raises IllegalCommand (vector V6). -/
def Instr.wellFormed : Instr → Bool
  | .nop => true
  | .clr => true
  | .ldf _ _ => true
  | .rdcsr n => decide (n.toNat ≤ 8)
  | .putb _ => true
  | .getb => true
  | .build => true
  | .gencb => true
  | .sert => true
  | .dest => true
  | .encs _ => true
  | .decs => true
  | .pack => true
  | .unpack => true
  | .tLeaf _ => true
  | .tZero => true

end Sys2Proof
end

