-- ==== Sys2Proof/Decode.lean ====
section
/-! DEFINITION. The decoders of 30_encoding.md rule R70, for the command port and for the tree bits, and the
encoder written from the same table. -/

namespace Sys2Proof

/-! ## Bit order (20_memory.md R42, 30_encoding.md R68) -/

/-- `byte_bits(v)`: v[7] first, v[0] last (R6, R42). -/
def byteBits (v : Byte) : Bits :=
  [v.getLsbD 7, v.getLsbD 6, v.getLsbD 5, v.getLsbD 4, v.getLsbD 3, v.getLsbD 2, v.getLsbD 1, v.getLsbD 0]

/-- The byte assembled from eight bits in the order read: b1*128 + b2*64 + ... + b8 (R68). -/
def byteOfBits (b1 b2 b3 b4 b5 b6 b7 b8 : Bool) : Byte :=
  BitVec.ofNat 8 (b1.toNat * 128 + b2.toNat * 64 + b3.toNat * 32 + b4.toNat * 16 + b5.toNat * 8 + b6.toNat * 4
    + b7.toNat * 2 + b8.toNat)

/-! ## Command words (R60, R66, R67, R70, R71) -/

/-- The fields of a command word (R60). -/
def fieldsOf (w : CmdWord) : CmdFields where
  opcode := w.extractLsb' 40 8
  arg8 := w.extractLsb' 32 8
  arg32 := w.extractLsb' 0 32

/-- The command word with given fields (R60). -/
def wordOf (f : CmdFields) : CmdWord := f.opcode ++ f.arg8 ++ f.arg32

/-- A row of the opcode table, format CMD48: its opcode, which operand fields it uses, and the command it selects. -/
structure Row where
  opcode : Byte
  usesArg8 : Bool
  usesArg32 : Bool
  build : Byte → Weight → Instr

/-- The row's `mask` in opcode_table.json (R70): the opcode and every unused field. -/
def Row.mask (r : Row) : CmdWord :=
  wordOf ⟨0xFF#8, if r.usesArg8 then 0 else 0xFF#8, if r.usesArg32 then 0 else 0xFFFFFFFF#32⟩

/-- The row's `match` in opcode_table.json (R70). -/
def Row.pattern (r : Row) : CmdWord := wordOf ⟨r.opcode, 0, 0⟩

/-- The opcode map (R66): one row per command. -/
def opcodeTable : List Row :=
  [ ⟨0x00#8, false, false, fun _ _ => .nop⟩,
    ⟨0x01#8, false, false, fun _ _ => .clr⟩,
    ⟨0x02#8, true, true, fun sym count => .ldf sym count⟩,
    ⟨0x03#8, true, false, fun n _ => .rdcsr n⟩,
    ⟨0x04#8, true, false, fun byte _ => .putb byte⟩,
    ⟨0x05#8, false, false, fun _ _ => .getb⟩,
    ⟨0x10#8, false, false, fun _ _ => .build⟩,
    ⟨0x11#8, false, false, fun _ _ => .gencb⟩,
    ⟨0x12#8, false, false, fun _ _ => .sert⟩,
    ⟨0x13#8, false, false, fun _ _ => .dest⟩,
    ⟨0x14#8, true, false, fun sym _ => .encs sym⟩,
    ⟨0x15#8, false, false, fun _ _ => .decs⟩,
    ⟨0x16#8, false, false, fun _ _ => .pack⟩,
    ⟨0x17#8, false, false, fun _ _ => .unpack⟩ ]

/-- Why a command word is illegal (R71). -/
inductive DecodeError where
  /-- The opcode is 0x06..0x0F or 0x18..0xFF. -/
  | reservedOpcode (opcode : Byte)
  /-- The opcode is defined and a field the command does not use is not 0. -/
  | unusedFieldNonzero (opcode : Byte)
  deriving DecidableEq, Repr

/-- The row a word's opcode selects. -/
def rowOf (opcode : Byte) : Option Row := opcodeTable.find? (fun r => r.opcode == opcode)

/-- The decoder of the command port (R70): the row whose opcode and unused fields fit, or the reason there is none. -/
def decode (w : CmdWord) : Except DecodeError Instr :=
  match rowOf (fieldsOf w).opcode with
  | none => .error (.reservedOpcode (fieldsOf w).opcode)
  | some r =>
    if (fieldsOf w).unusedZero r.usesArg8 r.usesArg32 then .ok (r.build (fieldsOf w).arg8 (fieldsOf w).arg32)
    else .error (.unusedFieldNonzero (fieldsOf w).opcode)

/-! ## Tree tokens (R62, R68, R70) -/

/-- Why no token stands at the head of a bit sequence: the only ways are that it runs out (R73). -/
inductive TokenError where
  /-- No bit is left where a token should start. -/
  | noBit
  /-- Fewer than 8 bits follow a `1`. -/
  | cutShort
  deriving DecidableEq, Repr

/-- The decoder of the tree bits (R70): read one bit, `1` selects T.LEAF and eight more bits follow, `0` selects
T.ZERO. Answers the token and the bits after it. -/
def decodeToken : Bits → Except TokenError (Instr × Bits)
  | [] => .error .noBit
  | false :: rest => .ok (.tZero, rest)
  | true :: b1 :: b2 :: b3 :: b4 :: b5 :: b6 :: b7 :: b8 :: rest =>
    .ok (.tLeaf (byteOfBits b1 b2 b3 b4 b5 b6 b7 b8), rest)
  | true :: _ => .error .cutShort

/-! ## The encoder -/

/-- The encoded form of an instruction: a command word, or the bits of a tree token. -/
inductive Encoded where
  | command (w : CmdWord)
  | token (bits : Bits)
  deriving DecidableEq, Repr

/-- The encoding of every instruction (R60, R62, R66). -/
def encode : Instr → Encoded
  | .nop => .command (wordOf ⟨0x00#8, 0, 0⟩)
  | .clr => .command (wordOf ⟨0x01#8, 0, 0⟩)
  | .ldf sym count => .command (wordOf ⟨0x02#8, sym, count⟩)
  | .rdcsr n => .command (wordOf ⟨0x03#8, n, 0⟩)
  | .putb byte => .command (wordOf ⟨0x04#8, byte, 0⟩)
  | .getb => .command (wordOf ⟨0x05#8, 0, 0⟩)
  | .build => .command (wordOf ⟨0x10#8, 0, 0⟩)
  | .gencb => .command (wordOf ⟨0x11#8, 0, 0⟩)
  | .sert => .command (wordOf ⟨0x12#8, 0, 0⟩)
  | .dest => .command (wordOf ⟨0x13#8, 0, 0⟩)
  | .encs sym => .command (wordOf ⟨0x14#8, sym, 0⟩)
  | .decs => .command (wordOf ⟨0x15#8, 0, 0⟩)
  | .pack => .command (wordOf ⟨0x16#8, 0, 0⟩)
  | .unpack => .command (wordOf ⟨0x17#8, 0, 0⟩)
  | .tLeaf v => .token (true :: byteBits v)
  | .tZero => .token [false]

/-- The instruction an encoded form stands for, if it is exactly one. -/
def decodeEncoded : Encoded → Option Instr
  | .command w => (decode w).toOption
  | .token bits =>
    match decodeToken bits with
    | .ok (i, []) => some i
    | .ok (_, _ :: _) => none
    | .error _ => none

/-- The bits of a tree token whose pattern string, read as one number, is `w`: T.ZERO is 0, T.LEAF is 0x100 + v. -/
def tokenBitsOfNumber (w : Nat) : Option Bits :=
  if w = 0 then some [false]
  else if 0x100 ≤ w ∧ w ≤ 0x1FF then some (true :: byteBits (BitVec.ofNat 8 w))
  else none

/-- The host's numbering of a table row: a row of more than 16 bits is a command word (the port has no byte order,
R41, R60), a row of at most 16 bits is a tree token's pattern read as one number. -/
def decodeTableWord (nbits w : Nat) : Option Instr :=
  if nbits ≤ 16 then (tokenBitsOfNumber w).bind (fun bits => decodeEncoded (.token bits))
  else decodeEncoded (.command (BitVec.ofNat 48 w))

end Sys2Proof
end

