-- ==== Sys2Proof/Config.lean ====
section
/-! DEFINITION. The sizes and constants of 00_scope.md rule R5, the implementation parameters, and the one free value. -/

namespace Sys2Proof.Config

/-- MAXNODE: entries of the node store (R5). -/
def maxNode : Nat := 511

/-- NONE: the node index that means "no node" (R5). -/
def noNode : Idx := 0x1FF#9

/-- ID, CSR 0 (10_state.md R17). -/
def idValue : BitVec 32 := 0x48554601#32

/-- The largest weight: a merged weight above it raises WeightOverflow (41_tree_builder.md R104). -/
def maxWeight : Nat := 2 ^ 32 - 1

/-- The implementation parameters BQCAP, IBCAP and OBCAP (R5, D22, U13): a capacity, or `none` for unbounded. -/
structure Caps where
  /-- BQCAP, in bits. -/
  bq : Option Nat
  /-- IBCAP, in bytes. -/
  ib : Option Nat
  /-- OBCAP, in bytes. -/
  ob : Option Nat
  deriving DecidableEq, Repr

/-- The spec's default: every queue unbounded (R5). -/
def Caps.unbounded : Caps := ⟨none, none, none⟩

/-- FREE VALUE. What a 64-bit data field holds for a count of 2^64 or more (a queue length in BQLEN, IBLEN or OBLEN,
or the number of bits or bytes a command handled): the spec does not state it, and R8 excludes a silent wrap. No body:
nothing can be proved about it. DESIGN CHOICE, safe (log entry 6). -/
opaque countTooLong : Nat → Data

end Sys2Proof.Config
end

