-- ==== Sys2Proof/Machine/State.lean ====
section
/-! DEFINITION. The state of the block (10_state.md), of its command port, and the state after reset (R33, R200). -/

namespace Sys2Proof.Machine

/-- A node of the node store (R24): a leaf with its byte value and weight, or an internal node with the indices of its
two children and its weight. A field that "holds no value" in one kind is absent from that kind's constructor. -/
inductive Node where
  | leaf (sym : Byte) (weight : Weight)
  | internal (left right : Idx) (weight : Weight)
  deriving DecidableEq, Repr

/-- A response (30_encoding.md R61). -/
structure Response where
  /-- 0x00 OK, 0x01..0x0D a fault, 0xFF Halted. -/
  code : Byte
  /-- The command's result, 0 when its rule gives none. -/
  data : Data
  deriving DecidableEq, Repr

/-- What the host can do to the block, complete (70_reset_and_hazards.md R218). -/
inductive PortEvent where
  /-- Present a command word, after the response to the one before (R205). -/
  | word (w : CmdWord)
  /-- Apply the reset event (R200). -/
  | reset
  deriving DecidableEq, Repr

/-- The state: the block's (R11 to R30), the implementation parameters (R5), and the host's side of the port. -/
structure State where
  /-- ROOT, R11. -/
  root : Idx
  /-- NCNT, R12. -/
  ncnt : BitVec 10
  /-- SP, R13. -/
  sp : BitVec 10
  /-- ERR, CSR 2, R19. -/
  err : Byte
  /-- ERRINFO, CSR 3, R20. -/
  errinfo : BitVec 32
  /-- HALT, R21. -/
  halt : Bool
  /-- FREQ, R23. -/
  freq : Table Weight
  /-- NODE, R24: the entries that hold a node, entry 0 first. An entry past the end holds no value (R55). -/
  node : List Node
  /-- CODE, R25: `none` is an invalid entry; `some p` is a valid one with bits p, whose len is the length of p. -/
  code : Table (Option Bits)
  /-- STK, R26: the entries in use, the top STK[SP-1] first. -/
  stk : List Idx
  /-- ACT, R27: the indices i with ACT[i] = 1. -/
  act : List Idx
  /-- BQ, R28, the head first. -/
  bq : Bits
  /-- IB, R29, the head first. -/
  ib : List Byte
  /-- OB, R30, the head first. -/
  ob : List Byte
  /-- BQCAP, IBCAP, OBCAP (R5): fixed in a run, no step changes them (log entry 5). -/
  caps : Config.Caps
  /-- What the host will do at the port, next first (R217, R218; log entry 1). -/
  input : List PortEvent
  /-- The responses the host has received, oldest first (R217; log entry 2). -/
  trace : List Response
  deriving DecidableEq, Repr

/-- The model's own stops. No fault of the SPEC is one of these: a fault of 60_exceptions.md R180 is a next state
(`raise` in Machine/Ops.lean). -/
inductive Fault where
  /-- Raised by GENCB, SERT and DECS where the walk from ROOT meets a NODE entry that holds no value, or returns to a
  node it came from. Invariants T1 to T5 of R24 exclude it; R55 calls such a read an error of the model. Safe: the
  model stops (log entry 10). -/
  | brokenTree
  deriving DecidableEq, Repr

/-- Why an instruction has no meaning. -/
inductive Refusal where
  /-- Raised by `exec` alone, for an instruction the model gives no meaning; no arm of this model does. Safe. -/
  | notModelled (mnemonic : String)
  deriving DecidableEq, Repr

/-- The three outcomes of this machine. -/
abbrev Out := Host.Outcome State Fault Refusal

/-- The machine right after reset (R33, R200). `act`, `caps`, `input` and `trace` are as log entries 8, 5, 1 and 2
say: ACT holds no value after reset (DESIGN CHOICE: no mark), the capacities are the spec's default, and the host has
done nothing yet. -/
def State.reset : State where
  root := Config.noNode
  ncnt := 0
  sp := 0
  err := 0
  errinfo := 0
  halt := false
  freq := Vector.replicate 256 0
  node := []
  code := Vector.replicate 256 none
  stk := []
  act := []
  bq := []
  ib := []
  ob := []
  caps := Config.Caps.unbounded
  input := []
  trace := []

end Sys2Proof.Machine
end

