-- ==== Sys2Proof/Machine/Ops.lean ====
section
/-! DEFINITION. The shared operations: responding, raising a fault (the one way an exception is taken, R186), clearing
(the one way out of it, R188), the halted test of the sequencer (R80, R187), tables and queues (00_scope.md R7). -/

namespace Sys2Proof.Machine

/-! ## Faults of the block (60_exceptions.md R180) -/

/-- The faults the block itself raises, by their names in R180. -/
inductive Cause where
  | truncatedTree
  | truncatedPayload
  | emptyAlphabetMismatch
  | codebookMiss
  | illegalCommand
  | emptyAlphabet
  | weightOverflow
  | treeOverflow
  | invalidCodeBit
  | duplicateLeaf
  | queueOverflow
  | queueUnderflow
  deriving DecidableEq, Repr

/-- The code of a fault (R180): what ERR and the response hold. -/
def Cause.code : Cause → Byte
  | .truncatedTree => 2
  | .truncatedPayload => 3
  | .emptyAlphabetMismatch => 4
  | .codebookMiss => 5
  | .illegalCommand => 6
  | .emptyAlphabet => 7
  | .weightOverflow => 8
  | .treeOverflow => 9
  | .invalidCodeBit => 10
  | .duplicateLeaf => 11
  | .queueOverflow => 12
  | .queueUnderflow => 13

/-- The response code of a word that arrives while the block is halted (R61). -/
def haltedCode : Byte := 0xFF#8

/-! ## Responses -/

/-- A command's response reaches the host (R61, R217). -/
def answer (r : Response) (s : State) : State := { s with trace := s.trace ++ [r] }

/-- `respond(d)`: the command ends normally with response (0x00, d) (R7). -/
def respond (d : Data) (s : State) : State := answer ⟨0, d⟩ s

/-- `raise F(info)`: fault entry (R186). ERR, ERRINFO and HALT are written, the response is (code, 0), the command
ends; what it had written already stays (R80). -/
def raise (c : Cause) (info : BitVec 32) (s : State) : State :=
  answer ⟨c.code, 0⟩ { s with err := c.code, errinfo := info, halt := true }

/-- The answer to a word that is not executed because the block is halted (R187): nothing else changes. -/
def answerHalted (s : State) : State := answer ⟨haltedCode, 0⟩ s

/-- Every piece of the block's state to its reset value: the work of CLR (R82) and of the reset event (R200), and the
only recovery from a fault (R188). The parameters and the host's side of the port are no state of the block. -/
def clear (s : State) : State :=
  { State.reset with caps := s.caps, input := s.input, trace := s.trace }

/-- The sequencer's halted test (R80, R187): a command is executed only while HALT = 0. -/
def whileRunning (s : State) (body : State → Out) : Out :=
  if s.halt then .next (answerHalted s) else body s

/-! ## Counts in a data field -/

/-- `zext_64` of a count. A count that does not fit 64 bits is a free value (log entry 6). -/
def countData (n : Nat) : Data :=
  if n < 2 ^ 64 then BitVec.ofNat 64 n else Config.countTooLong n

/-! ## Tables indexed by a symbol (20_memory.md R53 (a), R54) -/

/-- `T[i]`: every symbol is in range. -/
def tableGet {α : Type} (t : Table α) (i : Byte) : α := t[i.toNat]'i.isLt

/-- `T[i] <- x`. -/
def tableSet {α : Type} (t : Table α) (i : Byte) (x : α) : Table α := t.set i.toNat x i.isLt

/-- The codebook with every entry invalid. -/
def noCodes : Table (Option Bits) := Vector.replicate 256 none

/-! ## Queues (00_scope.md R7, 60_exceptions.md R181) -/

/-- The elements of `xs` that still go into a queue of length `n` with capacity `cap`, pushed one at a time. -/
def fitting {α : Type} (cap : Option Nat) (n : Nat) (xs : List α) : List α :=
  match cap with
  | none => xs
  | some c => xs.take (c - n)

/-- Whether all of `k` pushes into a queue of length `n` with capacity `cap` succeed. -/
def roomFor (cap : Option Nat) (n k : Nat) : Bool :=
  match cap with
  | none => true
  | some c => decide (k ≤ c - n)

/-- Pushing the bits of `xs` into BQ one at a time, then `done`; the push that finds BQ full raises QueueOverflow(0),
with the bits pushed before it in BQ. -/
def pushBits (xs : Bits) (s : State) (done : State → State) : State :=
  let t := { s with bq := s.bq ++ fitting s.caps.bq s.bq.length xs }
  if roomFor s.caps.bq s.bq.length xs.length then done t else raise .queueOverflow 0 t

end Sys2Proof.Machine
end

