-- ==== Sys2Proof/Machine/Operands.lean ====
section
/-! DEFINITION. The operand forms of 20_memory.md rule R53: reading NODE through an index, and the tree the nodes
reachable from an index form; bytes as runs of bits (R42, R43). -/

namespace Sys2Proof.Machine

/-- `NODE[i]`, absent where the entry holds no value (R53 (b), R55). -/
def nodeAt (nodes : List Node) (i : Idx) : Option Node := nodes[i.toNat]?

/-- `NODE[i].weight`, in both kinds (R24). -/
def Node.weight : Node → Weight
  | .leaf _ w => w
  | .internal _ _ w => w

/-- A tree as the source draws it (R9, R75): a leaf with its byte value, or two subtrees. -/
inductive Tree where
  | leaf (v : Byte)
  | node (left right : Tree)
  deriving DecidableEq, Repr

/-- The number of leaves of a tree. -/
def Tree.leafCount : Tree → Nat
  | .leaf _ => 1
  | .node l r => l.leafCount + r.leafCount

/-- The byte values of a tree's leaves, left to right. -/
def Tree.symbols : Tree → List Byte
  | .leaf v => [v]
  | .node l r => l.symbols ++ r.symbols

/-- The tree under NODE[i], following `left` and `right` through at most `depth` nodes of one path. Absent where the
walk meets an entry that holds no value, or a path longer than `depth`. With `depth` the number of entries, the only
paths cut off are those that return to a node. -/
def readTree (nodes : List Node) : (depth : Nat) → (i : Idx) → Option Tree
  | 0, _ => none
  | depth + 1, i =>
    match nodeAt nodes i with
    | none => none
    | some (.leaf v _) => some (.leaf v)
    | some (.internal l r _) =>
      match readTree nodes depth l, readTree nodes depth r with
      | some tl, some tr => some (.node tl tr)
      | _, _ => none

/-- The current tree of a state whose ROOT is not NONE (R11). -/
def currentTree (s : State) : Option Tree := readTree s.node s.node.length s.root

/-- All bytes as one bit sequence, most significant bit of each first (R43). -/
def bitsOfBytes (bs : List Byte) : Bits := bs.flatMap byteBits

/-- A bit sequence as bytes: each group of eight, first bit to bit 7; the positions of the last group that hold no bit
are 0 (R65, R151). -/
def bytesOfBits : Bits → List Byte
  | [] => []
  | b1 :: b2 :: b3 :: b4 :: b5 :: b6 :: b7 :: b8 :: rest => byteOfBits b1 b2 b3 b4 b5 b6 b7 b8 :: bytesOfBits rest
  | b1 :: rest =>
    [byteOfBits b1 (rest.getD 0 false) (rest.getD 1 false) (rest.getD 2 false) (rest.getD 3 false)
      (rest.getD 4 false) (rest.getD 5 false) false]

end Sys2Proof.Machine
end

