-- ==== Sys2Proof/Machine/BitPacker.lean ====
section
/-! DEFINITION. The bit packer and unpacker (46_bit_packer.md): PACK, UNPACK. -/

namespace Sys2Proof.Machine

/-- PACK (R151): all of BQ into bytes of OB. The push that finds OB full raises QueueOverflow(2), after its group of
bits has been popped. -/
def execPack (s : State) : Out :=
  whileRunning s fun s =>
    let bytes := bytesOfBits s.bq
    let fit := fitting s.caps.ob s.ob.length bytes
    if roomFor s.caps.ob s.ob.length bytes.length then
      .next (respond (countData bytes.length) { s with bq := [], ob := s.ob ++ fit })
    else .next (raise .queueOverflow 2 { s with bq := s.bq.drop (8 * (fit.length + 1)), ob := s.ob ++ fit })

/-- UNPACK (R153): all of IB into bits at the tail of BQ. The push that finds BQ full raises QueueOverflow(0), after
its byte has been popped. -/
def execUnpack (s : State) : Out :=
  whileRunning s fun s =>
    let bits := bitsOfBytes s.ib
    let fit := fitting s.caps.bq s.bq.length bits
    if roomFor s.caps.bq s.bq.length bits.length then
      .next (respond (countData bits.length) { s with ib := [], bq := s.bq ++ fit })
    else .next (raise .queueOverflow 0 { s with ib := s.ib.drop (fit.length / 8 + 1), bq := s.bq ++ fit })

end Sys2Proof.Machine
end

