-- ==== Sys2Proof/Machine/Codebook.lean ====
section
/-! DEFINITION. The codebook generator (42_codebook_generator.md): GENCB. -/

namespace Sys2Proof.Machine

/-- How the walk of GENCB ends: with the codebook, or at the second leaf of one byte value, with the codebook so far. -/
inductive WalkEnd where
  | done (code : Table (Option Bits))
  | duplicate (sym : Byte) (code : Table (Option Bits))
  deriving DecidableEq, Repr

/-- `walk(n, p)` (R111): left first, `0` for left and `1` for right (R112); the path so far is `p`. -/
def walkCodes : Tree → Bits → Table (Option Bits) → WalkEnd
  | .leaf v, p, code =>
    if (tableGet code v).isSome then .duplicate v code else .done (tableSet code v (some p))
  | .node l r, p, code =>
    match walkCodes l (p ++ [false]) code with
    | .duplicate sym code' => .duplicate sym code'
    | .done code' => walkCodes r (p ++ [true]) code'

/-- The codebook of a tree (R111): a single leaf gets the one-bit code `0` (R113). -/
def treeCodes : Tree → WalkEnd
  | .leaf v => .done (tableSet noCodes v (some [false]))
  | .node l r => walkCodes (.node l r) [] noCodes

/-- GENCB (R111, R113, R114, R115). -/
def execGencb (s : State) : Out :=
  whileRunning s fun s =>
    if s.root = Config.noNode then .next (respond 0 { s with code := noCodes })
    else
      match currentTree s with
      | none => .fault .brokenTree
      | some t =>
        match treeCodes t with
        | .done code => .next (respond (countData t.leafCount) { s with code := code })
        | .duplicate sym code => .next (raise .duplicateLeaf (sym.setWidth 32) { s with code := code })

end Sys2Proof.Machine
end

