-- ==== Sys2Proof/Machine/Flags.lean ====
section
/-! DEFINITION. The four status flags, each computed from other state (10_state.md R16), STATUS (R18) and the CSRs (R17). -/

namespace Sys2Proof.Machine

/-- EMPTY: ROOT = NONE (R16). -/
def flagEmpty (s : State) : Bool := s.root == Config.noNode

/-- SINGLE: ROOT is not NONE and NODE[ROOT] is a leaf (R16). -/
def flagSingle (s : State) : Bool :=
  s.root != Config.noNode &&
    match nodeAt s.node s.root with
    | some (.leaf _ _) => true
    | some (.internal _ _ _) => false
    | none => false

/-- CBV: some symbol has a valid code (R16). -/
def flagCbv (s : State) : Bool := s.code.toList.any Option.isSome

/-- STATUS: bit 0 HALT, bit 1 EMPTY, bit 2 SINGLE, bit 3 CBV; while HALT = 1 bits 1 to 3 are returned as 0 (R18). -/
def statusReg (s : State) : BitVec 4 :=
  if s.halt then 0b0001#4
  else BitVec.ofBool (flagCbv s) ++ BitVec.ofBool (flagSingle s) ++ BitVec.ofBool (flagEmpty s) ++ BitVec.ofBool s.halt

/-- CSR[n], zero-extended to 64 bits, for the nine registers of R17; every other n is reserved. -/
def csr (s : State) (n : Byte) : Option Data :=
  match n.toNat with
  | 0 => some (Config.idValue.setWidth 64)
  | 1 => some ((statusReg s).setWidth 64)
  | 2 => some (s.err.setWidth 64)
  | 3 => some (s.errinfo.setWidth 64)
  | 4 => some (s.root.setWidth 64)
  | 5 => some (s.ncnt.setWidth 64)
  | 6 => some (countData s.bq.length)
  | 7 => some (countData s.ib.length)
  | 8 => some (countData s.ob.length)
  | _ => none

end Sys2Proof.Machine
end

