-- ==== Sys2Proof/Machine/HostPort.lean ====
section
/-! DEFINITION. The sequencer's and host port's commands (40_host_port.md): NOP, CLR, LDF, RDCSR, PUTB, GETB. -/

namespace Sys2Proof.Machine

/-- NOP (R81). -/
def execNop (s : State) : Out :=
  whileRunning s fun s => .next (respond 0 s)

/-- CLR (R82): executed while halted too. -/
def execClr (s : State) : Out :=
  .next (respond 0 (clear s))

/-- LDF sym, count (R84): overwrites, does not add. -/
def execLdf (sym : Byte) (count : Weight) (s : State) : Out :=
  whileRunning s fun s => .next (respond 0 { s with freq := tableSet s.freq sym count })

/-- RDCSR n (R86): while halted only for n <= 3 (R80); a reserved n raises IllegalCommand with the opcode byte 0x03 as
its information (R71). -/
def execRdcsr (n : Byte) (s : State) : Out :=
  if s.halt && decide (3 < n.toNat) then .next (answerHalted s)
  else
    match csr s n with
    | none => .next (raise .illegalCommand 0x03#32 s)
    | some d => .next (respond d s)

/-- PUTB byte (R88). -/
def execPutb (byte : Byte) (s : State) : Out :=
  whileRunning s fun s =>
    if roomFor s.caps.ib s.ib.length 1 then .next (respond 0 { s with ib := s.ib ++ [byte] })
    else .next (raise .queueOverflow 1 s)

/-- GETB (R89). -/
def execGetb (s : State) : Out :=
  whileRunning s fun s =>
    match s.ob with
    | [] => .next (raise .queueUnderflow 0 s)
    | v :: rest => .next (respond (v.setWidth 64) { s with ob := rest })

end Sys2Proof.Machine
end

