-- ==== Sys2Proof/Machine/SymbolDecoder.lean ====
section
/-! DEFINITION. The symbol decoder (45_symbol_decoder.md): DECS. -/

namespace Sys2Proof.Machine

/-- How the walk of DECS ends: at a leaf with the bits after its code, out of bits, or at an entry that holds no value. -/
inductive Descent where
  | symbol (v : Byte) (rest : Bits)
  | truncated
  | broken
  deriving DecidableEq, Repr

/-- The walk of DECS from node `n` (R142): one bit a step, left on `0` and right on `1`, until a leaf. -/
def descend (nodes : List Node) : Bits → (n : Idx) → Descent
  | [], n =>
    match nodeAt nodes n with
    | none => .broken
    | some (.leaf v _) => .symbol v []
    | some (.internal _ _ _) => .truncated
  | b :: rest, n =>
    match nodeAt nodes n with
    | none => .broken
    | some (.leaf v _) => .symbol v (b :: rest)
    | some (.internal l r _) => descend nodes rest (if b then r else l)

/-- DECS with a single-leaf tree of value `v` (R143): exactly one bit, which must be `0`. -/
def decodeSingle (v : Byte) (s : State) : State :=
  match s.bq with
  | [] => raise .truncatedPayload 0 s
  | true :: rest => raise .invalidCodeBit 0 { s with bq := rest }
  | false :: rest => respond (v.setWidth 64) { s with bq := rest }

/-- DECS (R142). A fault in the middle of a code has consumed the bits before it (R144 (b)). -/
def execDecs (s : State) : Out :=
  whileRunning s fun s =>
    if s.root = Config.noNode then .next (raise .emptyAlphabetMismatch 0 s)
    else
      match nodeAt s.node s.root with
      | none => .fault .brokenTree
      | some (.leaf v _) => .next (decodeSingle v s)
      | some (.internal _ _ _) =>
        match descend s.node s.bq s.root with
        | .symbol v rest => .next (respond (v.setWidth 64) { s with bq := rest })
        | .truncated => .next (raise .truncatedPayload 0 { s with bq := [] })
        | .broken => .fault .brokenTree

end Sys2Proof.Machine
end

