-- ==== Sys2Proof/Machine/SymbolEncoder.lean ====
section
/-! DEFINITION. The symbol encoder (44_symbol_encoder.md): ENCS. -/

namespace Sys2Proof.Machine

/-- ENCS sym (R136): the code's first path bit first. -/
def execEncs (sym : Byte) (s : State) : Out :=
  whileRunning s fun s =>
    match tableGet s.code sym with
    | none => .next (raise .codebookMiss (sym.setWidth 32) s)
    | some p => .next (pushBits p s (respond (countData p.length)))

end Sys2Proof.Machine
end

