-- ==== Sys2Proof/Machine/TreeBuilder.lean ====
section
/-! DEFINITION. The tree builder (41_tree_builder.md): BUILD, the greedy min-merge. -/

namespace Sys2Proof.Machine

/-- A live node of the builder's min-priority structure: an index i with ACT[i] = 1, and NODE[i].weight. -/
structure Live where
  weight : Weight
  idx : Idx
  deriving DecidableEq, Repr

/-- The order of selection (R102): weights first, unsigned; equal weights by index. -/
def liveBefore (a b : Live) : Bool :=
  decide (a.weight.toNat < b.weight.toNat) ||
    (decide (a.weight.toNat = b.weight.toNat) && decide (a.idx.toNat < b.idx.toNat))

/-- The first of a nonempty live set in the order of selection. -/
def firstLive (x : Live) (xs : List Live) : Live :=
  xs.foldl (fun m y => if liveBefore y m then y else m) x

/-- `a <- select(n); ACT[a] <- 0` (R102): the first live node, and the live set without it. -/
def select : List Live → Option (Live × List Live)
  | [] => none
  | x :: xs => some (firstLive x xs, (x :: xs).erase (firstLive x xs))

/-- The present symbols with their counts, in ascending order of byte value (R23, R101 step 1). -/
def presentSymbols (freq : Table Weight) : List (Byte × Weight) :=
  freq.toList.zipIdx.filterMap fun p => if p.1 = 0 then none else some (BitVec.ofNat 8 p.2, p.1)

/-- NODE after step 1 of R101: one leaf per present symbol. -/
def leafNodes (present : List (Byte × Weight)) : List Node :=
  present.map fun p => .leaf p.1 p.2

/-- The live set after step 1 of R101: every leaf. -/
def leafLives (present : List (Byte × Weight)) : List Live :=
  present.zipIdx.map fun p => ⟨p.1.2, BitVec.ofNat 9 p.2⟩

/-- The builder between two rounds of its merge loop. -/
structure Builder where
  nodes : List Node
  live : List Live
  deriving DecidableEq, Repr

/-- How the merge loop ends: with one live node, or by a merged weight above 2^32 - 1. -/
inductive BuildEnd where
  | tree (b : Builder)
  | overflow (b : Builder)
  deriving DecidableEq, Repr

/-- The merge loop (R101 step 4, R103, R104): remove the two first live nodes, the first removed becomes the left
child; at most `rounds` rounds. -/
def mergeLoop : (rounds : Nat) → Builder → BuildEnd
  | 0, b => .tree b
  | rounds + 1, b =>
    match select b.live with
    | none => .tree b
    | some (l, others) =>
      match select others with
      | none => .tree b
      | some (r, rest) =>
        if Config.maxWeight < l.weight.toNat + r.weight.toNat then .overflow ⟨b.nodes, rest⟩
        else
          mergeLoop rounds
            ⟨b.nodes ++ [.internal l.idx r.idx (l.weight + r.weight)],
              rest ++ [⟨l.weight + r.weight, BitVec.ofNat 9 b.nodes.length⟩]⟩

/-- Steps 1 to 4 of R101 on a frequency table: one leaf per present symbol, then L rounds at most. -/
def buildTree (freq : Table Weight) : BuildEnd :=
  let present := presentSymbols freq
  mergeLoop present.length ⟨leafNodes present, leafLives present⟩

/-- BUILD (R101). -/
def execBuild (s : State) : Out :=
  whileRunning s fun s =>
    if (presentSymbols s.freq).isEmpty then .next (raise .emptyAlphabet 0 s)
    else
      match buildTree s.freq with
      | .overflow b =>
        .next (raise .weightOverflow 0 { s with code := noCodes, node := b.nodes, act := b.live.map Live.idx })
      | .tree b =>
        .next (respond (countData b.nodes.length)
          { s with
            code := noCodes
            node := b.nodes
            act := b.live.map Live.idx
            root := BitVec.ofNat 9 (b.nodes.length - 1)
            ncnt := BitVec.ofNat 10 b.nodes.length })

end Sys2Proof.Machine
end

