-- ==== Sys2Proof/Machine/TreeCodec.lean ====
section
/-! DEFINITION. The tree codec (43_tree_codec.md): SERT, DEST and the tokens T.LEAF and T.ZERO the deserializer executes. -/

namespace Sys2Proof.Machine

/-! ## The serializer -/

/-- `ser(n)` (R121): post-order, a leaf as its 9-bit token, an internal node as `0` after its two subtrees. -/
def postOrder : Tree → Bits
  | .leaf v => true :: byteBits v
  | .node l r => postOrder l ++ postOrder r ++ [false]

/-- The tree bits of a tree: its post-order and the terminator (R62, R121). -/
def treeBits (t : Tree) : Bits := postOrder t ++ [false]

/-- SERT (R121); the empty tree is the terminator alone (R124). -/
def execSert (s : State) : Out :=
  whileRunning s fun s =>
    if s.root = Config.noNode then .next (pushBits [false] s (respond (countData 1)))
    else
      match currentTree s with
      | none => .fault .brokenTree
      | some t => .next (pushBits (treeBits t) s (respond (countData (treeBits t).length)))

/-! ## The deserializer -/

/-- What the deserializer works on: the bits ahead of the cursor, the nodes allocated so far (so that the allocation
counter n is their number) and the stack, top first (R125, R126). -/
structure Deser where
  bq : Bits
  nodes : List Node
  stk : List Idx
  deriving DecidableEq, Repr

/-- The deserializer's part of a state. -/
def deserOf (s : State) : Deser := ⟨s.bq, s.node, s.stk⟩

/-- A state with the deserializer's part written back; SP is the number of stack entries in use (R26). -/
def withDeser (s : State) (d : Deser) : State :=
  { s with bq := d.bq, node := d.nodes, stk := d.stk, sp := BitVec.ofNat 10 d.stk.length }

/-- What executing one token leads to: another token, the end of the tree with its root, or a fault. -/
inductive TokenEnd where
  | more (d : Deser)
  | stop (d : Deser) (root : Idx)
  | raised (c : Cause) (d : Deser)
  deriving DecidableEq, Repr

/-- The index the next allocated node gets. -/
def Deser.nextIdx (d : Deser) : Idx := BitVec.ofNat 9 d.nodes.length

/-- T.LEAF after its leading `1` has been popped (R125): the eight bits are at the head of BQ. TruncatedTree is tested
before TreeOverflow, and both before a bit is popped. -/
def tokenLeaf (d : Deser) : TokenEnd :=
  match d.bq with
  | b1 :: b2 :: b3 :: b4 :: b5 :: b6 :: b7 :: b8 :: rest =>
    if Config.maxNode ≤ d.nodes.length then .raised .treeOverflow d
    else .more ⟨rest, d.nodes ++ [.leaf (byteOfBits b1 b2 b3 b4 b5 b6 b7 b8) 0], d.nextIdx :: d.stk⟩
  | _ => .raised .truncatedTree d

/-- T.ZERO after its `0` has been popped (R126): no entry on the stack ends with the empty tree, one entry is the root,
of two or more the top is the right child and the one below it the left. -/
def tokenZero (d : Deser) : TokenEnd :=
  match d.stk with
  | [] => .stop { d with nodes := [] } Config.noNode
  | [root] => .stop { d with stk := [] } root
  | r :: l :: rest =>
    if Config.maxNode ≤ d.nodes.length then .raised .treeOverflow d
    else .more ⟨d.bq, d.nodes ++ [.internal l r 0], d.nextIdx :: rest⟩

/-- How DEST ends: with a tree after `k` bits, or with a fault. -/
inductive DestEnd where
  | tree (d : Deser) (root : Idx) (k : Nat)
  | raised (c : Cause) (d : Deser)
  deriving DecidableEq, Repr

/-- The token loop (R127), over at most `tokens` tokens; `k` counts the bits consumed. Every token takes a bit, so
with more `tokens` than bits the loop ends by its own rules. -/
def destLoop : (tokens : Nat) → (k : Nat) → Deser → DestEnd
  | 0, _, d => .raised .truncatedTree d
  | tokens + 1, k, d =>
    match d.bq with
    | [] => .raised .truncatedTree d
    | true :: rest =>
      match tokenLeaf { d with bq := rest } with
      | .more d' => destLoop tokens (k + 9) d'
      | .stop d' root => .tree d' root (k + 9)
      | .raised c d' => .raised c d'
    | false :: rest =>
      match tokenZero { d with bq := rest } with
      | .more d' => destLoop tokens (k + 1) d'
      | .stop d' root => .tree d' root (k + 1)
      | .raised c d' => .raised c d'

/-- A state at the end of a tree: ROOT and NCNT are written (R126, the two cases that stop). -/
def endTree (s : State) (d : Deser) (root : Idx) : State :=
  { withDeser s d with root := root, ncnt := BitVec.ofNat 10 d.nodes.length }

/-- DEST (R127). The old codebook and the old tree are discarded first. -/
def execDest (s : State) : Out :=
  whileRunning s fun s =>
    let s0 := { s with code := noCodes, root := Config.noNode, ncnt := 0 }
    match destLoop (s.bq.length + 1) 0 ⟨s.bq, [], []⟩ with
    | .tree d root k => .next (respond (countData k) (endTree s0 d root))
    | .raised c d => .next (raise c 0 (withDeser s0 d))

/-! ## The tokens as instructions of their own (log entry 12) -/

/-- The state after one token: a token has no response of its own; a fault's response is DEST's. -/
def tokenState (s : State) : TokenEnd → State
  | .more d => withDeser s d
  | .stop d root => endTree s d root
  | .raised c d => raise c 0 (withDeser s d)

/-- T.LEAF v (R125): the deserializer executes the token whose bits stand in front of BQ, its leading `1` popped. -/
def execTLeaf (v : Byte) (s : State) : Out :=
  whileRunning s fun s => .next (tokenState s (tokenLeaf { deserOf s with bq := byteBits v ++ s.bq }))

/-- T.ZERO (R126): the deserializer executes the token, its `0` popped. -/
def execTZero (s : State) : Out :=
  whileRunning s fun s => .next (tokenState s (tokenZero (deserOf s)))

end Sys2Proof.Machine
end

