-- ==== Sys2Proof/Machine/Dispatch.lean ====
section
/-! DEFINITION. One arm per instruction: the meaning of each row of the opcode table. -/

namespace Sys2Proof.Machine

def exec (i : Instr) (s : State) : Host.Outcome State Fault Refusal :=
  match i with
  | .nop => Sys2Proof.Machine.execNop s
  | .clr => Sys2Proof.Machine.execClr s
  | .ldf sym count => Sys2Proof.Machine.execLdf sym count s
  | .rdcsr n => Sys2Proof.Machine.execRdcsr n s
  | .putb byte => Sys2Proof.Machine.execPutb byte s
  | .getb => Sys2Proof.Machine.execGetb s
  | .build => Sys2Proof.Machine.execBuild s
  | .gencb => Sys2Proof.Machine.execGencb s
  | .sert => Sys2Proof.Machine.execSert s
  | .dest => Sys2Proof.Machine.execDest s
  | .encs sym => Sys2Proof.Machine.execEncs sym s
  | .decs => Sys2Proof.Machine.execDecs s
  | .pack => Sys2Proof.Machine.execPack s
  | .unpack => Sys2Proof.Machine.execUnpack s
  | .tLeaf v => Sys2Proof.Machine.execTLeaf v s
  | .tZero => Sys2Proof.Machine.execTZero s

end Sys2Proof.Machine
end

