-- ==== Sys2Proof/Machine/Sequencer.lean ====
section
/-! DEFINITION. The sequencer (40_host_port.md R80): one command word at a time, and the host's events at the port. -/

namespace Sys2Proof.Machine

/-- A command word is presented (R80): the row it matches is executed; a word that matches none raises IllegalCommand
with the opcode byte (R71), or gets the Halted answer while halted. -/
def present (w : CmdWord) (s : State) : Out :=
  match decode w with
  | .ok i => exec i s
  | .error _ => whileRunning s fun s => .next (raise .illegalCommand ((fieldsOf w).opcode.setWidth 32) s)

/-- The next thing the host does (R217, R218). With nothing to do the block keeps its state and does nothing. -/
def advance (s : State) : Out :=
  match s.input with
  | [] => .next s
  | .reset :: rest => .next (clear { s with input := rest })
  | .word w :: rest => present w { s with input := rest }

/-- `s` with one instruction of the table next at the port. A command word is presented by the host. A token is
executed inside DEST, so DEST is presented and the token's bits are put at the head of BQ. -/
def placeNext (s : State) (nbits w : Nat) : State :=
  if nbits ≤ 16 then
    match tokenBitsOfNumber w with
    | some bits => { s with input := .word (wordOf ⟨0x13#8, 0, 0⟩) :: s.input, bq := bits ++ s.bq }
    | none => s
  else { s with input := .word (BitVec.ofNat 48 w) :: s.input }

end Sys2Proof.Machine
end

