-- ==== Sys2Proof/Machine/Step.lean ====
section
/-! DEFINITION. One step: the host's next event at the port, answered by the block (70_reset_and_hazards.md R217). -/

namespace Sys2Proof.Machine

/-- One step: one event of `input`. A command is one step (R215). -/
def step (s : State) : Host.Outcome State Fault Refusal := advance s

/-- `s` with the instruction whose table bits are `w` next at the port (log entry 3). -/
def State.withFetchWord (s : State) (nbits w : Nat) : State := placeNext s nbits w

end Sys2Proof.Machine
end

