-- ==== Sys2Proof/Machine/HostSeq.lean ====
section
/-! DEFINITION. The host sequences (47_host_sequences.md): FrequencyCounter, SizeHeader, and the pseudo-instructions
HENCODE and HDECODE (30_encoding.md R76). They bind the host, not the block (R160). -/

namespace Sys2Proof.Machine

/-- How a host sequence fails (60_exceptions.md R191, 47_host_sequences.md R163 to R166). -/
inductive HostFailure where
  /-- The artifact has fewer than 4 bytes (R163). No command is issued. -/
  | malformedHeader
  /-- The input has 2^32 bytes or more (R164). No command is issued. -/
  | inputTooLong
  /-- A command was answered with this code, not 0x00 (R217). -/
  | blockFault (code : Byte)
  /-- The model stopped (log entry 10): no run of the block does this. -/
  | noResponse
  deriving DecidableEq, Repr

/-! ## FrequencyCounter and SizeHeader -/

/-- `count(d)[s]`: the number of positions of `d` that hold `s` (R161). -/
def frequency (d : List Byte) (s : Byte) : Nat := d.count s

/-- All byte values, ascending. -/
def allBytes : List Byte := (List.range 256).map (BitVec.ofNat 8)

/-- The LDF commands of an input: one per byte value present, with its exact count (R161), in ascending order (any
order may be taken; log entry 16). -/
def loadCommands (d : List Byte) : List Instr :=
  allBytes.filterMap fun s => if frequency d s = 0 then none else some (.ldf s (BitVec.ofNat 32 (frequency d s)))

/-- The 4 header bytes of an input of `n` bytes, least significant first (R41, R64, R162). -/
def sizeHeader (n : Nat) : List Byte :=
  [BitVec.ofNat 8 n, BitVec.ofNat 8 (n / 2 ^ 8), BitVec.ofNat 8 (n / 2 ^ 16), BitVec.ofNat 8 (n / 2 ^ 24)]

/-- The original length a header holds: h0 + 256*h1 + 65536*h2 + 16777216*h3 (R69). -/
def headerLength (h0 h1 h2 h3 : Byte) : Nat :=
  h0.toNat + 256 * h1.toNat + 65536 * h2.toNat + 16777216 * h3.toNat

/-! ## Issuing commands -/

/-- The host presents one command and waits for its response (R205): the response's data and the state after it, or
the failure the response reports. A tree token is no command and cannot be presented. -/
def issue (i : Instr) (s : State) : Except HostFailure (Data × State) :=
  match encode i with
  | .token _ => .error .noResponse
  | .command w =>
    match present w s with
    | .next t =>
      match t.trace.getLast? with
      | some r => if r.code = 0 then .ok (r.data, t) else .error (.blockFault r.code)
      | none => .error .noResponse
    | .fault _ => .error .noResponse
    | .refused _ => .error .noResponse

/-- The host presents commands in order; the first failure ends the sequence. Answers the data of the responses. -/
def issueAll : List Instr → State → Except HostFailure (List Data × State)
  | [], s => .ok ([], s)
  | i :: is, s =>
    match issue i s with
    | .error e => .error e
    | .ok (d, t) =>
      match issueAll is t with
      | .error e => .error e
      | .ok (ds, u) => .ok (d :: ds, u)

/-- The low byte of a response's data: GETB and DECS answer a zero-extended byte. -/
def dataByte (d : Data) : Byte := d.setWidth 8

/-! ## HENCODE and HDECODE -/

/-- The commands of HENCODE up to the last ENCS (R165). An empty input has no LDF, BUILD, GENCB or ENCS. -/
def encodeCommands (d : List Byte) : List Instr :=
  [.clr] ++ (if d.isEmpty then [] else loadCommands d ++ [.build, .gencb]) ++ [.sert] ++ d.map .encs

/-- HENCODE(d) on a block in state `s` (R165): the artifact, and the block's state after it. -/
def hencode (d : List Byte) (s : State) : Except HostFailure (List Byte × State) :=
  if 2 ^ 32 ≤ d.length then .error .inputTooLong
  else
    match issueAll (encodeCommands d) s with
    | .error e => .error e
    | .ok (_, t) =>
      match issue .pack t with
      | .error e => .error e
      | .ok (m, u) =>
        match issueAll (List.replicate m.toNat .getb) u with
        | .error e => .error e
        | .ok (p, v) => .ok (sizeHeader d.length ++ p.map dataByte, v)

/-- The commands of HDECODE for packed bytes `p` and declared size `n` (R166). -/
def decodeCommands (p : List Byte) (n : Nat) : List Instr :=
  [.clr] ++ p.map .putb ++ [.unpack, .dest] ++ List.replicate n .decs

/-- HDECODE(a) on a block in state `s` (R166): the data, and the block's state after it. -/
def hdecode (a : List Byte) (s : State) : Except HostFailure (List Byte × State) :=
  match a with
  | h0 :: h1 :: h2 :: h3 :: p =>
    match issueAll (decodeCommands p (headerLength h0 h1 h2 h3)) s with
    | .error e => .error e
    | .ok (ds, t) => .ok ((ds.drop (p.length + 3)).map dataByte, t)
  | _ => .error .malformedHeader

end Sys2Proof.Machine
end

