-- ==== Sys2Proof/Safety.lean ====
section
/-! DEFINITION. What a safe state is (the invariants of 10_state.md) and the terms the statements use: the tree at an
index, the code of a symbol, the order of selection, the tokens of a tree. All are written as relations or from the
spec's words, apart from the functions the meanings compute with. -/

namespace Sys2Proof.Machine

/-! ## The node store (R24) -/

/-- The child indices of all internal nodes, in order of node and then left, right. -/
def childIndices (nodes : List Node) : List Nat :=
  nodes.flatMap fun n =>
    match n with
    | .leaf _ _ => []
    | .internal l r _ => [l.toNat, r.toNat]

/-- T2 for one node: both children of node `i` have a smaller index, and they differ. -/
def childrenBelow (i : Nat) : Node → Bool
  | .leaf _ _ => true
  | .internal l r _ => decide (l.toNat < i) && decide (r.toNat < i) && decide (l.toNat ≠ r.toNat)

/-- The invariants of the node store that hold whenever HALT = 0 and no command is executing (R24). T4 holds by the
type of a node. -/
structure TreeInv (s : State) : Prop where
  /-- Only entries 0..NCNT-1 hold a node. -/
  count : s.ncnt.toNat = s.node.length
  /-- T1: NCNT = 0 exactly when ROOT = NONE; otherwise ROOT = NCNT - 1. -/
  t1 : s.root.toNat = if s.node.length = 0 then Config.noNode.toNat else s.node.length - 1
  /-- T2: a child is allocated before its parent. -/
  t2 : ∀ i (h : i < s.node.length), childrenBelow i s.node[i] = true
  /-- T3: every node other than the root is the child of exactly one internal node, the root of none. -/
  t3 : ∀ i < s.node.length, (childIndices s.node).count i = if i + 1 = s.node.length then 0 else 1
  /-- T5: NCNT is 0 or odd. -/
  t5 : s.node.length = 0 ∨ s.node.length % 2 = 1
  /-- The node store has MAXNODE entries. -/
  bound : s.node.length ≤ Config.maxNode

/-- The tree under NODE[i], as a relation: the entries it needs hold nodes, and nothing else matters. -/
inductive TreeAt (nodes : List Node) : Idx → Tree → Prop where
  | leaf {i : Idx} {v : Byte} {w : Weight} : nodeAt nodes i = some (.leaf v w) → TreeAt nodes i (.leaf v)
  | node {i l r : Idx} {w : Weight} {tl tr : Tree} : nodeAt nodes i = some (.internal l r w) →
      TreeAt nodes l tl → TreeAt nodes r tr → TreeAt nodes i (.node tl tr)

/-! ## Codes (R63, R112, R113, R116) -/

/-- `p` leads from the root of the tree to a leaf of value `v`: `0` is left, `1` is right. -/
inductive CodePath : Tree → Bits → Byte → Prop where
  | here {v : Byte} : CodePath (.leaf v) [] v
  | left {l r : Tree} {p : Bits} {v : Byte} : CodePath l p v → CodePath (.node l r) (false :: p) v
  | right {l r : Tree} {p : Bits} {v : Byte} : CodePath r p v → CodePath (.node l r) (true :: p) v

/-- `p` is the code of `v` in the tree: its path, but the bit `0` in the single-leaf tree (R113). -/
def IsCode (t : Tree) (p : Bits) (v : Byte) : Prop :=
  match t with
  | .leaf u => p = [false] ∧ v = u
  | .node l r => CodePath (.node l r) p v

/-- The codebook holds exactly the codes of the tree. -/
def CodebookOf (t : Tree) (code : Table (Option Bits)) : Prop :=
  ∀ v p, tableGet code v = some p ↔ IsCode t p v

/-- CODE is empty, or it is what GENCB makes of the tree in NODE (R25). -/
def CodeInv (s : State) : Prop :=
  s.code = noCodes ∨ ∃ t, s.root ≠ Config.noNode ∧ TreeAt s.node s.root t ∧ CodebookOf t s.code

/-- The payload bits of an input (R138): the codes of its bytes, concatenated. -/
def payload (code : Table (Option Bits)) (d : List Byte) : Bits := d.flatMap fun v => (tableGet code v).getD []

/-! ## The whole invariant -/

/-- A queue of `n` elements is within its capacity (R28 to R30). -/
def withinCap (cap : Option Nat) (n : Nat) : Prop := ∀ c, cap = some c → n ≤ c

/-- What the spec states of every state between two commands. -/
structure Inv (s : State) : Prop where
  /-- HALT = 1 exactly when ERR is not 0 (R21). -/
  halt_err : s.halt = true ↔ s.err ≠ 0
  /-- ERR is 0 or one of the codes 2 to 13 (R19). -/
  err_legal : s.err = 0 ∨ (2 ≤ s.err.toNat ∧ s.err.toNat ≤ 13)
  /-- ERRINFO is 0 when ERR = 0 (R20). -/
  info_zero : s.err = 0 → s.errinfo = 0
  bq_cap : withinCap s.caps.bq s.bq.length
  ib_cap : withinCap s.caps.ib s.ib.length
  ob_cap : withinCap s.caps.ob s.ob.length
  /-- Between commands SP is 0 and the stack empty (R13, R26). -/
  stack : s.halt = false → s.sp = 0 ∧ s.stk = []
  tree : s.halt = false → TreeInv s
  code : s.halt = false → CodeInv s

/-! ## The builder's order (R102) -/

/-- Node `j` comes before node `k` in the order of selection: weight first, then index. -/
def SelectedBefore (nodes : List Node) (j k : Nat) : Prop :=
  ∃ a b, nodes[j]? = some a ∧ nodes[k]? = some b ∧
    (a.weight.toNat < b.weight.toNat ∨ (a.weight.toNat = b.weight.toNat ∧ j < k))

/-- Node `j` is live when node `i` is about to be made: allocated, and the child of no internal node before `i`. -/
def LiveAt (nodes : List Node) (i j : Nat) : Prop :=
  j < i ∧ ∀ k l r w, k < i → nodes[k]? = some (.internal l r w) → l.toNat ≠ j ∧ r.toNat ≠ j

/-- The sum of all FREQ entries. -/
def freqTotal (freq : Table Weight) : Nat := (freq.toList.map BitVec.toNat).sum

/-- The leaves BUILD makes: one per nonzero entry, in ascending order of byte value (R101 step 1, R106). -/
def freqLeaves (freq : Table Weight) : List Node :=
  allBytes.filterMap fun v => if tableGet freq v = 0 then none else some (.leaf v (tableGet freq v))

/-! ## The tokens of a tree (R62) -/

/-- post-order(leaf v) = T.LEAF(v); post-order(internal l r) = post-order(l), post-order(r), T.ZERO. -/
def Tree.tokens : Tree → List Instr
  | .leaf v => [.tLeaf v]
  | .node l r => l.tokens ++ r.tokens ++ [.tZero]

/-- The bits of one token, from its row of the opcode table; a command has none. -/
def tokenBits (i : Instr) : Bits :=
  match encode i with
  | .token bits => bits
  | .command _ => []

/-- The tree bits: the post-order's tokens and the terminator. -/
def serialized (t : Tree) : Bits := (t.tokens ++ [Instr.tZero]).flatMap tokenBits

/-- The bits of the first `n` tokens of a tree's post-order, the terminator not among them. -/
def firstTokens (n : Nat) (t : Tree) : Bits := (t.tokens.take n).flatMap tokenBits

/-! ## Which faults an instruction can raise (60_exceptions.md R180) -/

/-- The "raised by" column of R180, with R181's pushes. IllegalCommand for an illegal word is the sequencer's. -/
def raisedBy : Instr → List Cause
  | .nop => []
  | .clr => []
  | .ldf _ _ => []
  | .rdcsr _ => [.illegalCommand]
  | .putb _ => [.queueOverflow]
  | .getb => [.queueUnderflow]
  | .build => [.emptyAlphabet, .weightOverflow]
  | .gencb => [.duplicateLeaf]
  | .sert => [.queueOverflow]
  | .dest => [.truncatedTree, .treeOverflow]
  | .encs _ => [.codebookMiss, .queueOverflow]
  | .decs => [.truncatedPayload, .emptyAlphabetMismatch, .invalidCodeBit]
  | .pack => [.queueOverflow]
  | .unpack => [.queueOverflow]
  | .tLeaf _ => [.treeOverflow]
  | .tZero => [.treeOverflow]

end Sys2Proof.Machine
end

