-- ==== Sys2Proof/Certificates/Slice0/Obligations.lean ====
section
/-! DEFINITION. The statements for the provers, from the numbered rules of spec/. None is proved here. -/

open Sys2Proof Sys2Proof.Machine

/-! ## Encodings -/

/-- The command words of vectors V1 to V9c and the token examples of R68 and R125 decode to what they stand for. -/
def Obligations.SpecWordsDecode : Prop :=
  decode 0x000000000000#48 = .ok .nop ∧
  decode 0x010000000000#48 = .ok .clr ∧
  decode 0x024100000004#48 = .ok (.ldf 0x41#8 4#32) ∧
  decode 0x02FFFFFFFFFF#48 = .ok (.ldf 0xFF#8 4294967295#32) ∧
  decode 0x030800000000#48 = .ok (.rdcsr 8#8) ∧
  decode 0x030900000000#48 = .ok (.rdcsr 9#8) ∧
  decode 0x04A000000000#48 = .ok (.putb 0xA0#8) ∧
  decode 0x050000000000#48 = .ok .getb ∧
  decode 0x100000000000#48 = .ok .build ∧
  decode 0x110000000000#48 = .ok .gencb ∧
  decode 0x120000000000#48 = .ok .sert ∧
  decode 0x130000000000#48 = .ok .dest ∧
  decode 0x144D00000000#48 = .ok (.encs 0x4D#8) ∧
  decode 0x150000000000#48 = .ok .decs ∧
  decode 0x160000000000#48 = .ok .pack ∧
  decode 0x170000000000#48 = .ok .unpack ∧
  decode 0x100000000001#48 = .error (.unusedFieldNonzero 0x10#8) ∧
  decode 0x180000000000#48 = .error (.reservedOpcode 0x18#8) ∧
  decode 0x030000000001#48 = .error (.unusedFieldNonzero 0x03#8) ∧
  decode 0x150100000000#48 = .error (.unusedFieldNonzero 0x15#8) ∧
  decodeToken [true, false, true, false, false, false, false, false, true] = .ok (.tLeaf 0x41#8, []) ∧
  decodeToken [false] = .ok (.tZero, [])

/-- Decoding an encoded instruction gives it back, every operand at every value; a token is read from the head of any
bits that follow it. -/
def Obligations.DecodingAnEncodedInstrGivesItBack : Prop :=
  ∀ i : Instr, decodeEncoded (encode i) = some i ∧
    ∀ bits rest, encode i = .token bits → decodeToken (bits ++ rest) = .ok (i, rest)

/-- Each word and each token has one meaning: encoding what was decoded gives the word back, every bit of it, or the
bits that were read. -/
def Obligations.EncodingADecodedWordGivesItBack : Prop :=
  (∀ w i, decode w = .ok i → encode i = .command w) ∧
  ∀ bits i rest, decodeToken bits = .ok (i, rest) → ∃ read, encode i = .token read ∧ bits = read ++ rest

/-- R70: a word w selects the row when w & mask = match; a command word matches at most one row; the decoder answers
the instruction of that row. -/
def Obligations.DecoderSelectsTheMatchingRow : Prop :=
  (∀ w i, decode w = .ok i ↔ ∃ r ∈ opcodeTable, w &&& r.mask = r.pattern ∧
    i = r.build (fieldsOf w).arg8 (fieldsOf w).arg32) ∧
  ∀ w, (opcodeTable.filter fun r => w &&& r.mask == r.pattern).length ≤ 1

/-! ## The sequencer -/

/-- A step with a word that decodes at the port runs the decoded instruction on the state without that word. Nothing
else happens around it: the halted test of R80 is part of each meaning. -/
def Obligations.StepRunsTheDecodedInstr : Prop :=
  ∀ (s : State) (w : CmdWord) (rest : List PortEvent) (i : Instr),
    s.input = .word w :: rest → decode w = .ok i → step s = exec i { s with input := rest }

/-- R71, whole: a word is illegal when it matches no row of the opcode table, which is when its opcode is reserved or a
field its row does not use is not 0. When HALT = 0 it raises IllegalCommand with the opcode byte; nothing else changes.
RDCSR n with n > 8 raises the same. When HALT = 1 an illegal word gets the Halted response. -/
def Obligations.IllegalWordRaisesIllegalCommand : Prop :=
  (∀ w : CmdWord, (∃ e, decode w = .error e) ↔ ∀ r ∈ opcodeTable, w &&& r.mask ≠ r.pattern) ∧
  (∀ w : CmdWord, (∃ e, decode w = .error e) ↔
    ((fieldsOf w).opcodeDefined = false ∨
      ∃ r ∈ opcodeTable, r.opcode = (fieldsOf w).opcode ∧ (fieldsOf w).unusedZero r.usesArg8 r.usesArg32 = false)) ∧
  (∀ (s : State) (w : CmdWord) (rest : List PortEvent) (e : DecodeError),
    s.input = .word w :: rest → s.halt = false → decode w = .error e →
      step s = .next { s with
        input := rest, err := 6, errinfo := (w.extractLsb' 40 8).setWidth 32, halt := true,
        trace := s.trace ++ [⟨6, 0⟩] }) ∧
  (∀ (s : State) (n : Byte), s.halt = false → 8 < n.toNat →
      exec (.rdcsr n) s = .next { s with
        err := 6, errinfo := 3, halt := true, trace := s.trace ++ [⟨6, 0⟩] }) ∧
  (∀ (s : State) (w : CmdWord) (rest : List PortEvent) (e : DecodeError),
    s.input = .word w :: rest → s.halt = true → decode w = .error e →
      step s = .next { s with input := rest, trace := s.trace ++ [⟨0xFF, 0⟩] })

/-- R217: with no word presented the block holds its state and does nothing. -/
def Obligations.StepWithoutEventKeepsTheState : Prop :=
  ∀ s : State, s.input = [] → step s = .next s

/-- R33, R200, R201: the reset event leaves every piece of state at its reset value, CLR leaves the same and gets a
response; STATUS then reads 0b0010. ACT's value after reset is the model's choice (log entry 8). -/
def Obligations.ResetEventAndClrLeaveTheResetState : Prop :=
  (∀ (s : State) (rest : List PortEvent), s.input = .reset :: rest →
    step s = .next { State.reset with caps := s.caps, input := rest, trace := s.trace }) ∧
  (∀ s : State, exec .clr s = .next { State.reset with
    caps := s.caps, input := s.input, trace := s.trace ++ [⟨0, 0⟩] }) ∧
  State.reset.root = 0x1FF#9 ∧ State.reset.ncnt = 0 ∧ State.reset.sp = 0 ∧ State.reset.err = 0 ∧
  State.reset.errinfo = 0 ∧ State.reset.halt = false ∧
  (∀ v, tableGet State.reset.freq v = 0) ∧ (∀ v, tableGet State.reset.code v = none) ∧
  State.reset.bq = [] ∧ State.reset.ib = [] ∧ State.reset.ob = [] ∧ State.reset.node = [] ∧ State.reset.stk = [] ∧
  csr State.reset 1 = some 0b0010

/-- R187, R21: while HALT = 1 every word other than CLR and RDCSR of CSRs 0 to 3, legal or not, is not executed,
changes no state, and gets the response (0xFF, 0). -/
def Obligations.HaltedBlockExecutesOnlyClrAndRdcsr : Prop :=
  ∀ (s : State) (w : CmdWord) (rest : List PortEvent), s.input = .word w :: rest → s.halt = true →
    (w ≠ 0x010000000000#48 → (∀ n : Byte, n.toNat ≤ 3 → w ≠ 0x03#8 ++ n ++ 0#32) →
      step s = .next { s with input := rest, trace := s.trace ++ [⟨0xFF, 0⟩] }) ∧
    (w = 0x010000000000#48 →
      step s = .next { State.reset with caps := s.caps, input := rest, trace := s.trace ++ [⟨0, 0⟩] }) ∧
    (w = 0x030000000000#48 → step s = .next { s with input := rest, trace := s.trace ++ [⟨0, 0x48554601⟩] }) ∧
    (w = 0x030100000000#48 → step s = .next { s with input := rest, trace := s.trace ++ [⟨0, 1⟩] }) ∧
    (w = 0x030200000000#48 →
      step s = .next { s with input := rest, trace := s.trace ++ [⟨0, s.err.setWidth 64⟩] }) ∧
    (w = 0x030300000000#48 →
      step s = .next { s with input := rest, trace := s.trace ++ [⟨0, s.errinfo.setWidth 64⟩] })

/-- R61: every command word gets exactly one response, (0, d), or (code, 0) with a fault code 2..13 and the block now
halted, or (0xFF, 0) with nothing changed because the block was halted. No other code occurs. -/
def Obligations.EveryWordGetsExactlyOneResponse : Prop :=
  ∀ (s t : State) (w : CmdWord) (rest : List PortEvent), s.input = .word w :: rest → step s = .next t →
    ∃ r : Response, t.trace = s.trace ++ [r] ∧ t.input = rest ∧
      ((r.code = 0 ∧ (s.halt = false → t.halt = false)) ∨
        (2 ≤ r.code.toNat ∧ r.code.toNat ≤ 13 ∧ r.data = 0 ∧ s.halt = false ∧ t.halt = true ∧ t.err = r.code) ∨
        (r = ⟨0xFF, 0⟩ ∧ s.halt = true ∧ t = { s with input := rest, trace := s.trace ++ [⟨0xFF, 0⟩] }))

/-- R19, R20, R21: ERR, ERRINFO and HALT are written only by a raise while HALT = 0, by CLR and by reset; once HALT is
1 they keep their values until CLR or reset. -/
def Obligations.FaultRegistersAreSticky : Prop :=
  (∀ (i : Instr) (s t : State), exec i s = .next t → i ≠ .clr → s.halt = true →
    t.err = s.err ∧ t.errinfo = s.errinfo ∧ t.halt = true) ∧
  (∀ (i : Instr) (s t : State), exec i s = .next t → i ≠ .clr → s.halt = false → t.halt = false →
    t.err = s.err ∧ t.errinfo = s.errinfo)

/-- R180, R185, R186: an instruction raises no fault but those the fault table lists for it, and the response has the
fault's code. -/
def Obligations.OnlyTheListedFaultsAreRaised : Prop :=
  ∀ (i : Instr) (s t : State), exec i s = .next t → s.halt = false → t.halt = true →
    ∃ c ∈ raisedBy i, t.err = c.code ∧ t.trace = s.trace ++ [⟨c.code, 0⟩]

/-- R181: with unbounded queues QueueOverflow (code 12) does not exist. -/
def Obligations.UnboundedQueuesNeverOverflow : Prop :=
  ∀ (i : Instr) (s t : State), s.caps = Config.Caps.unbounded → exec i s = .next t → s.err ≠ 12 → t.err ≠ 12

/-! ## Invariants -/

/-- The reset state meets the invariant. -/
def Obligations.ResetStateMeetsTheInvariant : Prop := Inv State.reset

/-- From every state that meets the invariant of 10_state.md, a step answers a next state that meets it again,
whatever the host does: no rule reads an entry that holds no value (R54, R55), HALT = 1 exactly when ERR is not 0, T1
to T5 and the codebook's rule hold again, and every queue is within its capacity. -/
def Obligations.EveryStepKeepsTheInvariant : Prop :=
  ∀ s : State, Inv s → ∃ t, step s = .next t ∧ Inv t

/-- R24, R54: in a state that meets the invariant and has a tree, the nodes form one finite tree from ROOT, with
(NCNT + 1) / 2 leaves, at most 256. -/
def Obligations.NodeStoreHoldsOneFiniteTree : Prop :=
  ∀ s : State, TreeInv s → s.root ≠ Config.noNode →
    ∃ t, TreeAt s.node s.root t ∧ 2 * t.leafCount = s.node.length + 1 ∧ t.leafCount ≤ 256

/-- R25, R116: while HALT = 0 the valid codes are prefix-free and each has a length from 1 to 255. -/
def Obligations.ValidCodesArePrefixFree : Prop :=
  ∀ s : State, Inv s → s.halt = false → ∀ (u v : Byte) (p q : Bits),
    tableGet s.code u = some p → tableGet s.code v = some q →
      (u ≠ v → ¬ p <+: q) ∧ 1 ≤ p.length ∧ p.length ≤ 255

/-! ## Which instructions write what (20_memory.md R40) -/

/-- FREQ is written by LDF and CLR alone. -/
def Obligations.OnlyLdfAndClrWriteFreq : Prop :=
  ∀ (i : Instr) (s t : State), exec i s = .next t → i ≠ .clr → (∀ sym count, i ≠ .ldf sym count) → t.freq = s.freq

/-- ROOT, NCNT, NODE are written by BUILD, DEST (its tokens) and CLR alone, SP and STK by DEST (its tokens) and CLR
alone, ACT by BUILD and CLR alone. -/
def Obligations.OnlyBuildDestAndClrWriteTheTree : Prop :=
  ∀ (i : Instr) (s t : State), exec i s = .next t → i ≠ .clr →
    (i ≠ .build → i ≠ .dest → (∀ v, i ≠ .tLeaf v) → i ≠ .tZero →
      t.root = s.root ∧ t.ncnt = s.ncnt ∧ t.node = s.node) ∧
    (i ≠ .dest → (∀ v, i ≠ .tLeaf v) → i ≠ .tZero → t.sp = s.sp ∧ t.stk = s.stk) ∧
    (i ≠ .build → t.act = s.act)

/-- CODE is written by GENCB, BUILD, DEST and CLR alone; BUILD and DEST leave every entry invalid when they respond
OK. -/
def Obligations.OnlyGencbBuildDestAndClrWriteCode : Prop :=
  ∀ (i : Instr) (s t : State), exec i s = .next t →
    (i ≠ .clr → i ≠ .gencb → i ≠ .build → i ≠ .dest → t.code = s.code) ∧
    (i = .build ∨ i = .dest → s.halt = false → t.halt = false → ∀ v, tableGet t.code v = none)

/-- BQ is changed by SERT, ENCS, UNPACK, DEST, DECS, PACK, CLR and the tokens alone, IB by PUTB, UNPACK and CLR alone,
OB by PACK, GETB and CLR alone; no instruction changes the capacities, and none but the host's own step the port. -/
def Obligations.OnlyTheirCommandsChangeTheQueues : Prop :=
  ∀ (i : Instr) (s t : State), exec i s = .next t →
    t.caps = s.caps ∧ t.input = s.input ∧
    (i ≠ .clr →
      (i ≠ .sert → (∀ v, i ≠ .encs v) → i ≠ .unpack → i ≠ .dest → i ≠ .decs → i ≠ .pack → (∀ v, i ≠ .tLeaf v) →
        i ≠ .tZero → t.bq = s.bq) ∧
      ((∀ b, i ≠ .putb b) → i ≠ .unpack → t.ib = s.ib) ∧
      (i ≠ .pack → i ≠ .getb → t.ob = s.ob))

/-! ## Host port commands -/

/-- R81: NOP, whole: its word, its response, and the Halted answer. -/
def Obligations.NopOnlyResponds : Prop :=
  decode 0x000000000000#48 = .ok .nop ∧
  (∀ s : State, s.halt = false → exec .nop s = .next { s with trace := s.trace ++ [⟨0, 0⟩] }) ∧
  ∀ s : State, s.halt = true → exec .nop s = .next { s with trace := s.trace ++ [⟨0xFF, 0⟩] }

/-- R82: CLR, whole: from every state, halted or not, every piece of state to its reset value, response 0; in the
reset state it changes nothing but the response; flags HALT 0, EMPTY 1, SINGLE 0, CBV 0 (STATUS 2). -/
def Obligations.ClrRestoresTheResetValues : Prop :=
  decode 0x010000000000#48 = .ok .clr ∧
  ∀ s : State, ∃ t, exec .clr s = .next t ∧
    t.root = Config.noNode ∧ t.ncnt = 0 ∧ t.sp = 0 ∧ (∀ v, tableGet t.freq v = 0) ∧
    (∀ v, tableGet t.code v = none) ∧ t.bq = [] ∧ t.ib = [] ∧ t.ob = [] ∧ t.err = 0 ∧ t.errinfo = 0 ∧
    t.halt = false ∧ t.node = [] ∧ t.stk = [] ∧ t.trace = s.trace ++ [⟨0, 0⟩] ∧ t.caps = s.caps ∧
    t.input = s.input ∧ statusReg t = 0b0010 ∧
    (s = { State.reset with caps := s.caps, input := s.input, trace := s.trace } →
      t = { s with trace := s.trace ++ [⟨0, 0⟩] })

/-- R84, R23: its word; LDF writes one entry of FREQ, overwriting it, and changes nothing else. -/
def Obligations.LdfOverwritesOneCount : Prop :=
  (∀ (sym : Byte) (count : Weight), decode (0x02#8 ++ sym ++ count) = .ok (.ldf sym count)) ∧
  ∀ (s : State) (sym : Byte) (count : Weight), s.halt = false →
    ∃ t, exec (.ldf sym count) s = .next t ∧ t = { s with freq := t.freq, trace := s.trace ++ [⟨0, 0⟩] } ∧
      tableGet t.freq sym = count ∧ ∀ v, v ≠ sym → tableGet t.freq v = tableGet s.freq v

/-- R86 with the values of R17 and R18: its word; while HALT = 0 RDCSR n answers CSR n for n = 0 to 8 and changes
nothing else, and raises IllegalCommand for n > 8; while HALT = 1 it answers ID, STATUS (HALT alone), ERR and ERRINFO and
is not executed for n > 3. A queue length is answered exactly while it fits 64 bits (log entry 6). -/
def Obligations.RdcsrReadsTheNineRegisters : Prop :=
  (∀ n : Byte, decode (0x03#8 ++ n ++ 0#32) = .ok (.rdcsr n)) ∧
  (∀ (s : State) (n : Byte), s.halt = false → 8 < n.toNat →
    exec (.rdcsr n) s = .next { s with err := 6, errinfo := 3, halt := true, trace := s.trace ++ [⟨6, 0⟩] }) ∧
  (∀ (s : State) (n : Byte), s.halt = true → 3 < n.toNat →
    exec (.rdcsr n) s = .next { s with trace := s.trace ++ [⟨0xFF, 0⟩] }) ∧
  (∀ (s : State) (n : Byte), s.halt = true → n.toNat ≤ 3 →
    exec (.rdcsr n) s = .next { s with trace := s.trace ++ [⟨0,
      if n = 0 then 0x48554601 else if n = 1 then 1 else if n = 2 then s.err.setWidth 64
      else s.errinfo.setWidth 64⟩] }) ∧
  ∀ (s : State) (n : Byte), s.halt = false → n.toNat ≤ 8 →
    ∃ d, exec (.rdcsr n) s = .next { s with trace := s.trace ++ [⟨0, d⟩] } ∧
      (n = 0 → d = 0x48554601) ∧
      (n = 1 → d.getLsbD 0 = false ∧ (d.getLsbD 1 = true ↔ s.root = Config.noNode) ∧
        (d.getLsbD 2 = true ↔ s.root ≠ Config.noNode ∧ ∃ v w, nodeAt s.node s.root = some (.leaf v w)) ∧
        (d.getLsbD 3 = true ↔ ∃ v, (tableGet s.code v).isSome = true) ∧ ∀ k, 4 ≤ k → d.getLsbD k = false) ∧
      (n = 2 → d.toNat = s.err.toNat) ∧
      (n = 3 → d.toNat = s.errinfo.toNat) ∧
      (n = 4 → d.toNat = s.root.toNat) ∧
      (n = 5 → d.toNat = s.ncnt.toNat) ∧
      (n = 6 → s.bq.length < 2 ^ 64 → d.toNat = s.bq.length) ∧
      (n = 7 → s.ib.length < 2 ^ 64 → d.toNat = s.ib.length) ∧
      (n = 8 → s.ob.length < 2 ^ 64 → d.toNat = s.ob.length)

/-- R88, whole: its word; PUTB appends its byte to IB; with a finite IBCAP and a full queue it raises
QueueOverflow (1). -/
def Obligations.PutbAppendsItsByte : Prop :=
  (∀ byte : Byte, decode (0x04#8 ++ byte ++ 0#32) = .ok (.putb byte)) ∧
  ∀ (s : State) (byte : Byte), s.halt = false →
    ((∀ c, s.caps.ib = some c → s.ib.length < c) →
      exec (.putb byte) s = .next { s with ib := s.ib ++ [byte], trace := s.trace ++ [⟨0, 0⟩] }) ∧
    (s.caps.ib = some s.ib.length →
      exec (.putb byte) s = .next { s with err := 12, errinfo := 1, halt := true, trace := s.trace ++ [⟨12, 0⟩] })

/-- R89, whole: its word; GETB takes the head of OB and answers it zero-extended; an empty OB raises
QueueUnderflow. -/
def Obligations.GetbTakesTheHeadOfOb : Prop :=
  decode 0x050000000000#48 = .ok .getb ∧
  (∀ (s : State) (v : Byte) (rest : List Byte), s.halt = false → s.ob = v :: rest →
    exec .getb s = .next { s with ob := rest, trace := s.trace ++ [⟨0, v.setWidth 64⟩] }) ∧
  ∀ s : State, s.halt = false → s.ob = [] →
    exec .getb s = .next { s with err := 13, errinfo := 0, halt := true, trace := s.trace ++ [⟨13, 0⟩] }

/-! ## BUILD -/

/-- R101, R104, R106: BUILD on a table with a nonzero entry and a total that fits 32 bits makes a tree of 2L - 1 nodes
that meets T1 to T5: first the leaves in ascending order of symbol, then internal nodes whose weight is the sum of
their children's, the root's weight being the total. It empties CODE, answers NCNT and changes nothing else (ACT is
left with the root alone). -/
def Obligations.BuildMakesTheTreeOfFreq : Prop :=
  ∀ s : State, s.halt = false → 0 < freqTotal s.freq → freqTotal s.freq ≤ 2 ^ 32 - 1 →
    ∃ t, exec .build s = .next t ∧ TreeInv t ∧
      t = { s with
        root := t.root, ncnt := t.ncnt, node := t.node, act := [t.root], code := noCodes,
        trace := s.trace ++ [⟨0, t.ncnt.setWidth 64⟩] } ∧
      t.node.length = 2 * (freqLeaves s.freq).length - 1 ∧
      t.node.take (freqLeaves s.freq).length = freqLeaves s.freq ∧
      (∀ i n, (freqLeaves s.freq).length ≤ i → t.node[i]? = some n → ∃ l r w, n = .internal l r w) ∧
      (∀ n l r w, n ∈ t.node → n = .internal l r w → ∃ a b, nodeAt t.node l = some a ∧ nodeAt t.node r = some b ∧
        w.toNat = a.weight.toNat + b.weight.toNat) ∧
      ∃ n, nodeAt t.node t.root = some n ∧ n.weight.toNat = freqTotal s.freq

/-- R102, R103, R106: every internal node made by BUILD has as its left child the first live node in the order of
selection and as its right child the next, and the weights of the internal nodes do not decrease in order of
creation. -/
def Obligations.BuildMergesTheTwoLightest : Prop :=
  ∀ s t : State, s.halt = false → exec .build s = .next t → t.halt = false →
    (∀ i l r w, t.node[i]? = some (.internal l r w) →
      LiveAt t.node i l.toNat ∧ LiveAt t.node i r.toNat ∧ SelectedBefore t.node l.toNat r.toNat ∧
      (∀ j, LiveAt t.node i j → j ≠ l.toNat → j ≠ r.toNat → SelectedBefore t.node r.toNat j)) ∧
    ∀ (i j : Nat) (l r l' r' : Idx) (w w' : Weight), i < j → t.node[i]? = some (Node.internal l r w) →
      t.node[j]? = some (Node.internal l' r' w') → w.toNat ≤ w'.toNat

/-- R101, R105, R104: BUILD raises EmptyAlphabet exactly when every FREQ entry is 0, changing nothing else, and
WeightOverflow exactly when the total exceeds 2^32 - 1. -/
def Obligations.BuildFaultsOnlyOnEmptyOrHeavyTables : Prop :=
  (∀ s : State, s.halt = false → (∀ v, tableGet s.freq v = 0) →
    exec .build s = .next { s with err := 7, errinfo := 0, halt := true, trace := s.trace ++ [⟨7, 0⟩] }) ∧
  (∀ s t : State, s.halt = false → exec .build s = .next t → t.halt = true → t.err = 7 →
    ∀ v, tableGet s.freq v = 0) ∧
  ∀ s : State, s.halt = false →
    (2 ^ 32 - 1 < freqTotal s.freq ↔
      ∃ t, exec .build s = .next t ∧ t.err = 8 ∧ t.errinfo = 0 ∧ t.halt = true ∧ t.trace = s.trace ++ [⟨8, 0⟩])

/-! ## GENCB -/

/-- R110, R111, R113, R116: GENCB on a tree without two leaves of one value makes valid exactly the leaves' symbols,
each with its path (left 0, right 1; the single leaf gets the one bit 0), answers their number and changes nothing
else. -/
def Obligations.GencbRecordsEveryLeafPath : Prop :=
  ∀ (s : State) (t : Tree), s.halt = false → TreeInv s → s.root ≠ Config.noNode → TreeAt s.node s.root t →
    t.symbols.Nodup →
    ∃ code, exec .gencb s = .next { s with
        code := code, trace := s.trace ++ [⟨0, BitVec.ofNat 64 t.leafCount⟩] } ∧
      CodebookOf t code ∧ (∀ v, (tableGet code v).isSome ↔ v ∈ t.symbols)

/-- R114: GENCB with ROOT = NONE leaves every CODE entry invalid and responds 0; any ENCS that follows raises
CodebookMiss. -/
def Obligations.GencbOfTheEmptyTreeIsEmpty : Prop :=
  ∀ (s : State), s.halt = false → s.root = Config.noNode →
    ∃ t, exec .gencb s = .next t ∧ t = { s with code := t.code, trace := s.trace ++ [⟨0, 0⟩] } ∧
      (∀ v, tableGet t.code v = none) ∧
      ∀ sym : Byte, exec (.encs sym) t = .next { t with
        err := 5, errinfo := sym.setWidth 32, halt := true, trace := t.trace ++ [⟨5, 0⟩] }

/-- R111, R115: on a tree with two leaves of one value GENCB raises DuplicateLeaf at the second leaf it meets, left
before right, with that value. -/
def Obligations.GencbRaisesAtTheSecondDuplicate : Prop :=
  ∀ (s : State) (t : Tree) (before after : List Byte) (v : Byte), s.halt = false → TreeInv s →
    s.root ≠ Config.noNode → TreeAt s.node s.root t → t.symbols = before ++ v :: after → before.Nodup → v ∈ before →
    ∃ u, exec .gencb s = .next u ∧
      u = { s with code := u.code, err := 11, errinfo := v.setWidth 32, halt := true, trace := s.trace ++ [⟨11, 0⟩] }

/-! ## SERT and DEST -/

/-- R121, R124: its word; SERT appends the tokens of the tree in post-order and the terminator to BQ, answers their number and
changes nothing else; for the empty tree that is the terminator's one bit. A full BQ takes what fits and raises
QueueOverflow (0).
What the full queue then holds rests on R181 and log entry 11. -/
def Obligations.SertAppendsTheTreeBits : Prop :=
  decode 0x120000000000#48 = .ok .sert ∧
  ∀ (s : State) (bits : Bits), s.halt = false → TreeInv s →
    (s.root = Config.noNode ∧ bits = [false] ∨
      s.root ≠ Config.noNode ∧ ∃ t, TreeAt s.node s.root t ∧ bits = serialized t) →
    ((∀ c, s.caps.bq = some c → s.bq.length + bits.length ≤ c) →
      exec .sert s = .next { s with
        bq := s.bq ++ bits, trace := s.trace ++ [⟨0, BitVec.ofNat 64 bits.length⟩] }) ∧
    (∀ c, s.caps.bq = some c → s.bq.length ≤ c → c < s.bq.length + bits.length →
      exec .sert s = .next { s with
        bq := (s.bq ++ bits).take c, err := 12, errinfo := 0, halt := true, trace := s.trace ++ [⟨12, 0⟩] })

/-- R122: the tree bits of a tree with L leaves are 10 * L bits. -/
def Obligations.TreeBitsHaveTenBitsPerLeaf : Prop :=
  ∀ t : Tree, (serialized t).length = 10 * t.leafCount

/-- R126, R127, R128, R129: DEST reads back every tree of at most 256 leaves from its tree bits, whatever its leaf
values: the new nodes meet T1 to T5 and have weight 0, what follows stays in BQ, CODE is empty, the answer is the
number of bits, nothing else changes. -/
def Obligations.DestReadsBackEveryTree : Prop :=
  ∀ (s : State) (t : Tree) (rest : Bits), s.halt = false → s.bq = serialized t ++ rest → t.leafCount ≤ 256 →
    ∃ u, exec .dest s = .next u ∧ TreeInv u ∧ TreeAt u.node u.root t ∧ (∀ n ∈ u.node, n.weight = 0) ∧
      u = { s with
        root := u.root, ncnt := u.ncnt, node := u.node, sp := 0, stk := [], code := noCodes, bq := rest,
        trace := s.trace ++ [⟨0, BitVec.ofNat 64 (serialized t).length⟩] }

/-- R128 (b): a first bit `0` is the empty tree, one bit consumed. -/
def Obligations.DestReadsTheEmptyTree : Prop :=
  ∀ (s : State) (rest : Bits), s.halt = false → s.bq = false :: rest →
    exec .dest s = .next { s with
      root := Config.noNode, ncnt := 0, node := [], sp := 0, stk := [], code := noCodes, bq := rest,
      trace := s.trace ++ [⟨0, 1⟩] }

/-- R127, R128 (a), (d), (e), (g): bits that end inside the tree bits of a tree, or before them, raise TruncatedTree
when the tree has at most 256 leaves, or when they end before the whole of its 512th token; bits that begin with the
first 512 tokens of a tree of more than 256 leaves raise TreeOverflow, whatever follows. Each token of a tree but the
terminator needs a node, so the 512th is the one that finds NODE full; a leaf token cut short is TruncatedTree first. -/
def Obligations.DestFaultsOnShortOrLargeTrees : Prop :=
  (∀ (s : State) (t : Tree) (missing : Bits), s.halt = false → missing ≠ [] → s.bq ++ missing = serialized t →
    t.leafCount ≤ 256 ∨ s.bq.length < (firstTokens 512 t).length →
    ∃ u, exec .dest s = .next u ∧ u.err = 2 ∧ u.errinfo = 0 ∧ u.halt = true ∧ u.trace = s.trace ++ [⟨2, 0⟩]) ∧
  (∀ (s : State) (t : Tree) (rest : Bits), s.halt = false → 256 < t.leafCount → s.bq = firstTokens 512 t ++ rest →
    ∃ u, exec .dest s = .next u ∧ u.err = 9 ∧ u.errinfo = 0 ∧ u.halt = true ∧ u.trace = s.trace ++ [⟨9, 0⟩]) ∧
  (∀ (s : State) (t : Tree) (rest : Bits), s.halt = false → 256 < t.leafCount → s.bq = serialized t ++ rest →
    ∃ u, exec .dest s = .next u ∧ u.err = 9 ∧ u.errinfo = 0 ∧ u.halt = true ∧ u.trace = s.trace ++ [⟨9, 0⟩])

/-- The statements about DEST leave no bits out: every bit sequence begins with the bit `0`, or with the tree bits of a
tree of at most 256 leaves, or ends inside the tree bits of a tree as TruncatedTree has it, or begins with the first 512
tokens of a tree of more than 256 leaves. -/
def Obligations.EveryBitSequenceIsADestCase : Prop :=
  ∀ b : Bits,
    (∃ rest, b = false :: rest) ∨
    (∃ t rest, t.leafCount ≤ 256 ∧ b = serialized t ++ rest) ∨
    (∃ t missing, missing ≠ [] ∧ b ++ missing = serialized t ∧
      (t.leafCount ≤ 256 ∨ b.length < (firstTokens 512 t).length)) ∨
    (∃ t rest, 256 < t.leafCount ∧ b = firstTokens 512 t ++ rest)

/-- R125: the token T.LEAF v pushes a new leaf of weight 0; with all 511 entries in use it raises TreeOverflow, its
eight value bits unread. -/
def Obligations.LeafTokenPushesALeaf : Prop :=
  ∀ (s : State) (v : Byte), s.halt = false →
    (s.node.length < 511 →
      exec (.tLeaf v) s = .next { s with
        node := s.node ++ [.leaf v 0], stk := BitVec.ofNat 9 s.node.length :: s.stk,
        sp := BitVec.ofNat 10 (s.stk.length + 1) }) ∧
    (511 ≤ s.node.length →
      exec (.tLeaf v) s = .next { s with
        bq := byteBits v ++ s.bq, sp := BitVec.ofNat 10 s.stk.length, err := 9, errinfo := 0, halt := true,
        trace := s.trace ++ [⟨9, 0⟩] })

/-- R126: the token T.ZERO merges the top two stack entries (the top is the right child) into a node of weight 0, or
ends the tree with the one entry as its root, or with none as the empty tree; a merge with all 511 entries in use
raises TreeOverflow. -/
def Obligations.ZeroTokenMergesOrEndsTheTree : Prop :=
  ∀ (s : State), s.halt = false →
    (s.stk = [] → exec .tZero s = .next { s with root := Config.noNode, ncnt := 0, node := [], sp := 0 }) ∧
    (∀ root, s.stk = [root] → exec .tZero s = .next { s with
      root := root, ncnt := BitVec.ofNat 10 s.node.length, stk := [], sp := 0 }) ∧
    (∀ r l below, s.stk = r :: l :: below → s.node.length < 511 → exec .tZero s = .next { s with
      node := s.node ++ [.internal l r 0], stk := BitVec.ofNat 9 s.node.length :: below,
      sp := BitVec.ofNat 10 (below.length + 1) }) ∧
    (∀ r l below, s.stk = r :: l :: below → 511 ≤ s.node.length → exec .tZero s = .next { s with
      sp := BitVec.ofNat 10 (below.length + 2), err := 9, errinfo := 0, halt := true,
      trace := s.trace ++ [⟨9, 0⟩] })

/-- R130: SERT on an empty BQ and then DEST consume exactly the bits appended (the two responses are equal) and leave
the same tree, the empty tree included. -/
def Obligations.DestInvertsSert : Prop :=
  ∀ s : State, Inv s → s.halt = false → s.bq = [] → s.caps.bq = none →
    ∃ a b d, exec .sert s = .next a ∧ a.trace = s.trace ++ [⟨0, d⟩] ∧
      exec .dest a = .next b ∧ b.trace = a.trace ++ [⟨0, d⟩] ∧ b.bq = [] ∧ TreeInv b ∧
      (s.root = Config.noNode → b.root = Config.noNode) ∧
      ∀ t, s.root ≠ Config.noNode → TreeAt s.node s.root t → b.root ≠ Config.noNode ∧ TreeAt b.node b.root t

/-! ## ENCS and DECS -/

/-- R136, whole: its word; ENCS appends the symbol's code, first path bit first, answers its length and changes nothing else; a symbol
with no code raises CodebookMiss with the symbol; a full BQ takes what fits and raises QueueOverflow (0).
What the full queue then holds rests on R181 and log entry 11. -/
def Obligations.EncsAppendsTheCode : Prop :=
  (∀ sym : Byte, decode (0x14#8 ++ sym ++ 0#32) = .ok (.encs sym)) ∧
  ∀ (s : State) (sym : Byte), s.halt = false →
    (∀ p, tableGet s.code sym = some p → p.length ≤ 255 →
      ((∀ c, s.caps.bq = some c → s.bq.length + p.length ≤ c) →
        exec (.encs sym) s = .next { s with
          bq := s.bq ++ p, trace := s.trace ++ [⟨0, BitVec.ofNat 64 p.length⟩] }) ∧
      (∀ c, s.caps.bq = some c → s.bq.length ≤ c → c < s.bq.length + p.length →
        exec (.encs sym) s = .next { s with
          bq := (s.bq ++ p).take c, err := 12, errinfo := 0, halt := true, trace := s.trace ++ [⟨12, 0⟩] })) ∧
    (tableGet s.code sym = none →
      exec (.encs sym) s = .next { s with
        err := 5, errinfo := sym.setWidth 32, halt := true, trace := s.trace ++ [⟨5, 0⟩] })

/-- R142, R143, R145: with the code of a leaf at the head of BQ, DECS removes exactly that code and answers the leaf's
value; nothing else changes. The single-leaf tree takes the one bit `0`. -/
def Obligations.DecsDecodesTheCodeAtTheHead : Prop :=
  ∀ (s : State) (t : Tree) (p rest : Bits) (v : Byte), s.halt = false → s.root ≠ Config.noNode →
    TreeAt s.node s.root t → IsCode t p v → s.bq = p ++ rest →
    exec .decs s = .next { s with bq := rest, trace := s.trace ++ [⟨0, v.setWidth 64⟩] }

/-- R142, R143, R144: DECS raises EmptyAlphabetMismatch on the empty tree, TruncatedPayload when the bits end inside a
code (they are consumed), and InvalidCodeBit on a `1` in the single-leaf tree. -/
def Obligations.DecsFaultsOnEmptyShortOrWrongBits : Prop :=
  (∀ s : State, s.halt = false → s.root = Config.noNode →
    exec .decs s = .next { s with err := 4, errinfo := 0, halt := true, trace := s.trace ++ [⟨4, 0⟩] }) ∧
  (∀ (s : State) (t : Tree) (p missing : Bits) (v : Byte), s.halt = false → s.root ≠ Config.noNode →
    TreeAt s.node s.root t → IsCode t p v → s.bq ++ missing = p → missing ≠ [] →
    exec .decs s = .next { s with
      bq := [], err := 3, errinfo := 0, halt := true, trace := s.trace ++ [⟨3, 0⟩] }) ∧
  (∀ (s : State) (v : Byte) (w : Weight) (rest : Bits), s.halt = false → s.root ≠ Config.noNode →
    nodeAt s.node s.root = some (.leaf v w) → s.bq = true :: rest →
    exec .decs s = .next { s with
      bq := rest, err := 10, errinfo := 0, halt := true, trace := s.trace ++ [⟨10, 0⟩] })

/-- R138, R145: with the codebook of the current tree, one ENCS per byte of an input appends its payload bits, and as
many DECS on a queue that begins with the payload bits of an input answer its bytes and consume exactly those bits. -/
def Obligations.DecsInvertsEncs : Prop :=
  ∀ (s : State) (t : Tree) (d : List Byte), s.halt = false → s.root ≠ Config.noNode → TreeAt s.node s.root t →
    CodebookOf t s.code → (∀ v ∈ d, v ∈ t.symbols) →
    (s.caps.bq = none → ∃ ds u, issueAll (d.map .encs) s = .ok (ds, u) ∧
      u = { s with bq := s.bq ++ payload s.code d, trace := u.trace }) ∧
    (∀ rest, s.bq = payload s.code d ++ rest → ∃ u,
      issueAll (List.replicate d.length .decs) s = .ok (d.map fun v => v.setWidth 64, u) ∧
      u = { s with bq := rest, trace := u.trace })

/-! ## PACK and UNPACK -/

/-- R151, with R43 and R152: its word; PACK empties BQ into ceil(len / 8) bytes of OB, bit position p of BQ being bit 7 - (p mod 8) of
byte p div 8 and the positions past its end 0, answers their number and changes nothing else; a full OB raises
QueueOverflow (2).
What the full queue then holds rests on R181 and log entry 11. -/
def Obligations.PackPlacesEveryBit : Prop :=
  decode 0x160000000000#48 = .ok .pack ∧
  ∀ s : State, s.halt = false →
    ((∀ c, s.caps.ob = some c → s.ob.length + (s.bq.length + 7) / 8 ≤ c) →
      ∃ (bytes : List Byte) (d : Data), exec .pack s = .next { s with
          bq := [], ob := s.ob ++ bytes, trace := s.trace ++ [⟨0, d⟩] } ∧
        bytes.length = (s.bq.length + 7) / 8 ∧ (bytes.length < 2 ^ 64 → d.toNat = bytes.length) ∧
        ∀ p b, bytes[p / 8]? = some b → b.getLsbD (7 - p % 8) = s.bq.getD p false) ∧
    (∀ c, s.caps.ob = some c → s.ob.length ≤ c → c < s.ob.length + (s.bq.length + 7) / 8 →
      ∃ u, exec .pack s = .next u ∧ u.err = 12 ∧ u.errinfo = 2 ∧ u.halt = true ∧ u.ob.length = c ∧
        u.trace = s.trace ++ [⟨12, 0⟩])

/-- R153, with R43: its word; UNPACK empties IB into 8 bits a byte at the tail of BQ, bit 7 - (p mod 8) of byte p div 8 being bit
position p, answers their number and changes nothing else; a full BQ raises QueueOverflow (0).
What the full queue then holds rests on R181 and log entry 11. -/
def Obligations.UnpackPlacesEveryBit : Prop :=
  decode 0x170000000000#48 = .ok .unpack ∧
  ∀ s : State, s.halt = false →
    ((∀ c, s.caps.bq = some c → s.bq.length + 8 * s.ib.length ≤ c) →
      ∃ (bits : Bits) (d : Data), exec .unpack s = .next { s with
          ib := [], bq := s.bq ++ bits, trace := s.trace ++ [⟨0, d⟩] } ∧
        bits.length = 8 * s.ib.length ∧ (bits.length < 2 ^ 64 → d.toNat = bits.length) ∧
        ∀ p b, s.ib[p / 8]? = some b → bits[p]? = some (b.getLsbD (7 - p % 8))) ∧
    (∀ c, s.caps.bq = some c → s.bq.length ≤ c → c < s.bq.length + 8 * s.ib.length →
      ∃ u, exec .unpack s = .next u ∧ u.err = 12 ∧ u.errinfo = 0 ∧ u.halt = true ∧ u.bq.length = c ∧
        u.trace = s.trace ++ [⟨12, 0⟩])

/-- R154 (d): UNPACK then PACK gives the bytes back unchanged; PACK then UNPACK gives the bits back followed by the
padding zeros, as many as bring the length to a multiple of 8. -/
def Obligations.PackAndUnpackAreInverse : Prop :=
  (∀ s : State, s.halt = false → s.caps = Config.Caps.unbounded → s.bq = [] →
    ∃ a b, exec .unpack s = .next a ∧ exec .pack a = .next b ∧ b.bq = [] ∧ b.ib = [] ∧ b.ob = s.ob ++ s.ib) ∧
  (∀ s : State, s.halt = false → s.caps = Config.Caps.unbounded → s.ob = [] →
    ∃ a b, exec .pack s = .next a ∧ exec .unpack { a with ib := a.ob, ob := [] } = .next b ∧
      b.bq = s.bq ++ List.replicate ((8 - s.bq.length % 8) % 8) false)

/-- R152 (f): if the length of the first part is a multiple of 8, packing the two parts together gives the same bytes
as packing the first and then the second. -/
def Obligations.PackSplitsAtAByteBoundary : Prop :=
  ∀ (s : State) (a b : Bits), s.halt = false → s.caps = Config.Caps.unbounded → s.bq = a ++ b → a.length % 8 = 0 →
    ∃ t u v, exec .pack s = .next t ∧ exec .pack { s with bq := a } = .next u ∧ exec .pack { u with bq := b } = .next v ∧
      t.ob = v.ob

/-! ## Host sequences -/

/-- R41, R69, R162, R163: the header holds every length below 2^32 and gives it back; an artifact of fewer than 4
bytes is MalformedHeader; an input of 2^32 bytes or more is refused (R164). -/
def Obligations.SizeHeaderRoundTrips : Prop :=
  (∀ n < 2 ^ 32, ∃ h0 h1 h2 h3, sizeHeader n = [h0, h1, h2, h3] ∧ headerLength h0 h1 h2 h3 = n ∧
    ∀ k < 8, h0.getLsbD k = n.testBit k ∧ h1.getLsbD k = n.testBit (8 + k) ∧ h2.getLsbD k = n.testBit (16 + k) ∧
      h3.getLsbD k = n.testBit (24 + k)) ∧
  (∀ (a : List Byte) (s : State), a.length < 4 → hdecode a s = .error .malformedHeader) ∧
  ∀ (d : List Byte) (s : State), 2 ^ 32 ≤ d.length → hencode d s = .error .inputTooLong

/-- R161: after CLR and the LDF commands of an input, FREQ holds the exact count of every byte value. -/
def Obligations.LoadCommandsLoadTheExactCounts : Prop :=
  ∀ (d : List Byte) (s : State), d.length < 2 ^ 32 →
    ∃ ds t, issueAll (.clr :: loadCommands d) s = .ok (ds, t) ∧ t.halt = false ∧
      ∀ v, (tableGet t.freq v).toNat = d.count v

/-- R165, vector V40: the artifact of the empty input is the five bytes 00 00 00 00 00, on every block. -/
def Obligations.EmptyInputMakesFiveZeroBytes : Prop :=
  ∀ s : State, s.caps = Config.Caps.unbounded → ∃ u, hencode [] s = .ok ([0, 0, 0, 0, 0], u)

/-- R168: for every input shorter than 2^32 bytes, on blocks with unbounded queues in any two states, HENCODE makes an
artifact, and HDECODE of it gives the input back; no command faults. -/
def Obligations.HdecodeInvertsHencode : Prop :=
  ∀ (d : List Byte) (s s' : State), d.length < 2 ^ 32 → s.caps = Config.Caps.unbounded →
    s'.caps = Config.Caps.unbounded → ∃ a u v, hencode d s = .ok (a, u) ∧ hdecode a s' = .ok (d, v)

/-- R168: the artifact of HENCODE depends on the input alone, not on what the block held before. -/
def Obligations.ArtifactDependsOnTheInputAlone : Prop :=
  ∀ (d : List Byte) (s s' : State) (a a' : List Byte) (u u' : State), s.caps = s'.caps →
    hencode d s = .ok (a, u) → hencode d s' = .ok (a', u') → a = a'
end

