-- ==== Sys2Proof/Laws/Bits.lean ====
section
/-! SUPPORT. Bytes as runs of eight bits: the two directions are inverse (20_memory.md R42, R43). -/

namespace Sys2Proof

@[simp] theorem byteBits_length (v : Byte) : (byteBits v).length = 8 := rfl

@[simp] theorem byteBits_byteOfBits (b1 b2 b3 b4 b5 b6 b7 b8 : Bool) :
    byteBits (byteOfBits b1 b2 b3 b4 b5 b6 b7 b8) = [b1, b2, b3, b4, b5, b6, b7, b8] := by
  revert b1 b2 b3 b4 b5 b6 b7 b8
  decide +kernel

theorem byteOfBits_byteBits (v : Byte) :
    byteOfBits (v.getLsbD 7) (v.getLsbD 6) (v.getLsbD 5) (v.getLsbD 4) (v.getLsbD 3) (v.getLsbD 2) (v.getLsbD 1)
      (v.getLsbD 0) = v := by
  revert v
  decide +kernel

namespace Machine

@[simp] theorem bitsOfBytes_nil : bitsOfBytes [] = [] := rfl

@[simp] theorem bitsOfBytes_cons (b : Byte) (bs : List Byte) : bitsOfBytes (b :: bs) = byteBits b ++ bitsOfBytes bs := rfl

@[simp] theorem bitsOfBytes_length (bs : List Byte) : (bitsOfBytes bs).length = 8 * bs.length := by
  induction bs with
  | nil => rfl
  | cons b bs ih => simp [ih]; omega

/-- The bytes of a whole group of eight bits and what follows it. -/
theorem bytesOfBits_byteBits_append (v : Byte) (rest : Bits) :
    bytesOfBits (byteBits v ++ rest) = v :: bytesOfBits rest := by
  show byteOfBits _ _ _ _ _ _ _ _ :: bytesOfBits rest = _
  rw [byteOfBits_byteBits]

end Machine

end Sys2Proof
end

