-- ==== Sys2Proof/Laws/Forest.lean ====
section
/-! SUPPORT. How the node store grows, said once for BUILD and DEST: new nodes are leaves, or parents of nodes not merged yet. -/

namespace Sys2Proof.Machine

/-- An index below 512 is kept by the 9 bits of a node index. -/
theorem toNat_ofNat_idx {n : Nat} (h : n < 512) : (BitVec.ofNat 9 n).toNat = n := by simp; omega

/-- A node stays where it is when others are allocated after it. -/
theorem nodeAt_append {nodes : List Node} {i : Idx} {n : Node} (h : nodeAt nodes i = some n) (more : List Node) :
    nodeAt (nodes ++ more) i = some n := by
  unfold nodeAt at *
  rw [List.getElem?_append_left]
  · exact h
  · rw [List.getElem?_eq_some_iff] at h; exact h.1

/-- A tree stays where it is when nodes are allocated after it. -/
theorem TreeAt.append {nodes : List Node} {i : Idx} {t : Tree} (h : TreeAt nodes i t) (more : List Node) :
    TreeAt (nodes ++ more) i t := by
  induction h with
  | leaf h => exact .leaf (nodeAt_append h more)
  | node h _ _ ihl ihr => exact .node (nodeAt_append h more) ihl ihr

theorem childIndices_append (a b : List Node) : childIndices (a ++ b) = childIndices a ++ childIndices b := by simp [childIndices]

/-- Every internal node has two children. -/
theorem childIndices_even (a : List Node) : (childIndices a).length % 2 = 0 := by
  induction a with
  | nil => rfl
  | cons n ns ih => cases n <;> simp [childIndices] at * <;> omega

/-- What BUILD and DEST keep while they allocate nodes: each child has a smaller index than its parent (T2), and
every allocated node is either the child of exactly one internal node or one of the nodes not merged yet. -/
structure Forest (nodes : List Node) (live : List Nat) : Prop where
  below : ∀ i (h : i < nodes.length), childrenBelow i nodes[i] = true
  perm : (childIndices nodes ++ live).Perm (List.range nodes.length)

/-- Allocating a leaf keeps the form; the leaf is not merged yet. -/
theorem Forest.leaf {nodes live} (h : Forest nodes live) (v w) : Forest (nodes ++ [.leaf v w]) (nodes.length :: live) := by
  constructor
  · intro i hi
    by_cases c : i < nodes.length
    · rw [List.getElem_append_left c]; exact h.below i c
    · rw [List.getElem_append_right (by omega)]; simp [childrenBelow]
  · have : childIndices [Node.leaf v w] = [] := rfl
    rw [childIndices_append, this, List.append_nil, List.length_append, List.length_singleton, List.range_succ]
    exact (List.perm_middle.trans (List.Perm.cons _ h.perm)).trans (List.perm_append_singleton _ _).symm

/-- A node not merged yet is allocated. -/
theorem Forest.mem {nodes live} (h : Forest nodes live) {x} (hx : x ∈ live) : x < nodes.length := by
  have := h.perm.mem_iff.1 (List.mem_append_right _ hx); simpa using this

/-- The nodes not merged yet are listed once each. -/
theorem Forest.nodup {nodes live} (h : Forest nodes live) : live.Nodup := by
  have := h.perm.nodup_iff.2 List.nodup_range
  exact (List.nodup_append.1 this).2.1

/-- Merging two nodes under a new internal node keeps the form. -/
theorem Forest.merge {nodes} {l r : Idx} {live} (h : Forest nodes (r.toNat :: l.toNat :: live)) (w) :
   Forest (nodes ++ [.internal l r w]) (nodes.length :: live) := by
  have hn := h.nodup
  have hr := h.mem (x := r.toNat) (by simp)
  have hl := h.mem (x := l.toNat) (by simp)
  constructor
  · intro i hi
    by_cases c : i < nodes.length
    · rw [List.getElem_append_left c]; exact h.below i c
    · rw [List.getElem_append_right (by omega)]
      have : i = nodes.length := by simp at hi; omega
      subst this
      simp [childrenBelow] at *
      refine ⟨⟨hl, hr⟩, fun e => hn.1.1 e.symm⟩
  · have : childIndices [Node.internal l r w] = [l.toNat, r.toNat] := rfl
    rw [childIndices_append, this, List.length_append, List.length_singleton, List.range_succ]
    have hp := h.perm
    rw [List.perm_iff_count] at *
    intro x; have := hp x
    simp [List.count_append, List.count_cons] at *
    omega

/-- The order in which the nodes not merged yet are listed does not matter. -/
theorem Forest.perm_live {nodes a b} (h : Forest nodes a) (p : a.Perm b) : Forest nodes b :=
  ⟨h.below, (List.Perm.append_left _ p.symm).trans h.perm⟩

/-- With one node not merged yet, the last one allocated, the nodes are one tree that meets T1 to T5 (R24). -/
theorem Forest.treeInv {s : State} {root : Nat} (h : Forest s.node [root]) (hroot : root + 1 = s.node.length) (hb : s.node.length ≤ 511)
   (hr : s.root = BitVec.ofNat 9 root) (hn : s.ncnt = BitVec.ofNat 10 s.node.length) : TreeInv s := by
  constructor
  · rw [hn]; simp; omega
  · rw [hr, if_neg (by omega)]; simp; omega
  · exact h.below
  · intro i hi
    have := h.perm.count_eq i
    rw [List.count_append, List.count_singleton, List.count_eq_one_of_mem List.nodup_range (by simpa using hi)] at this
    by_cases c : i + 1 = s.node.length
    · rw [if_pos c]; simp [show root = i by omega] at this; simpa using this
    · rw [if_neg c]; simpa [show ¬ root = i by omega] using this
  · right
    have := h.perm.length_eq
    have := childIndices_even s.node
    simp at *; omega
  · exact hb

/-- The empty tree meets T1 to T5. -/
theorem emptyTreeInv {s : State} (hr : s.root = Config.noNode) (hn : s.ncnt = 0) (h : s.node = []) : TreeInv s := by
  constructor <;> simp [hr, hn, h]

end Sys2Proof.Machine
end

