-- ==== Sys2Proof/Laws/Builder.lean ====
section
/-! SUPPORT. What the tree builder can do, said once (41_tree_builder.md R101 to R104). -/

namespace Sys2Proof.Machine

/-- Weight first, then index: the order of selection is transitive. -/
theorem liveBefore_trans {a b c : Live} (h1 : liveBefore a b = true) (h2 : liveBefore b c = true) : liveBefore a c = true := by
  simp [liveBefore] at *; omega

theorem liveBefore_irrefl (a : Live) : liveBefore a a = false := by simp [liveBefore]

/-- Two different indices are ordered. -/
theorem liveBefore_total {a b : Live} (h : a.idx ≠ b.idx) : liveBefore a b = true ∨ liveBefore b a = true := by
  have : a.idx.toNat ≠ b.idx.toNat := fun e => h (BitVec.eq_of_toNat_eq e)
  simp [liveBefore]; omega

theorem not_liveBefore_trans {a b c : Live} (h1 : liveBefore a b = false) (h2 : liveBefore b c = false) : liveBefore a c = false := by
  simp [liveBefore] at *; omega

/-- The first live node is one of them. -/
theorem firstLive_mem (x xs) : firstLive x xs ∈ x :: xs := by
  unfold firstLive
  induction xs generalizing x with
  | nil => simp
  | cons y ys ih =>
    simp only [List.foldl_cons]
    by_cases c : liveBefore y x = true
    · simp only [c, if_true]
      exact List.mem_cons_of_mem _ (ih y)
    · simp only [c]
      rcases List.mem_cons.1 (ih x) with h | h
      · exact List.mem_cons.2 (.inl h)
      · exact List.mem_cons_of_mem _ (List.mem_cons_of_mem _ h)

/-- No live node comes before the first. -/
theorem firstLive_min (x xs) : ∀ y ∈ x :: xs, liveBefore y (firstLive x xs) = false := by
  unfold firstLive
  induction xs generalizing x with
  | nil => simp [liveBefore_irrefl]
  | cons y ys ih =>
    simp only [List.foldl_cons]
    intro z hz
    by_cases c : liveBefore y x = true
    · simp only [c, if_true]
      have := ih y
      simp at hz
      rcases hz with rfl | rfl | hz
      · have h1 := this y (by simp)
        by_contra hne; simp at hne
        have h2 := liveBefore_trans c hne
        exact absurd h2 (by simp [h1])
      · exact this z (by simp)
      · exact this z (by simp [hz])
    · simp only [c]
      have := ih x
      simp at hz
      rcases hz with rfl | rfl | hz
      · exact this z (by simp)
      · have h1 := this x (by simp)
        exact not_liveBefore_trans (by simpa using c) h1
      · exact this z (by simp [hz])

/-- `select` takes out one live node that no other comes before (R102). -/
theorem select_spec {L m rest} (h : select L = some (m, rest)) : L.Perm (m :: rest) ∧ ∀ y ∈ rest, liveBefore y m = false := by
  cases L with
  | nil => simp [select] at h
  | cons x xs =>
    simp only [select, Option.some.injEq, Prod.mk.injEq] at h
    obtain ⟨rfl, rfl⟩ := h
    refine ⟨List.perm_cons_erase (firstLive_mem x xs), ?_⟩
    intro y hy
    exact firstLive_min x xs y (List.mem_of_mem_erase hy)

theorem select_none {L} (h : select L = none) : L = [] := by cases L <;> simp [select] at *

/-- What the builder keeps between two rounds: the live weights add up to the total, and each live node has its own weight. -/
structure BInv (total : Nat) (b : Builder) : Prop where
  forest : Forest b.nodes (b.live.map fun x => x.idx.toNat)
  bound : b.nodes.length + b.live.length ≤ 512
  weight : ∀ x ∈ b.live, ∃ n, nodeAt b.nodes x.idx = some n ∧ n.weight = x.weight
  sum : (b.live.map fun x => x.weight.toNat).sum = total
  last : b.live ≠ [] → ∃ x ∈ b.live, x.idx.toNat + 1 = b.nodes.length

/-- One merge keeps it (R103, R104). -/
theorem mergeLoop_step {total} {b : Builder} {l others r rest} (h : BInv total b) (h1 : select b.live = some (l, others)) (h2 : select others = some (r, rest))
   (h3 : ¬ Config.maxWeight < l.weight.toNat + r.weight.toNat) :
   BInv total ⟨b.nodes ++ [.internal l.idx r.idx (l.weight + r.weight)], rest ++ [⟨l.weight + r.weight, BitVec.ofNat 9 b.nodes.length⟩]⟩ := by
  have p1 := (select_spec h1).1
  have p2 := (select_spec h2).1
  have p : b.live.Perm (l :: r :: rest) := p1.trans (List.Perm.cons _ p2)
  have hlen := p.length_eq
  have hb := h.bound
  simp at hlen
  have hw : (l.weight + r.weight).toNat = l.weight.toNat + r.weight.toNat := by
    rw [BitVec.toNat_add]; unfold Config.maxWeight at h3; omega
  constructor
  · have f : Forest b.nodes (r.idx.toNat :: l.idx.toNat :: rest.map fun x => x.idx.toNat) :=
      h.forest.perm_live ((p.map _).trans (by simp; exact List.Perm.swap _ _ _))
    have := f.merge (l.weight + r.weight)
    refine this.perm_live ?_
    simp [Nat.mod_eq_of_lt (show b.nodes.length < 512 by omega)]
    exact (List.perm_append_singleton _ _).symm
  · simp; omega
  · intro x hx
    simp at hx
    rcases hx with hx | rfl
    · obtain ⟨n, hn, hw⟩ := h.weight x (p.mem_iff.2 (by simp [hx]))
      exact ⟨n, nodeAt_append hn _, hw⟩
    · refine ⟨.internal l.idx r.idx (l.weight + r.weight), ?_, rfl⟩
      simp [nodeAt, Nat.mod_eq_of_lt (show b.nodes.length < 512 by omega)]
  · have := (p.map fun x => x.weight.toNat).sum_eq
    rw [h.sum] at this
    simp [hw, List.sum_append] at *; omega
  · intro _
    exact ⟨_, List.mem_append_right _ (List.mem_singleton.2 rfl), by simp; omega⟩

/-- When the merge loop ends with a tree, at most one node is live and the nodes made before it are still there. -/
theorem mergeLoop_tree {total n b b'} (h : BInv total b) (hn : b.live.length ≤ n + 1) (e : mergeLoop n b = .tree b') : BInv total b' ∧ b'.live.length ≤ 1 ∧ b'.nodes.length + b'.live.length = b.nodes.length + b.live.length ∧ (b.live ≠ [] → b'.live ≠ []) ∧ ∃ more, b'.nodes = b.nodes ++ more := by
  induction n generalizing b with
  | zero => simp [mergeLoop] at e; subst e; exact ⟨h, by omega, rfl, id, [], by simp⟩
  | succ n ih =>
    simp only [mergeLoop] at e
    split at e
    · next h1 => cases e; rw [select_none h1] at *; exact ⟨h, by simp, rfl, by simp, [], by simp⟩
    · next l others h1 =>
      have p1 := (select_spec h1).1.length_eq
      split at e
      · next h2 => cases e; simp [select_none h2] at p1; exact ⟨h, by omega, rfl, id, [], by simp⟩
      · next r rest h2 =>
        have p2 := (select_spec h2).1.length_eq
        split at e
        · cases e
        · next h3 =>
          simp at p1 p2
          obtain ⟨r1, r2, r3, r4, m, r5⟩ := ih (mergeLoop_step h h1 h2 h3) (by simp; omega) e
          refine ⟨r1, r2, ?_, fun _ => r4 (by simp), _, by rw [r5, List.append_assoc]⟩
          simp at r3; omega

/-- When the merge loop ends in WeightOverflow, the total does not fit a weight. -/
theorem mergeLoop_over {total n b b'} (h : BInv total b) (e : mergeLoop n b = .overflow b') : Config.maxWeight < total := by
  induction n generalizing b with
  | zero => simp [mergeLoop] at e
  | succ n ih =>
    simp only [mergeLoop] at e
    split at e
    · cases e
    · next l others h1 =>
      split at e
      · cases e
      · next r rest h2 =>
        split at e
        · next h3 =>
          have p : b.live.Perm (l :: r :: rest) := (select_spec h1).1.trans (List.Perm.cons _ (select_spec h2).1)
          have := (p.map fun x => x.weight.toNat).sum_eq
          rw [h.sum] at this; simp at this; omega
        · next h3 => exact ih (mergeLoop_step h h1 h2 h3) e

theorem childIndices_leaves (p : List (Byte × Weight)) : childIndices (leafNodes p) = [] := by
  simp [childIndices, leafNodes, List.flatMap_map]

theorem leafLives_idx (p : List (Byte × Weight)) (h : p.length ≤ 256) : (leafLives p).map (fun x => x.idx.toNat) = List.range p.length := by
  simp only [leafLives, List.map_map]
  have : ((fun x : Live => x.idx.toNat) ∘ fun q : (Byte × Weight) × Nat => (⟨q.1.2, BitVec.ofNat 9 q.2⟩ : Live)) = fun q => q.2 % 512 := by funext q; simp
  rw [this]
  have h2 : p.zipIdx.map (fun q => q.2 % 512) = p.zipIdx.map (fun q => q.2) := by
    apply List.map_congr_left
    intro q hq
    have := List.snd_lt_of_mem_zipIdx hq
    omega
  rw [h2, List.zipIdx_map_snd, List.range_eq_range']

theorem leafLives_sum (p : List (Byte × Weight)) : (leafLives p).map (fun x => x.weight.toNat) = p.map fun q => q.2.toNat := by
  simp only [leafLives, List.map_map]
  rw [show ((fun x : Live => x.weight.toNat) ∘ fun q : (Byte × Weight) × Nat => (⟨q.1.2, BitVec.ofNat 9 q.2⟩ : Live)) = (fun q : Byte × Weight => q.2.toNat) ∘ Prod.fst from rfl]
  rw [← List.map_map, List.zipIdx_map_fst]

theorem presentSymbols_length (f : Table Weight) : (presentSymbols f).length ≤ 256 := by
  unfold presentSymbols
  refine (List.length_filterMap_le _ _).trans ?_
  simp

/-- The counts of the present symbols add up to the total of FREQ. -/
theorem presentSymbols_sum (f : Table Weight) : ((presentSymbols f).map fun q => q.2.toNat).sum = freqTotal f := by
  unfold presentSymbols freqTotal
  generalize f.toList = l
  have : ∀ k, (((l.zipIdx k).filterMap fun p => if p.1 = 0 then none else some (BitVec.ofNat 8 p.2, p.1)).map fun q : Byte × Weight => q.2.toNat).sum = (l.map BitVec.toNat).sum := by
    induction l with
    | nil => simp
    | cons x xs ih =>
      intro k
      simp only [List.zipIdx_cons, List.filterMap_cons]
      by_cases c : x = 0
      · simp only [c, if_true, List.map_cons, List.sum_cons]; rw [ih (k + 1)]; simp
      · simp only [c, if_false, List.map_cons, List.sum_cons]; rw [ih (k + 1)]
  exact this 0

/-- It holds after step 1 of R101. -/
theorem BInv0 (f : Table Weight) : BInv (freqTotal f) ⟨leafNodes (presentSymbols f), leafLives (presentSymbols f)⟩ := by
  have hl := presentSymbols_length f
  constructor
  · constructor
    · intro i hi; simp [leafNodes, childrenBelow]
    · simp only []; rw [leafLives_idx _ hl, childIndices_leaves]; simp [leafNodes]
  · simp [leafNodes, leafLives]; omega
  · intro x hx
    simp [leafLives] at hx
    obtain ⟨a, b, i, h, rfl⟩ := hx
    have := List.mem_zipIdx' h
    obtain ⟨hlt, he⟩ := this
    refine ⟨.leaf a b, ?_, rfl⟩
    simp [nodeAt, leafNodes, Nat.mod_eq_of_lt (show i < 512 by omega)]
    rw [List.getElem?_eq_getElem hlt, ← he]
  · simp only []; rw [leafLives_sum, presentSymbols_sum]
  · intro h
    simp [leafLives] at h
    have h0 : 0 < (presentSymbols f).length := List.length_pos_iff.2 h
    have : (presentSymbols f).length - 1 ∈ (leafLives (presentSymbols f)).map (fun x => x.idx.toNat) := by
      rw [leafLives_idx _ hl]; simp; omega
    obtain ⟨x, hx, he⟩ := List.mem_map.1 this
    exact ⟨x, hx, by simp [leafNodes]; omega⟩

/-- When BUILD makes a tree, its root is the one live node left and the last one allocated, and there are 2L - 1 nodes. -/
theorem buildTree_tree {f b} (hne : presentSymbols f ≠ []) (h : buildTree f = .tree b) :
   ∃ x, b.live = [x] ∧ BInv (freqTotal f) b ∧ b.nodes.length + 1 = 2 * (presentSymbols f).length ∧ x.idx.toNat + 1 = b.nodes.length ∧ ∃ more, b.nodes = leafNodes (presentSymbols f) ++ more := by
  unfold buildTree at h
  obtain ⟨h1, h2, h3, h4, h5⟩ := mergeLoop_tree (BInv0 f) (by simp [leafLives]) h
  have h6 := h4 (by simp [leafLives, hne])
  obtain ⟨x, hx⟩ : ∃ x, b.live = [x] := by
    match hl : b.live with
    | [] => exact absurd hl h6
    | [x] => exact ⟨x, rfl⟩
    | x :: y :: zs => rw [hl] at h2; simp at h2
  refine ⟨x, hx, h1, ?_, ?_, h5⟩
  · rw [hx] at h3; simp [leafNodes, leafLives] at h3; omega
  · obtain ⟨y, hy, he⟩ := h1.last h6
    rw [hx] at hy; simp at hy; subst hy; exact he

end Sys2Proof.Machine
end

