-- ==== Sys2Proof/Laws/Operands.lean ====
section
/-! SUPPORT. Reading the node store: `readTree` answers exactly the tree that stands at an index (20_memory.md R53 (b)). -/

namespace Sys2Proof.Machine

/-- What `readTree` answers stands in the node store. -/
theorem readTree_sound {nodes : List Node} {depth : Nat} {i : Idx} {t : Tree} (h : readTree nodes depth i = some t) :
    TreeAt nodes i t := by
  induction depth generalizing i t with
  | zero => simp [readTree] at h
  | succ depth ih =>
    simp only [readTree] at h
    split at h
    · cases h
    · next v w hn => cases h; exact .leaf hn
    · next l r w hn =>
      split at h
      · next tl tr hl hr => cases h; exact .node hn (ih hl) (ih hr)
      · cases h

/-- Only one tree stands at an index. -/
theorem TreeAt.unique {nodes : List Node} {i : Idx} {t u : Tree} (ht : TreeAt nodes i t) (hu : TreeAt nodes i u) :
    t = u := by
  induction ht generalizing u with
  | leaf h =>
    cases hu with
    | leaf h' => rw [h] at h'; cases h'; rfl
    | node h' _ _ => rw [h] at h'; cases h'
  | node h _ _ ihl ihr =>
    cases hu with
    | leaf h' => rw [h] at h'; cases h'
    | node h' hl hr => rw [h] at h'; cases h'; rw [ihl hl, ihr hr]

/-- More depth changes no answer. -/
theorem readTree_mono {nodes : List Node} {depth more : Nat} {i : Idx} {t : Tree}
    (h : readTree nodes depth i = some t) (hm : depth ≤ more) : readTree nodes more i = some t := by
  induction depth generalizing more i t with
  | zero => simp [readTree] at h
  | succ depth ih =>
    obtain ⟨k, rfl⟩ : ∃ k, more = k + 1 := ⟨more - 1, by omega⟩
    simp only [readTree] at h ⊢
    split at h
    · cases h
    · next v w hn => cases h; simp
    · next l r w hn =>
      split at h
      · next tl tr hl hr =>
        cases h
        have hk : depth ≤ k := by omega
        simp [ih hl hk, ih hr hk]
      · cases h

/-- Where every child has a smaller index (T2), the entry at an index holds one finite tree, read within index + 1
levels. -/
theorem readTree_of_childrenBelow {nodes : List Node} (t2 : ∀ i (h : i < nodes.length), childrenBelow i nodes[i] = true)
    (k : Nat) (i : Idx) (hi : i.toNat < nodes.length) (hk : i.toNat < k) : ∃ t, readTree nodes k i = some t := by
  induction k generalizing i with
  | zero => omega
  | succ k ih =>
    have hb := t2 i.toNat hi
    have hn : nodeAt nodes i = some nodes[i.toNat] := by simp [nodeAt, hi]
    cases hnode : nodes[i.toNat] with
    | leaf v w => exact ⟨.leaf v, by simp [readTree, hn, hnode]⟩
    | internal l r w =>
      simp [childrenBelow, hnode] at hb
      obtain ⟨tl, hl⟩ := ih l (by omega) (by omega)
      obtain ⟨tr, hr⟩ := ih r (by omega) (by omega)
      exact ⟨.node tl tr, by simp [readTree, hn, hnode, hl, hr]⟩

/-- In a state that meets T1 and T2, `currentTree` answers the tree that stands at ROOT. -/
theorem currentTree_eq_some {s : State} (inv : TreeInv s) (hr : s.root ≠ Config.noNode) :
    ∃ t, currentTree s = some t ∧ TreeAt s.node s.root t := by
  have hne : s.node.length ≠ 0 := by
    intro h
    have := inv.t1
    rw [if_pos h] at this
    exact hr (BitVec.eq_of_toNat_eq this)
  have hroot : s.root.toNat = s.node.length - 1 := by simpa [hne] using inv.t1
  obtain ⟨t, ht⟩ := readTree_of_childrenBelow inv.t2 s.node.length s.root (by omega) (by omega)
  exact ⟨t, ht, readTree_sound ht⟩

/-- The same for a tree known to stand at ROOT. -/
theorem currentTree_of_treeAt {s : State} (inv : TreeInv s) (hr : s.root ≠ Config.noNode) {t : Tree}
    (ht : TreeAt s.node s.root t) : currentTree s = some t := by
  obtain ⟨u, hu, hat⟩ := currentTree_eq_some inv hr
  rw [hu, hat.unique ht]

end Sys2Proof.Machine
end

