-- ==== Sys2Proof/Laws/State.lean ====
section
/-! SUPPORT. One lemma per field per state update: no later proof unfolds a record update. -/

namespace Sys2Proof.Machine

/-! ## answer -/

section
variable (r : Response) (s : State)

@[simp] theorem answer_root : (answer r s).root = s.root := rfl
@[simp] theorem answer_ncnt : (answer r s).ncnt = s.ncnt := rfl
@[simp] theorem answer_sp : (answer r s).sp = s.sp := rfl
@[simp] theorem answer_err : (answer r s).err = s.err := rfl
@[simp] theorem answer_errinfo : (answer r s).errinfo = s.errinfo := rfl
@[simp] theorem answer_halt : (answer r s).halt = s.halt := rfl
@[simp] theorem answer_freq : (answer r s).freq = s.freq := rfl
@[simp] theorem answer_node : (answer r s).node = s.node := rfl
@[simp] theorem answer_code : (answer r s).code = s.code := rfl
@[simp] theorem answer_stk : (answer r s).stk = s.stk := rfl
@[simp] theorem answer_act : (answer r s).act = s.act := rfl
@[simp] theorem answer_bq : (answer r s).bq = s.bq := rfl
@[simp] theorem answer_ib : (answer r s).ib = s.ib := rfl
@[simp] theorem answer_ob : (answer r s).ob = s.ob := rfl
@[simp] theorem answer_caps : (answer r s).caps = s.caps := rfl
@[simp] theorem answer_input : (answer r s).input = s.input := rfl
@[simp] theorem answer_trace : (answer r s).trace = s.trace ++ [r] := rfl

end

/-! ## respond -/

section
variable (d : Data) (s : State)

@[simp] theorem respond_root : (respond d s).root = s.root := rfl
@[simp] theorem respond_ncnt : (respond d s).ncnt = s.ncnt := rfl
@[simp] theorem respond_sp : (respond d s).sp = s.sp := rfl
@[simp] theorem respond_err : (respond d s).err = s.err := rfl
@[simp] theorem respond_errinfo : (respond d s).errinfo = s.errinfo := rfl
@[simp] theorem respond_halt : (respond d s).halt = s.halt := rfl
@[simp] theorem respond_freq : (respond d s).freq = s.freq := rfl
@[simp] theorem respond_node : (respond d s).node = s.node := rfl
@[simp] theorem respond_code : (respond d s).code = s.code := rfl
@[simp] theorem respond_stk : (respond d s).stk = s.stk := rfl
@[simp] theorem respond_act : (respond d s).act = s.act := rfl
@[simp] theorem respond_bq : (respond d s).bq = s.bq := rfl
@[simp] theorem respond_ib : (respond d s).ib = s.ib := rfl
@[simp] theorem respond_ob : (respond d s).ob = s.ob := rfl
@[simp] theorem respond_caps : (respond d s).caps = s.caps := rfl
@[simp] theorem respond_input : (respond d s).input = s.input := rfl
@[simp] theorem respond_trace : (respond d s).trace = s.trace ++ [⟨0, d⟩] := rfl

end

/-! ## raise -/

section
variable (c : Cause) (info : BitVec 32) (s : State)

@[simp] theorem raise_root : (raise c info s).root = s.root := rfl
@[simp] theorem raise_ncnt : (raise c info s).ncnt = s.ncnt := rfl
@[simp] theorem raise_sp : (raise c info s).sp = s.sp := rfl
@[simp] theorem raise_err : (raise c info s).err = c.code := rfl
@[simp] theorem raise_errinfo : (raise c info s).errinfo = info := rfl
@[simp] theorem raise_halt : (raise c info s).halt = true := rfl
@[simp] theorem raise_freq : (raise c info s).freq = s.freq := rfl
@[simp] theorem raise_node : (raise c info s).node = s.node := rfl
@[simp] theorem raise_code : (raise c info s).code = s.code := rfl
@[simp] theorem raise_stk : (raise c info s).stk = s.stk := rfl
@[simp] theorem raise_act : (raise c info s).act = s.act := rfl
@[simp] theorem raise_bq : (raise c info s).bq = s.bq := rfl
@[simp] theorem raise_ib : (raise c info s).ib = s.ib := rfl
@[simp] theorem raise_ob : (raise c info s).ob = s.ob := rfl
@[simp] theorem raise_caps : (raise c info s).caps = s.caps := rfl
@[simp] theorem raise_input : (raise c info s).input = s.input := rfl
@[simp] theorem raise_trace : (raise c info s).trace = s.trace ++ [⟨c.code, 0⟩] := rfl

end

/-! ## answerHalted -/

section
variable (s : State)

@[simp] theorem answerHalted_root : (answerHalted s).root = s.root := rfl
@[simp] theorem answerHalted_ncnt : (answerHalted s).ncnt = s.ncnt := rfl
@[simp] theorem answerHalted_sp : (answerHalted s).sp = s.sp := rfl
@[simp] theorem answerHalted_err : (answerHalted s).err = s.err := rfl
@[simp] theorem answerHalted_errinfo : (answerHalted s).errinfo = s.errinfo := rfl
@[simp] theorem answerHalted_halt : (answerHalted s).halt = s.halt := rfl
@[simp] theorem answerHalted_freq : (answerHalted s).freq = s.freq := rfl
@[simp] theorem answerHalted_node : (answerHalted s).node = s.node := rfl
@[simp] theorem answerHalted_code : (answerHalted s).code = s.code := rfl
@[simp] theorem answerHalted_stk : (answerHalted s).stk = s.stk := rfl
@[simp] theorem answerHalted_act : (answerHalted s).act = s.act := rfl
@[simp] theorem answerHalted_bq : (answerHalted s).bq = s.bq := rfl
@[simp] theorem answerHalted_ib : (answerHalted s).ib = s.ib := rfl
@[simp] theorem answerHalted_ob : (answerHalted s).ob = s.ob := rfl
@[simp] theorem answerHalted_caps : (answerHalted s).caps = s.caps := rfl
@[simp] theorem answerHalted_input : (answerHalted s).input = s.input := rfl
@[simp] theorem answerHalted_trace : (answerHalted s).trace = s.trace ++ [⟨0xFF, 0⟩] := rfl

end

/-! ## clear -/

section
variable (s : State)

@[simp] theorem clear_root : (clear s).root = Config.noNode := rfl
@[simp] theorem clear_ncnt : (clear s).ncnt = 0 := rfl
@[simp] theorem clear_sp : (clear s).sp = 0 := rfl
@[simp] theorem clear_err : (clear s).err = 0 := rfl
@[simp] theorem clear_errinfo : (clear s).errinfo = 0 := rfl
@[simp] theorem clear_halt : (clear s).halt = false := rfl
@[simp] theorem clear_freq : (clear s).freq = Vector.replicate 256 0 := rfl
@[simp] theorem clear_node : (clear s).node = [] := rfl
@[simp] theorem clear_code : (clear s).code = noCodes := rfl
@[simp] theorem clear_stk : (clear s).stk = [] := rfl
@[simp] theorem clear_act : (clear s).act = [] := rfl
@[simp] theorem clear_bq : (clear s).bq = [] := rfl
@[simp] theorem clear_ib : (clear s).ib = [] := rfl
@[simp] theorem clear_ob : (clear s).ob = [] := rfl
@[simp] theorem clear_caps : (clear s).caps = s.caps := rfl
@[simp] theorem clear_input : (clear s).input = s.input := rfl
@[simp] theorem clear_trace : (clear s).trace = s.trace := rfl

end

/-! ## withDeser -/

section
variable (s : State) (d : Deser)

@[simp] theorem withDeser_root : (withDeser s d).root = s.root := rfl
@[simp] theorem withDeser_ncnt : (withDeser s d).ncnt = s.ncnt := rfl
@[simp] theorem withDeser_sp : (withDeser s d).sp = BitVec.ofNat 10 d.stk.length := rfl
@[simp] theorem withDeser_err : (withDeser s d).err = s.err := rfl
@[simp] theorem withDeser_errinfo : (withDeser s d).errinfo = s.errinfo := rfl
@[simp] theorem withDeser_halt : (withDeser s d).halt = s.halt := rfl
@[simp] theorem withDeser_freq : (withDeser s d).freq = s.freq := rfl
@[simp] theorem withDeser_node : (withDeser s d).node = d.nodes := rfl
@[simp] theorem withDeser_code : (withDeser s d).code = s.code := rfl
@[simp] theorem withDeser_stk : (withDeser s d).stk = d.stk := rfl
@[simp] theorem withDeser_act : (withDeser s d).act = s.act := rfl
@[simp] theorem withDeser_bq : (withDeser s d).bq = d.bq := rfl
@[simp] theorem withDeser_ib : (withDeser s d).ib = s.ib := rfl
@[simp] theorem withDeser_ob : (withDeser s d).ob = s.ob := rfl
@[simp] theorem withDeser_caps : (withDeser s d).caps = s.caps := rfl
@[simp] theorem withDeser_input : (withDeser s d).input = s.input := rfl
@[simp] theorem withDeser_trace : (withDeser s d).trace = s.trace := rfl

end

/-! ## endTree -/

section
variable (s : State) (d : Deser) (root : Idx)

@[simp] theorem endTree_root : (endTree s d root).root = root := rfl
@[simp] theorem endTree_ncnt : (endTree s d root).ncnt = BitVec.ofNat 10 d.nodes.length := rfl
@[simp] theorem endTree_sp : (endTree s d root).sp = BitVec.ofNat 10 d.stk.length := rfl
@[simp] theorem endTree_err : (endTree s d root).err = s.err := rfl
@[simp] theorem endTree_errinfo : (endTree s d root).errinfo = s.errinfo := rfl
@[simp] theorem endTree_halt : (endTree s d root).halt = s.halt := rfl
@[simp] theorem endTree_freq : (endTree s d root).freq = s.freq := rfl
@[simp] theorem endTree_node : (endTree s d root).node = d.nodes := rfl
@[simp] theorem endTree_code : (endTree s d root).code = s.code := rfl
@[simp] theorem endTree_stk : (endTree s d root).stk = d.stk := rfl
@[simp] theorem endTree_act : (endTree s d root).act = s.act := rfl
@[simp] theorem endTree_bq : (endTree s d root).bq = d.bq := rfl
@[simp] theorem endTree_ib : (endTree s d root).ib = s.ib := rfl
@[simp] theorem endTree_ob : (endTree s d root).ob = s.ob := rfl
@[simp] theorem endTree_caps : (endTree s d root).caps = s.caps := rfl
@[simp] theorem endTree_input : (endTree s d root).input = s.input := rfl
@[simp] theorem endTree_trace : (endTree s d root).trace = s.trace := rfl

end

/-! ## The reset state -/

@[simp] theorem State.reset_root : State.reset.root = Config.noNode := rfl
@[simp] theorem State.reset_ncnt : State.reset.ncnt = 0 := rfl
@[simp] theorem State.reset_sp : State.reset.sp = 0 := rfl
@[simp] theorem State.reset_err : State.reset.err = 0 := rfl
@[simp] theorem State.reset_errinfo : State.reset.errinfo = 0 := rfl
@[simp] theorem State.reset_halt : State.reset.halt = false := rfl
@[simp] theorem State.reset_freq : State.reset.freq = Vector.replicate 256 0 := rfl
@[simp] theorem State.reset_node : State.reset.node = [] := rfl
@[simp] theorem State.reset_code : State.reset.code = noCodes := rfl
@[simp] theorem State.reset_stk : State.reset.stk = [] := rfl
@[simp] theorem State.reset_act : State.reset.act = [] := rfl
@[simp] theorem State.reset_bq : State.reset.bq = [] := rfl
@[simp] theorem State.reset_ib : State.reset.ib = [] := rfl
@[simp] theorem State.reset_ob : State.reset.ob = [] := rfl
@[simp] theorem State.reset_caps : State.reset.caps = Config.Caps.unbounded := rfl
@[simp] theorem State.reset_input : State.reset.input = [] := rfl
@[simp] theorem State.reset_trace : State.reset.trace = [] := rfl

end Sys2Proof.Machine
end

