-- ==== Sys2Proof/Laws/Ops.lean ====
section
/-! SUPPORT. What each shared operation can do, said once: the halted test, counts, tables, queues. -/

namespace Sys2Proof.Machine

/-! ## The halted test -/

theorem whileRunning_running {s : State} (body : State → Out) (h : s.halt = false) : whileRunning s body = body s := by
  simp [whileRunning, h]

theorem whileRunning_halted {s : State} (body : State → Out) (h : s.halt = true) :
    whileRunning s body = .next (answerHalted s) := by
  simp [whileRunning, h]

/-- A meaning under the halted test answers a next state in one of two ways. -/
theorem whileRunning_next {s t : State} {body : State → Out} (h : whileRunning s body = .next t) :
    (s.halt = true ∧ t = answerHalted s) ∨ (s.halt = false ∧ body s = .next t) := by
  unfold whileRunning at h
  split at h
  · next hh => exact .inl ⟨hh, by cases h; rfl⟩
  · next hh => exact .inr ⟨by simpa using hh, h⟩

/-! ## Counts -/

theorem countData_of_lt {n : Nat} (h : n < 2 ^ 64) : countData n = BitVec.ofNat 64 n := if_pos h

theorem countData_toNat {n : Nat} (h : n < 2 ^ 64) : (countData n).toNat = n := by
  rw [countData_of_lt h, BitVec.toNat_ofNat, Nat.mod_eq_of_lt h]

/-! ## Tables -/

section
variable {α : Type} (t : Table α) (i j : Byte) (x : α)

@[simp] theorem tableGet_tableSet_self : tableGet (tableSet t i x) i = x := by
  simp [tableGet, tableSet]

@[simp] theorem tableGet_tableSet_ne (h : j ≠ i) : tableGet (tableSet t i x) j = tableGet t j := by
  have : i.toNat ≠ j.toNat := fun e => h (BitVec.eq_of_toNat_eq e.symm)
  simp [tableGet, tableSet, this]

theorem tableGet_tableSet : tableGet (tableSet t i x) j = if j = i then x else tableGet t j := by
  split
  · next h => subst h; simp
  · next h => simp [h]

@[simp] theorem tableGet_replicate : tableGet (Vector.replicate 256 x) i = x := by
  simp [tableGet]

@[simp] theorem tableGet_noCodes : tableGet noCodes i = none := by
  simp [noCodes]

end

/-- Two tables with the same entries are equal. -/
theorem table_ext {α : Type} {t u : Table α} (h : ∀ i, tableGet t i = tableGet u i) : t = u := by
  apply Vector.ext
  intro k hk
  have := h (BitVec.ofNat 8 k)
  simpa [tableGet, Nat.mod_eq_of_lt hk] using this

/-! ## Queues -/

section
variable {α : Type}

@[simp] theorem fitting_none (n : Nat) (xs : List α) : fitting none n xs = xs := rfl

@[simp] theorem roomFor_none (n k : Nat) : roomFor none n k = true := rfl

theorem roomFor_some {c n k : Nat} : roomFor (some c) n k = true ↔ k ≤ c - n := by simp [roomFor]

/-- Pushes that all succeed add every element. -/
theorem fitting_of_room {cap : Option Nat} {n : Nat} {xs : List α} (h : roomFor cap n xs.length = true) :
    fitting cap n xs = xs := by
  cases cap with
  | none => rfl
  | some c => exact List.take_of_length_le (roomFor_some.1 h)

/-- Pushes that do not all succeed fill the queue up to its capacity. -/
theorem fitting_of_full {cap : Option Nat} {n : Nat} {xs : List α} (h : roomFor cap n xs.length = false) :
    ∃ c, cap = some c ∧ c - n < xs.length ∧ fitting cap n xs = xs.take (c - n) := by
  cases cap with
  | none => simp at h
  | some c =>
    refine ⟨c, rfl, ?_, rfl⟩
    simpa [roomFor] using h

/-- Pushes never take a queue past its capacity. -/
theorem length_add_fitting_le {cap : Option Nat} {n c : Nat} (xs : List α) (hc : cap = some c) (h : n ≤ c) :
    n + (fitting cap n xs).length ≤ c := by
  subst hc
  simp [fitting, List.length_take]
  omega

end

/-- Room for `k` more elements, in the terms of the capacity. -/
theorem roomFor_of_le {cap : Option Nat} {n k : Nat} (h : ∀ c, cap = some c → n + k ≤ c) : roomFor cap n k = true := by
  cases cap with
  | none => rfl
  | some c => exact roomFor_some.2 (by have := h c rfl; omega)

theorem roomFor_of_gt {cap : Option Nat} {n k c : Nat} (hc : cap = some c) (hn : n ≤ c) (h : c < n + k) :
    roomFor cap n k = false := by
  subst hc
  simp [roomFor]
  omega

theorem pushBits_fits {xs : Bits} {s : State} {done : State → State}
    (h : roomFor s.caps.bq s.bq.length xs.length = true) :
    pushBits xs s done = done { s with bq := s.bq ++ xs } := by
  simp [pushBits, h, fitting_of_room h]

theorem pushBits_full {xs : Bits} {s : State} {done : State → State} {c : Nat} (hc : s.caps.bq = some c)
    (hn : s.bq.length ≤ c) (h : c < s.bq.length + xs.length) :
    pushBits xs s done = raise .queueOverflow 0 { s with bq := (s.bq ++ xs).take c } := by
  have hr := roomFor_of_gt hc hn h
  have : (s.bq ++ xs).take c = s.bq ++ xs.take (c - s.bq.length) := by
    rw [List.take_append, List.take_of_length_le hn]
  simp only [pushBits, hr, this]
  simp [fitting, hc]

/-- Pushing bits either appends all of them and is done, or fills BQ and raises QueueOverflow(0). -/
theorem pushBits_cases (xs : Bits) (s : State) (done : State → State) :
    (roomFor s.caps.bq s.bq.length xs.length = true ∧ pushBits xs s done = done { s with bq := s.bq ++ xs }) ∨
    (roomFor s.caps.bq s.bq.length xs.length = false ∧ pushBits xs s done =
      raise .queueOverflow 0 { s with bq := s.bq ++ fitting s.caps.bq s.bq.length xs }) := by
  cases h : roomFor s.caps.bq s.bq.length xs.length
  · exact .inr ⟨rfl, by simp [pushBits, h]⟩
  · exact .inl ⟨rfl, pushBits_fits h⟩

end Sys2Proof.Machine
end

