-- ==== Sys2Proof/Laws/Codebook.lean ====
section
/-! SUPPORT. What the codebook generator's walk and the symbol decoder's walk can do, said once
(42_codebook_generator.md R111, 45_symbol_decoder.md R142). -/

namespace Sys2Proof.Machine

/-! ## Paths -/

theorem CodePath.mem {t : Tree} {p : Bits} {v : Byte} (h : CodePath t p v) : v ∈ t.symbols := by
  induction h with
  | here => simp [Tree.symbols]
  | left _ ih => simp [Tree.symbols, ih]
  | right _ ih => simp [Tree.symbols, ih]

/-- Every leaf's value has a path. -/
theorem CodePath.exists_of_mem {t : Tree} {v : Byte} (h : v ∈ t.symbols) : ∃ p, CodePath t p v := by
  induction t with
  | leaf u => simp [Tree.symbols] at h; subst h; exact ⟨[], .here⟩
  | node l r ihl ihr =>
    rw [Tree.symbols, List.mem_append] at h
    rcases h with h | h
    · obtain ⟨p, hp⟩ := ihl h; exact ⟨_, .left hp⟩
    · obtain ⟨p, hp⟩ := ihr h; exact ⟨_, .right hp⟩

/-- No path runs through a leaf: of two paths of which one begins the other, both are the same. -/
theorem CodePath.prefix_free {t : Tree} {p q : Bits} {u v : Byte} (hp : CodePath t p u) (hq : CodePath t q v)
    (h : p <+: q) : p = q ∧ u = v := by
  induction hp generalizing q with
  | here => cases hq; exact ⟨rfl, rfl⟩
  | left _ ih =>
    cases hq with
    | left hq => rw [List.cons_prefix_cons] at h; obtain ⟨e, f⟩ := ih hq h.2; exact ⟨by rw [e], f⟩
    | right hq => simp at h
  | right _ ih =>
    cases hq with
    | left hq => simp at h
    | right hq => rw [List.cons_prefix_cons] at h; obtain ⟨e, f⟩ := ih hq h.2; exact ⟨by rw [e], f⟩

/-! ## The walk of GENCB -/

/-- When the walk from a node ends, no leaf under it had a code before, none occurs twice, and each has as its code the
path so far followed by its own path; every other entry is as before. -/
theorem walkCodes_done {t : Tree} {p : Bits} {code code' : Table (Option Bits)} (h : walkCodes t p code = .done code') :
    t.symbols.Nodup ∧ (∀ v ∈ t.symbols, tableGet code v = none) ∧
      (∀ v, v ∉ t.symbols → tableGet code' v = tableGet code v) ∧
      ∀ q v, CodePath t q v → tableGet code' v = some (p ++ q) := by
  induction t generalizing p code code' with
  | leaf u =>
    simp only [walkCodes] at h
    split at h
    · cases h
    · next hn =>
      cases h
      refine ⟨by simp [Tree.symbols], ?_, ?_, ?_⟩
      · intro v hv; simp [Tree.symbols] at hv; subst hv; simpa using hn
      · intro v hv; simp [Tree.symbols] at hv; simp [hv]
      · intro q v hq; cases hq; simp
  | node l r ihl ihr =>
    simp only [walkCodes] at h
    split at h
    · cases h
    · next mid hl =>
      obtain ⟨l1, l2, l3, l4⟩ := ihl hl
      obtain ⟨r1, r2, r3, r4⟩ := ihr h
      have disj : ∀ v ∈ l.symbols, v ∉ r.symbols := by
        intro v hv hr
        obtain ⟨q, hq⟩ := CodePath.exists_of_mem hv
        have := r2 v hr
        rw [l4 q v hq] at this
        cases this
      refine ⟨?_, ?_, ?_, ?_⟩
      · rw [Tree.symbols, List.nodup_append]
        exact ⟨l1, r1, fun a ha b hb e => disj a ha (e ▸ hb)⟩
      · intro v hv
        rw [Tree.symbols, List.mem_append] at hv
        by_cases hvl : v ∈ l.symbols
        · exact l2 v hvl
        · rw [← l3 v hvl]; exact r2 v (hv.resolve_left hvl)
      · intro v hv
        rw [Tree.symbols, List.mem_append, not_or] at hv
        rw [r3 v hv.2, l3 v hv.1]
      · intro q v hq
        cases hq with
        | left hq => rw [r3 v (disj v hq.mem), l4 _ v hq]; simp
        | right hq => rw [r4 _ v hq]; simp

/-- The walk stops only at a leaf whose value already has a code. -/
theorem walkCodes_duplicate {t : Tree} {p : Bits} {code code' : Table (Option Bits)} {v : Byte}
    (h : walkCodes t p code = .duplicate v code') :
    ∃ before after, t.symbols = before ++ v :: after ∧ before.Nodup ∧ (∀ u ∈ before, tableGet code u = none) ∧
      (v ∈ before ∨ (tableGet code v).isSome = true) := by
  induction t generalizing p code code' with
  | leaf u =>
    simp only [walkCodes] at h
    split at h
    · next hs => cases h; exact ⟨[], [], rfl, by simp, by simp, .inr hs⟩
    · cases h
  | node l r ihl ihr =>
    simp only [walkCodes] at h
    split at h
    · next sym mid hl =>
      cases h
      obtain ⟨b, a, h1, h2, h3, h4⟩ := ihl hl
      exact ⟨b, a ++ r.symbols, by simp [Tree.symbols, h1], h2, h3, h4⟩
    · next mid hl =>
      obtain ⟨l1, l2, l3, l4⟩ := walkCodes_done hl
      obtain ⟨b, a, h1, h2, h3, h4⟩ := ihr h
      have none_of : ∀ u ∈ b, u ∉ l.symbols := by
        intro u hu hul
        obtain ⟨q, hq⟩ := CodePath.exists_of_mem hul
        have := h3 u hu
        rw [l4 q u hq] at this
        cases this
      refine ⟨l.symbols ++ b, a, by simp [Tree.symbols, h1], ?_, ?_, ?_⟩
      · rw [List.nodup_append]
        exact ⟨l1, h2, fun x hx y hy e => none_of y hy (e ▸ hx)⟩
      · intro u hu
        rw [List.mem_append] at hu
        by_cases hul : u ∈ l.symbols
        · exact l2 u hul
        · rw [← l3 u hul]; exact h3 u (hu.resolve_left hul)
      · by_cases hvl : v ∈ l.symbols
        · exact .inl (by simp [hvl])
        · rw [l3 v hvl] at h4
          exact h4.imp (fun h => by simp [h]) id

/-- When GENCB's walk of a whole tree ends, no value occurs twice and the codebook is the tree's (R111, R113). -/
theorem treeCodes_done {t : Tree} {code : Table (Option Bits)} (h : treeCodes t = .done code) :
    t.symbols.Nodup ∧ CodebookOf t code ∧ ∀ v, (tableGet code v).isSome ↔ v ∈ t.symbols := by
  cases t with
  | leaf u => 
    simp only [treeCodes] at h; cases h
    refine ⟨by simp [Tree.symbols], ?_, ?_⟩
    · intro v p; simp only [tableGet_tableSet, IsCode]; split <;> simp_all; exact eq_comm
    · intro v; simp only [tableGet_tableSet, Tree.symbols]; split <;> simp_all
  | node l r =>
    obtain ⟨h1,h2,h3,h4⟩ := walkCodes_done h
    refine ⟨h1, ?_, ?_⟩
    · intro v p
      simp only [IsCode]
      constructor
      · intro hp
        by_cases hv : v ∈ (Tree.node l r).symbols
        · obtain ⟨q, hq⟩ := CodePath.exists_of_mem hv
          rw [h4 q v hq] at hp; simp at hp; subst hp; exact hq
        · rw [h3 v hv] at hp; simp at hp
      · intro hp; rw [h4 p v hp]; simp
    · intro v
      by_cases hv : v ∈ (Tree.node l r).symbols
      · obtain ⟨q, hq⟩ := CodePath.exists_of_mem hv
        simp [h4 q v hq, hv]
      · simp [h3 v hv, hv]

/-- When GENCB's walk of a whole tree stops, it stops at the first leaf whose value came before (R111, R115). -/
theorem treeCodes_duplicate {t : Tree} {sym : Byte} {code : Table (Option Bits)}
    (h : treeCodes t = .duplicate sym code) :
    ∃ before after, t.symbols = before ++ sym :: after ∧ before.Nodup ∧ sym ∈ before := by
  cases t with
  | leaf u => simp [treeCodes] at h
  | node l r => 
    obtain ⟨b,a,h1,h2,h3,h4⟩ := walkCodes_duplicate h
    exact ⟨b,a,h1,h2,by simpa using h4⟩

/-! ## The walk of DECS -/

/-- On a node where a tree stands, the walk meets no entry that holds no value. -/
theorem descend_ne_broken {nodes : List Node} {i : Idx} {t : Tree} (h : TreeAt nodes i t) (bits : Bits) :
    descend nodes bits i ≠ .broken := by
  induction h generalizing bits with
  | leaf h => cases bits <;> simp [descend, h]
  | node h _ _ ihl ihr =>
    cases bits with
    | nil => simp [descend, h]
    | cons b rest => cases b <;> simp [descend, h, ihl, ihr]

/-- The walk on bits that begin with a leaf's path ends at that leaf, with the bits after the path. -/
theorem descend_path {nodes : List Node} {i : Idx} {t : Tree} (h : TreeAt nodes i t) {p : Bits} {v : Byte}
    (hp : CodePath t p v) (rest : Bits) : descend nodes (p ++ rest) i = .symbol v rest := by
  induction h generalizing p with
  | leaf h => cases hp; cases rest <;> simp [descend, h]
  | node h _ _ ihl ihr =>
    cases hp with
    | left hp => simp [descend, h, ihl hp]
    | right hp => simp [descend, h, ihr hp]

/-- The walk on bits that end inside a leaf's path runs out of bits. -/
theorem descend_short {nodes : List Node} {i : Idx} {t : Tree} (h : TreeAt nodes i t) {p missing : Bits} {v : Byte}
    (hp : CodePath t (p ++ missing) v) (hm : missing ≠ []) : descend nodes p i = .truncated := by
  induction h generalizing p with
  | leaf h => cases hc : p ++ missing <;> rw [hc] at hp <;> cases hp; simp [hm] at hc
  | node h _ _ ihl ihr =>
    cases p with
    | nil => simp [descend, h]
    | cons b p =>
      rw [List.cons_append] at hp
      cases hp with
      | left hp => simp [descend, h, ihl hp]
      | right hp => simp [descend, h, ihr hp]

end Sys2Proof.Machine
end

