-- ==== Sys2Proof/Laws/Decode.lean ====
section
/-! SUPPORT. The fields of a command word as numbers (30_encoding.md R60, R67), and the two directions between a word
and its fields. -/

namespace Sys2Proof

theorem wordOf_toNat (f : CmdFields) :
    (wordOf f).toNat = f.opcode.toNat * 2 ^ 40 + f.arg8.toNat * 2 ^ 32 + f.arg32.toNat := by
  have h8 := f.arg8.isLt
  have h32 := f.arg32.isLt
  have hA : f.arg8.toNat < 2 ^ 8 := h8
  simp only [wordOf, BitVec.toNat_append]
  rw [← Nat.shiftLeft_add_eq_or_of_lt hA, ← Nat.shiftLeft_add_eq_or_of_lt h32]
  simp only [Nat.shiftLeft_eq]
  omega

theorem fieldsOf_opcode_toNat (w : CmdWord) : (fieldsOf w).opcode.toNat = w.toNat / 2 ^ 40 := by
  have := w.isLt
  simp [fieldsOf, BitVec.extractLsb'_toNat, Nat.shiftRight_eq_div_pow]
  omega

theorem fieldsOf_arg8_toNat (w : CmdWord) : (fieldsOf w).arg8.toNat = w.toNat / 2 ^ 32 % 2 ^ 8 := by
  simp [fieldsOf, BitVec.extractLsb'_toNat, Nat.shiftRight_eq_div_pow]

theorem fieldsOf_arg32_toNat (w : CmdWord) : (fieldsOf w).arg32.toNat = w.toNat % 2 ^ 32 := by
  simp [fieldsOf, BitVec.extractLsb'_toNat]

@[simp] theorem fieldsOf_wordOf (f : CmdFields) : fieldsOf (wordOf f) = f := by
  obtain ⟨o, a, c⟩ := f
  have ho := o.isLt
  have ha := a.isLt
  have hc := c.isLt
  have hw := wordOf_toNat ⟨o, a, c⟩
  simp only at hw
  have h1 : (fieldsOf (wordOf ⟨o, a, c⟩)).opcode = o := by
    apply BitVec.eq_of_toNat_eq; rw [fieldsOf_opcode_toNat, hw]; omega
  have h2 : (fieldsOf (wordOf ⟨o, a, c⟩)).arg8 = a := by
    apply BitVec.eq_of_toNat_eq; rw [fieldsOf_arg8_toNat, hw]; omega
  have h3 : (fieldsOf (wordOf ⟨o, a, c⟩)).arg32 = c := by
    apply BitVec.eq_of_toNat_eq; rw [fieldsOf_arg32_toNat, hw]; omega
  cases hf : fieldsOf (wordOf ⟨o, a, c⟩)
  rw [hf] at h1 h2 h3
  simp only at h1 h2 h3
  rw [h1, h2, h3]

@[simp] theorem wordOf_fieldsOf (w : CmdWord) : wordOf (fieldsOf w) = w := by
  apply BitVec.eq_of_toNat_eq
  rw [wordOf_toNat, fieldsOf_opcode_toNat, fieldsOf_arg8_toNat, fieldsOf_arg32_toNat]
  omega

/-- What the decoder answers, in the terms of the row the opcode selects. -/
theorem decode_ok_iff {w : CmdWord} {i : Instr} :
    decode w = .ok i ↔ ∃ r, rowOf (fieldsOf w).opcode = some r ∧
      (fieldsOf w).unusedZero r.usesArg8 r.usesArg32 = true ∧ r.build (fieldsOf w).arg8 (fieldsOf w).arg32 = i := by
  unfold decode
  cases h : rowOf (fieldsOf w).opcode with
  | none => simp
  | some r =>
    by_cases hz : (fieldsOf w).unusedZero r.usesArg8 r.usesArg32 = true <;> simp [hz]

end Sys2Proof
end

