-- ==== Sys2Proof/Laws/Deserializer.lean ====
section
/-! SUPPORT. What the deserializer can do, said once (43_tree_codec.md R125 to R127). -/

namespace Sys2Proof.Machine

/-- What the deserializer keeps between two tokens (R125, R126). -/
structure DInv (d : Deser) : Prop where
  forest : Forest d.nodes (d.stk.map BitVec.toNat)
  bound : d.nodes.length ≤ 511
  top : ∀ x xs, d.stk = x :: xs → x.toNat + 1 = d.nodes.length

/-- T.LEAF keeps it, allocates a node and consumes bits only. -/
theorem tokenLeaf_inv {d d'} (h : DInv d) (e : tokenLeaf d = .more d') : DInv d' ∧ d'.nodes ≠ [] ∧ d'.bq.length ≤ d.bq.length := by
  unfold tokenLeaf at e
  split at e
  · next hb =>
    split at e
    · cases e
    · next hl =>
      unfold Config.maxNode at hl
      cases e
      refine ⟨⟨?_, ?_, ?_⟩, by simp, by simp [hb]; omega⟩
      · simp only [List.map_cons, Deser.nextIdx]; rw [toNat_ofNat_idx (by omega)]; exact h.forest.leaf _ _
      · simp; omega
      · intro x xs e; cases e; simp [Deser.nextIdx]; omega
  · cases e

/-- T.LEAF never ends the tree. -/
theorem tokenLeaf_stop {d d' r} (e : tokenLeaf d = .stop d' r) : False := by
  unfold tokenLeaf at e
  split at e <;> [split at e; skip] <;> cases e

/-- T.ZERO keeps it when another token follows. -/
theorem tokenZero_inv {d d'} (h : DInv d) (e : tokenZero d = .more d') : DInv d' ∧ d'.bq = d.bq := by
  unfold tokenZero at e
  split at e
  · cases e
  · cases e
  · next r l rest hb =>
    split at e
    · cases e
    · next hl =>
      unfold Config.maxNode at hl
      cases e
      have hf := h.forest; rw [hb] at hf
      refine ⟨⟨?_, ?_, ?_⟩, rfl⟩
      · simp only [List.map_cons, Deser.nextIdx]; rw [toNat_ofNat_idx (by omega)]; exact Forest.merge hf _
      · simp; omega
      · intro x xs e; cases e; simp [Deser.nextIdx]; omega

/-- It holds before the first token. -/
theorem DInv0 (bq) : DInv ⟨bq, [], []⟩ := ⟨⟨by simp, by simp [childIndices]⟩, by simp, by simp⟩

/-- When the token loop ends with a tree, the stack is empty, no bit has been added, and the nodes are none or form one tree. -/
theorem destLoop_tree {n k d d' root k'} (h : DInv d) (e : destLoop n k d = .tree d' root k') :
   d'.stk = [] ∧ d'.bq.length ≤ d.bq.length ∧ ((d'.nodes = [] ∧ root = Config.noNode) ∨ (Forest d'.nodes [root.toNat] ∧ d'.nodes.length ≤ 511 ∧ root.toNat + 1 = d'.nodes.length)) := by
  induction n generalizing k d with
  | zero => simp [destLoop] at e
  | succ n ih =>
    simp only [destLoop] at e
    split at e
    · cases e
    · next rest hb =>
      have h' : DInv {d with bq := rest} := ⟨h.forest, h.bound, h.top⟩
      split at e
      · next hm =>
        obtain ⟨i1, i2, i3⟩ := tokenLeaf_inv h' hm
        obtain ⟨r1, r2, r3⟩ := ih i1 e
        refine ⟨r1, ?_, r3⟩; simp [hb] at *; omega
      · next hm => exact (tokenLeaf_stop hm).elim
      · cases e
    · next rest hb =>
      have h' : DInv {d with bq := rest} := ⟨h.forest, h.bound, h.top⟩
      split at e
      · next hm =>
        obtain ⟨i1, i2⟩ := tokenZero_inv h' hm
        obtain ⟨r1, r2, r3⟩ := ih i1 e
        refine ⟨r1, ?_, r3⟩; simp [hb, i2] at *; omega
      · next d2 r2 hm =>
        cases e
        unfold tokenZero at hm
        split at hm
        · next hs => cases hm; simp at hs; exact ⟨hs, by simp [hb], .inl ⟨rfl, rfl⟩⟩
        · next r hs => 
          cases hm; simp at hs
          refine ⟨rfl, by simp [hb], .inr ⟨?_, h.bound, h.top _ _ hs⟩⟩
          have := h.forest; rw [hs] at this; simpa using this
        · split at hm <;> cases hm
      · cases e

/-- When the token loop ends with a fault, it is one of the two of R127, and no bit has been added. -/
theorem destLoop_raised {n k d c d'} (h : DInv d) (e : destLoop n k d = .raised c d') :
   d'.bq.length ≤ d.bq.length ∧ (c = .truncatedTree ∨ c = .treeOverflow) := by
  induction n generalizing k d with
  | zero => simp [destLoop] at e; simp [e]
  | succ n ih =>
    simp only [destLoop] at e
    split at e
    · cases e; simp
    · next rest hb =>
      have h' : DInv {d with bq := rest} := ⟨h.forest, h.bound, h.top⟩
      split at e
      · next hm =>
        obtain ⟨i1, i2, i3⟩ := tokenLeaf_inv h' hm
        obtain ⟨r1, r2⟩ := ih i1 e
        refine ⟨?_, r2⟩; simp [hb] at *; omega
      · cases e
      · next hm => cases e; unfold tokenLeaf at hm; (split at hm <;> [split at hm; skip]) <;> cases hm <;> simp [hb]
    · next rest hb =>
      have h' : DInv {d with bq := rest} := ⟨h.forest, h.bound, h.top⟩
      split at e
      · next hm =>
        obtain ⟨i1, i2⟩ := tokenZero_inv h' hm
        obtain ⟨r1, r2⟩ := ih i1 e
        refine ⟨?_, r2⟩; simp [hb, i2] at *; omega
      · cases e
      · next hm => cases e; unfold tokenZero at hm; split at hm <;> [skip; skip; split at hm] <;> cases hm <;> simp [hb]

/-! ## On the tokens of a whole tree -/

/-- The number of nodes of a tree. -/
def Tree.size (t : Tree) : Nat := 2 * t.leafCount - 1

theorem Tree.leafCount_pos (t : Tree) : 0 < t.leafCount := by induction t <;> simp [Tree.leafCount] <;> omega

theorem Tree.size_leaf (v : Byte) : Tree.size (.leaf v) = 1 := rfl

theorem Tree.size_node (l r : Tree) : Tree.size (.node l r) = Tree.size l + Tree.size r + 1 := by
  have := Tree.leafCount_pos l; have := Tree.leafCount_pos r
  simp [Tree.size, Tree.leafCount]; omega

/-- The nodes the deserializer allocates for a tree, in post-order, from index `b` on. -/
def postNodes : Tree → Nat → List Node
  | .leaf v, _ => [.leaf v 0]
  | .node l r, b => postNodes l b ++ postNodes r (b + Tree.size l) ++ [.internal (BitVec.ofNat 9 (b + Tree.size l - 1)) (BitVec.ofNat 9 (b + Tree.size l + Tree.size r - 1)) 0]

theorem postNodes_length (t : Tree) (b : Nat) : (postNodes t b).length = Tree.size t := by
  induction t generalizing b with
  | leaf v => rfl
  | node l r ihl ihr => simp [postNodes, ihl, ihr, Tree.size_node]; omega

/-- The token loop on the tokens of a whole tree: its nodes are allocated and its root is on the stack. -/
theorem destLoop_postOrder (t : Tree) (n k : Nat) (rest : Bits) (nodes : List Node) (stk : List Idx)
   (hb : nodes.length + Tree.size t ≤ 511) :
   destLoop (Tree.size t + n) k ⟨postOrder t ++ rest, nodes, stk⟩ =
    destLoop n (k + (postOrder t).length) ⟨rest, nodes ++ postNodes t nodes.length, BitVec.ofNat 9 (nodes.length + Tree.size t - 1) :: stk⟩ := by
  induction t generalizing n k rest nodes stk with
  | leaf v =>
    have := byteOfBits_byteBits v
    simp [Tree.size_leaf, Nat.add_comm 1 n, destLoop, postOrder, byteBits, tokenLeaf, show ¬ (Config.maxNode ≤ nodes.length) by simp [Tree.size_leaf] at hb; unfold Config.maxNode; omega, postNodes, Deser.nextIdx]
    simp [BitVec.getLsbD_eq_getElem] at this; rw [this]
  | node l r ihl ihr =>
    have hl := Tree.leafCount_pos l; have hr := Tree.leafCount_pos r
    have sl : 0 < Tree.size l := by unfold Tree.size; omega
    have sr : 0 < Tree.size r := by unfold Tree.size; omega
    rw [Tree.size_node] at hb ⊢
    rw [show Tree.size l + Tree.size r + 1 + n = Tree.size l + (Tree.size r + (1 + n)) by omega]
    simp only [postOrder, List.append_assoc]
    rw [ihl _ _ _ _ _ (by omega), ihr _ _ _ _ _ (by simp [postNodes_length]; omega)]
    rw [Nat.add_comm 1 n]
    simp [destLoop, tokenZero, postNodes_length, show ¬ (Config.maxNode ≤ nodes.length + (Tree.size l + Tree.size r)) by unfold Config.maxNode; omega, Deser.nextIdx, postNodes]
    congr 1
    · omega

/-! ## The tokens of a tree as bits -/

/-- Each token of a tree's post-order allocates one of its nodes. -/
theorem Tree.tokens_length (t : Tree) : t.tokens.length = t.size := by
  induction t with
  | leaf v => rfl
  | node l r ihl ihr => simp [Tree.tokens, ihl, ihr, Tree.size_node]; omega

/-- The tokens' bits are the bits SERT pushes before the terminator. -/
theorem Tree.tokens_flatMap (t : Tree) : t.tokens.flatMap tokenBits = postOrder t := by
  induction t with
  | leaf v => simp [Tree.tokens, tokenBits, encode, postOrder]
  | node l r ihl ihr => simp [Tree.tokens, postOrder, ihl, ihr, tokenBits, encode]

theorem serialized_eq (t : Tree) : serialized t = postOrder t ++ [false] := by
  simp [serialized, Tree.tokens_flatMap, tokenBits, encode]

/-- As many tokens as the tree has are all of them. -/
theorem firstTokens_of_size_le {n : Nat} {t : Tree} (h : t.size ≤ n) : firstTokens n t = postOrder t := by
  rw [firstTokens, List.take_of_length_le (by rw [Tree.tokens_length]; exact h), Tree.tokens_flatMap]

/-- The first tokens of a node are those of its left subtree, then those of its right one, then its own `0`. -/
theorem firstTokens_node (n : Nat) (l r : Tree) :
    firstTokens n (.node l r) =
      firstTokens n l ++ firstTokens (n - l.size) r ++ (if l.size + r.size < n then [false] else []) := by
  simp only [firstTokens, Tree.tokens, List.take_append, List.flatMap_append, Tree.tokens_length, List.length_append]
  congr 1
  split
  · rw [List.take_of_length_le (by simp; omega)]
    rfl
  · rw [show n - (l.size + r.size) = 0 by omega]
    rfl

/-- The first tokens are the beginning of the tree bits. -/
theorem firstTokens_append (n : Nat) (t : Tree) :
    firstTokens n t ++ ((t.tokens.drop n).flatMap tokenBits ++ [false]) = serialized t := by
  rw [serialized_eq, ← Tree.tokens_flatMap, firstTokens, ← List.append_assoc, ← List.flatMap_append,
    List.take_append_drop]

end Sys2Proof.Machine
end

