-- ==== Sys2Proof/Laws/Exec.lean ====
section
/-! SUPPORT. What each instruction can do, said once: if it answers a next state, then the block was halted and only
answered so, or one of the listed cases of its rule holds. -/

namespace Sys2Proof.Machine

section
variable {s t : State}

theorem execNop_next (h : execNop s = .next t) :
    (s.halt = true ∧ t = answerHalted s) ∨ (s.halt = false ∧ t = respond 0 s) := by
  rcases whileRunning_next h with h | ⟨hr, h⟩
  · exact .inl h
  · cases h; exact .inr ⟨hr, rfl⟩

theorem execClr_next (h : execClr s = .next t) : t = respond 0 (clear s) := by
  cases h; rfl

theorem execLdf_next {sym : Byte} {count : Weight} (h : execLdf sym count s = .next t) :
    (s.halt = true ∧ t = answerHalted s) ∨
    (s.halt = false ∧ t = respond 0 { s with freq := tableSet s.freq sym count }) := by
  rcases whileRunning_next h with h | ⟨hr, h⟩
  · exact .inl h
  · cases h; exact .inr ⟨hr, rfl⟩

theorem execRdcsr_next {n : Byte} (h : execRdcsr n s = .next t) :
    (s.halt = true ∧ 3 < n.toNat ∧ t = answerHalted s) ∨
    (∃ d, (s.halt = true → n.toNat ≤ 3) ∧ csr s n = some d ∧ t = respond d s) ∨
    (s.halt = false ∧ csr s n = none ∧ t = raise .illegalCommand 3 s) := by
  unfold execRdcsr at h
  split at h
  · next hh =>
    simp at hh
    cases h; exact .inl ⟨hh.1, hh.2, rfl⟩
  · next hh =>
    have hle : s.halt = true → n.toNat ≤ 3 := by
      intro hs
      simpa [hs] using hh
    split at h
    · next hc =>
      cases h
      refine .inr (.inr ⟨?_, hc, rfl⟩)
      cases hs : s.halt
      · rfl
      · have hn := hle hs
        have : n.toNat = 0 ∨ n.toNat = 1 ∨ n.toNat = 2 ∨ n.toNat = 3 := by omega
        rcases this with e | e | e | e <;> simp [csr, e] at hc
    · next d hc => cases h; exact .inr (.inl ⟨d, hle, hc, rfl⟩)

theorem execPutb_next {byte : Byte} (h : execPutb byte s = .next t) :
    (s.halt = true ∧ t = answerHalted s) ∨
    (s.halt = false ∧ roomFor s.caps.ib s.ib.length 1 = true ∧ t = respond 0 { s with ib := s.ib ++ [byte] }) ∨
    (s.halt = false ∧ roomFor s.caps.ib s.ib.length 1 = false ∧ t = raise .queueOverflow 1 s) := by
  rcases whileRunning_next h with h | ⟨hr, h⟩
  · exact .inl h
  · split at h
    · next hroom => cases h; exact .inr (.inl ⟨hr, hroom, rfl⟩)
    · next hroom => cases h; exact .inr (.inr ⟨hr, by simpa using hroom, rfl⟩)

theorem execGetb_next (h : execGetb s = .next t) :
    (s.halt = true ∧ t = answerHalted s) ∨
    (s.halt = false ∧ s.ob = [] ∧ t = raise .queueUnderflow 0 s) ∨
    (s.halt = false ∧ ∃ v rest, s.ob = v :: rest ∧ t = respond (v.setWidth 64) { s with ob := rest }) := by
  rcases whileRunning_next h with h | ⟨hr, h⟩
  · exact .inl h
  · split at h
    · next ho => cases h; exact .inr (.inl ⟨hr, ho, rfl⟩)
    · next v rest ho => cases h; exact .inr (.inr ⟨hr, v, rest, ho, rfl⟩)

theorem execBuild_next (h : execBuild s = .next t) :
    (s.halt = true ∧ t = answerHalted s) ∨
    (s.halt = false ∧ presentSymbols s.freq = [] ∧ t = raise .emptyAlphabet 0 s) ∨
    (s.halt = false ∧ presentSymbols s.freq ≠ [] ∧ ∃ b, buildTree s.freq = .overflow b ∧
      t = raise .weightOverflow 0 { s with code := noCodes, node := b.nodes, act := b.live.map Live.idx }) ∨
    (s.halt = false ∧ presentSymbols s.freq ≠ [] ∧ ∃ b, buildTree s.freq = .tree b ∧
      t = respond (countData b.nodes.length) { s with
        code := noCodes, node := b.nodes, act := b.live.map Live.idx,
        root := BitVec.ofNat 9 (b.nodes.length - 1), ncnt := BitVec.ofNat 10 b.nodes.length }) := by
  rcases whileRunning_next h with h | ⟨hr, h⟩
  · exact .inl h
  · split at h
    · next he => cases h; exact .inr (.inl ⟨hr, by simpa using he, rfl⟩)
    · next he =>
      have hne : presentSymbols s.freq ≠ [] := by simpa using he
      split at h
      · next b hb => cases h; exact .inr (.inr (.inl ⟨hr, hne, b, hb, rfl⟩))
      · next b hb => cases h; exact .inr (.inr (.inr ⟨hr, hne, b, hb, rfl⟩))

theorem execGencb_next (h : execGencb s = .next t) :
    (s.halt = true ∧ t = answerHalted s) ∨
    (s.halt = false ∧ s.root = Config.noNode ∧ t = respond 0 { s with code := noCodes }) ∨
    (s.halt = false ∧ s.root ≠ Config.noNode ∧ ∃ u, currentTree s = some u ∧
      ((∃ code, treeCodes u = .done code ∧ t = respond (countData u.leafCount) { s with code := code }) ∨
       (∃ sym code, treeCodes u = .duplicate sym code ∧
          t = raise .duplicateLeaf (sym.setWidth 32) { s with code := code }))) := by
  rcases whileRunning_next h with h | ⟨hr, h⟩
  · exact .inl h
  · split at h
    · next he => cases h; exact .inr (.inl ⟨hr, he, rfl⟩)
    · next he =>
      split at h
      · cases h
      · next u hu =>
        refine .inr (.inr ⟨hr, he, u, hu, ?_⟩)
        split at h
        · next code hc => cases h; exact .inl ⟨code, hc, rfl⟩
        · next sym code hc => cases h; exact .inr ⟨sym, code, hc, rfl⟩

/-- The bits SERT pushes: the terminator alone, or the tree bits of the current tree. -/
theorem execSert_next (h : execSert s = .next t) :
    (s.halt = true ∧ t = answerHalted s) ∨
    (s.halt = false ∧ ∃ bits, t = pushBits bits s (respond (countData bits.length)) ∧
      ((s.root = Config.noNode ∧ bits = [false]) ∨
       (s.root ≠ Config.noNode ∧ ∃ u, currentTree s = some u ∧ bits = treeBits u))) := by
  rcases whileRunning_next h with h | ⟨hr, h⟩
  · exact .inl h
  · split at h
    · next he => cases h; exact .inr ⟨hr, [false], rfl, .inl ⟨he, rfl⟩⟩
    · next he =>
      split at h
      · cases h
      · next u hu => cases h; exact .inr ⟨hr, _, rfl, .inr ⟨he, u, hu, rfl⟩⟩

theorem execDest_next (h : execDest s = .next t) :
    (s.halt = true ∧ t = answerHalted s) ∨
    (s.halt = false ∧ ∃ d root k, destLoop (s.bq.length + 1) 0 ⟨s.bq, [], []⟩ = .tree d root k ∧
      t = respond (countData k)
        (endTree { s with code := noCodes, root := Config.noNode, ncnt := 0 } d root)) ∨
    (s.halt = false ∧ ∃ c d, destLoop (s.bq.length + 1) 0 ⟨s.bq, [], []⟩ = .raised c d ∧
      t = raise c 0 (withDeser { s with code := noCodes, root := Config.noNode, ncnt := 0 } d)) := by
  rcases whileRunning_next h with h | ⟨hr, h⟩
  · exact .inl h
  · simp only at h
    split at h
    · next d root k hd => cases h; exact .inr (.inl ⟨hr, d, root, k, hd, rfl⟩)
    · next c d hd => cases h; exact .inr (.inr ⟨hr, c, d, hd, rfl⟩)

theorem execEncs_next {sym : Byte} (h : execEncs sym s = .next t) :
    (s.halt = true ∧ t = answerHalted s) ∨
    (s.halt = false ∧ tableGet s.code sym = none ∧ t = raise .codebookMiss (sym.setWidth 32) s) ∨
    (s.halt = false ∧ ∃ p, tableGet s.code sym = some p ∧ t = pushBits p s (respond (countData p.length))) := by
  rcases whileRunning_next h with h | ⟨hr, h⟩
  · exact .inl h
  · split at h
    · next hc => cases h; exact .inr (.inl ⟨hr, hc, rfl⟩)
    · next p hc => cases h; exact .inr (.inr ⟨hr, p, hc, rfl⟩)

theorem decodeSingle_cases (v : Byte) (s : State) :
    (s.bq = [] ∧ decodeSingle v s = raise .truncatedPayload 0 s) ∨
    (∃ rest, s.bq = true :: rest ∧ decodeSingle v s = raise .invalidCodeBit 0 { s with bq := rest }) ∨
    (∃ rest, s.bq = false :: rest ∧ decodeSingle v s = respond (v.setWidth 64) { s with bq := rest }) := by
  cases hb : s.bq with
  | nil => exact .inl ⟨rfl, by simp [decodeSingle, hb]⟩
  | cons b rest => cases b <;> simp [decodeSingle, hb]

theorem execDecs_next (h : execDecs s = .next t) :
    (s.halt = true ∧ t = answerHalted s) ∨
    (s.halt = false ∧ s.root = Config.noNode ∧ t = raise .emptyAlphabetMismatch 0 s) ∨
    (s.halt = false ∧ s.root ≠ Config.noNode ∧ ∃ v w, nodeAt s.node s.root = some (.leaf v w) ∧
      t = decodeSingle v s) ∨
    (s.halt = false ∧ s.root ≠ Config.noNode ∧ (∃ l r w, nodeAt s.node s.root = some (.internal l r w)) ∧
      ((∃ v rest, descend s.node s.bq s.root = .symbol v rest ∧
          t = respond (v.setWidth 64) { s with bq := rest }) ∨
       (descend s.node s.bq s.root = .truncated ∧ t = raise .truncatedPayload 0 { s with bq := [] }))) := by
  rcases whileRunning_next h with h | ⟨hr, h⟩
  · exact .inl h
  · split at h
    · next he => cases h; exact .inr (.inl ⟨hr, he, rfl⟩)
    · next he =>
      split at h
      · cases h
      · next v w hn => cases h; exact .inr (.inr (.inl ⟨hr, he, v, w, hn, rfl⟩))
      · next l r w hn =>
        refine .inr (.inr (.inr ⟨hr, he, ⟨l, r, w, hn⟩, ?_⟩))
        split at h
        · next v rest hd => cases h; exact .inl ⟨v, rest, hd, rfl⟩
        · next hd => cases h; exact .inr ⟨hd, rfl⟩
        · cases h

theorem execPack_next (h : execPack s = .next t) :
    (s.halt = true ∧ t = answerHalted s) ∨
    (s.halt = false ∧ roomFor s.caps.ob s.ob.length (bytesOfBits s.bq).length = true ∧
      t = respond (countData (bytesOfBits s.bq).length) { s with bq := [], ob := s.ob ++ bytesOfBits s.bq }) ∨
    (s.halt = false ∧ roomFor s.caps.ob s.ob.length (bytesOfBits s.bq).length = false ∧
      t = raise .queueOverflow 2 { s with
        bq := s.bq.drop (8 * ((fitting s.caps.ob s.ob.length (bytesOfBits s.bq)).length + 1)),
        ob := s.ob ++ fitting s.caps.ob s.ob.length (bytesOfBits s.bq) }) := by
  rcases whileRunning_next h with h | ⟨hr, h⟩
  · exact .inl h
  · simp only at h
    split at h
    · next hroom =>
      rw [fitting_of_room hroom] at h
      cases h; exact .inr (.inl ⟨hr, hroom, rfl⟩)
    · next hroom => cases h; exact .inr (.inr ⟨hr, by simpa using hroom, rfl⟩)

theorem execUnpack_next (h : execUnpack s = .next t) :
    (s.halt = true ∧ t = answerHalted s) ∨
    (s.halt = false ∧ roomFor s.caps.bq s.bq.length (bitsOfBytes s.ib).length = true ∧
      t = respond (countData (bitsOfBytes s.ib).length) { s with ib := [], bq := s.bq ++ bitsOfBytes s.ib }) ∨
    (s.halt = false ∧ roomFor s.caps.bq s.bq.length (bitsOfBytes s.ib).length = false ∧
      t = raise .queueOverflow 0 { s with
        ib := s.ib.drop ((fitting s.caps.bq s.bq.length (bitsOfBytes s.ib)).length / 8 + 1),
        bq := s.bq ++ fitting s.caps.bq s.bq.length (bitsOfBytes s.ib) }) := by
  rcases whileRunning_next h with h | ⟨hr, h⟩
  · exact .inl h
  · simp only at h
    split at h
    · next hroom =>
      rw [fitting_of_room hroom] at h
      cases h; exact .inr (.inl ⟨hr, hroom, rfl⟩)
    · next hroom => cases h; exact .inr (.inr ⟨hr, by simpa using hroom, rfl⟩)

theorem execTLeaf_next {v : Byte} (h : execTLeaf v s = .next t) :
    (s.halt = true ∧ t = answerHalted s) ∨
    (s.halt = false ∧ t = tokenState s (tokenLeaf { deserOf s with bq := byteBits v ++ s.bq })) := by
  rcases whileRunning_next h with h | ⟨hr, h⟩
  · exact .inl h
  · cases h; exact .inr ⟨hr, rfl⟩

theorem execTZero_next (h : execTZero s = .next t) :
    (s.halt = true ∧ t = answerHalted s) ∨ (s.halt = false ∧ t = tokenState s (tokenZero (deserOf s))) := by
  rcases whileRunning_next h with h | ⟨hr, h⟩
  · exact .inl h
  · cases h; exact .inr ⟨hr, rfl⟩

end

end Sys2Proof.Machine
end

