-- ==== Sys2Proof/Laws/Flags.lean ====
section
/-! SUPPORT. The bits of STATUS while HALT = 0, and which CSR numbers are answered (10_state.md R16 to R18). -/

namespace Sys2Proof.Machine

theorem flagEmpty_iff (s : State) : flagEmpty s = true ↔ s.root = Config.noNode := by
  simp [flagEmpty]

theorem flagSingle_iff (s : State) :
    flagSingle s = true ↔ s.root ≠ Config.noNode ∧ ∃ v w, nodeAt s.node s.root = some (.leaf v w) := by
  unfold flagSingle
  cases h : nodeAt s.node s.root with
  | none => simp
  | some n => cases n <;> simp

theorem flagCbv_iff (s : State) : flagCbv s = true ↔ ∃ v, (tableGet s.code v).isSome = true := by
  unfold flagCbv
  rw [List.any_eq_true]
  constructor
  · rintro ⟨x, hx, hsome⟩
    obtain ⟨k, hk, rfl⟩ := Vector.getElem_of_mem (Vector.mem_toList_iff.1 hx)
    exact ⟨BitVec.ofNat 8 k, by simpa [tableGet, Nat.mod_eq_of_lt hk] using hsome⟩
  · rintro ⟨v, hv⟩
    exact ⟨tableGet s.code v, Vector.mem_toList_iff.2 (by simp [tableGet]), hv⟩

/-- STATUS while HALT = 0, bit by bit. -/
theorem statusReg_running {s : State} (h : s.halt = false) :
    (statusReg s).getLsbD 0 = false ∧ (statusReg s).getLsbD 1 = flagEmpty s ∧
    (statusReg s).getLsbD 2 = flagSingle s ∧ (statusReg s).getLsbD 3 = flagCbv s := by
  simp only [statusReg, h]
  generalize flagEmpty s = e
  generalize flagSingle s = g
  generalize flagCbv s = c
  revert e g c
  decide

theorem statusReg_halted {s : State} (h : s.halt = true) : statusReg s = 1 := by
  simp [statusReg, h]

/-- The nine CSRs are answered, and no other (R17). -/
theorem csr_isSome_iff (s : State) (n : Byte) : (csr s n).isSome = true ↔ n.toNat ≤ 8 := by
  unfold csr
  split
  case h_10 h0 h1 h2 h3 h4 h5 h6 h7 h8 =>
    simp only [Option.isSome_none, Bool.false_eq_true, false_iff, Nat.not_le]
    have : n.toNat ≠ 0 ∧ n.toNat ≠ 1 ∧ n.toNat ≠ 2 ∧ n.toNat ≠ 3 ∧ n.toNat ≠ 4 ∧ n.toNat ≠ 5 ∧ n.toNat ≠ 6 ∧
        n.toNat ≠ 7 ∧ n.toNat ≠ 8 := ⟨h0, h1, h2, h3, h4, h5, h6, h7, h8⟩
    omega
  all_goals
    next h => simp [h]

end Sys2Proof.Machine
end

