-- ==== Sys2Proof/Laws/PerInstr.lean ====
section
/-! SUPPORT. One fact per instruction, by constructor: its encoding fits its own row of spec/opcode_table.json
(30_encoding.md R66, R70). -/

namespace Sys2Proof.Laws.EncodesItsRow

/-- The `mask` and `match` of the instruction's row in spec/opcode_table.json; none for a tree token. -/
def rowOfInstr : Instr → Option (CmdWord × CmdWord)
  | .nop => some (0xFFFFFFFFFFFF#48, 0x000000000000#48)
  | .clr => some (0xFFFFFFFFFFFF#48, 0x010000000000#48)
  | .ldf _ _ => some (0xFF0000000000#48, 0x020000000000#48)
  | .rdcsr _ => some (0xFF00FFFFFFFF#48, 0x030000000000#48)
  | .putb _ => some (0xFF00FFFFFFFF#48, 0x040000000000#48)
  | .getb => some (0xFFFFFFFFFFFF#48, 0x050000000000#48)
  | .build => some (0xFFFFFFFFFFFF#48, 0x100000000000#48)
  | .gencb => some (0xFFFFFFFFFFFF#48, 0x110000000000#48)
  | .sert => some (0xFFFFFFFFFFFF#48, 0x120000000000#48)
  | .dest => some (0xFFFFFFFFFFFF#48, 0x130000000000#48)
  | .encs _ => some (0xFF00FFFFFFFF#48, 0x140000000000#48)
  | .decs => some (0xFFFFFFFFFFFF#48, 0x150000000000#48)
  | .pack => some (0xFFFFFFFFFFFF#48, 0x160000000000#48)
  | .unpack => some (0xFFFFFFFFFFFF#48, 0x170000000000#48)
  | .tLeaf _ => none
  | .tZero => none

/-- A command's word fits its row; a token has 9 bits and begins with `1`, or is the one bit `0` (R62). -/
def Statement (i : Instr) : Prop :=
  match rowOfInstr i, encode i with
  | some (mask, pattern), .command w => w &&& mask = pattern
  | some _, .token _ => False
  | none, .token bits => (∃ rest, bits = true :: rest ∧ rest.length = 8) ∨ bits = [false]
  | none, .command _ => False

/-- Masking a command word masks its three fields. -/
theorem wordOf_and (a b : Byte) (c : Weight) (a' b' : Byte) (c' : Weight) :
    wordOf ⟨a, b, c⟩ &&& wordOf ⟨a', b', c'⟩ = wordOf ⟨a &&& a', b &&& b', c &&& c'⟩ := by
  simp only [wordOf]
  rw [← BitVec.and_append, ← BitVec.and_append]

theorem nop : Statement .nop := rfl

theorem clr : Statement .clr := rfl

theorem ldf (sym : Byte) (count : Weight) : Statement (.ldf sym count) := by
  show wordOf _ &&& wordOf ⟨0xFF#8, 0#8, 0#32⟩ = _
  rw [wordOf_and]
  simp [wordOf]

theorem rdcsr (n : Byte) : Statement (.rdcsr n) := by
  show wordOf _ &&& wordOf ⟨0xFF#8, 0#8, 0xFFFFFFFF#32⟩ = _
  rw [wordOf_and]
  simp [wordOf]

theorem putb (byte : Byte) : Statement (.putb byte) := by
  show wordOf _ &&& wordOf ⟨0xFF#8, 0#8, 0xFFFFFFFF#32⟩ = _
  rw [wordOf_and]
  simp [wordOf]

theorem getb : Statement .getb := rfl

theorem build : Statement .build := rfl

theorem gencb : Statement .gencb := rfl

theorem sert : Statement .sert := rfl

theorem dest : Statement .dest := rfl

theorem encs (sym : Byte) : Statement (.encs sym) := by
  show wordOf _ &&& wordOf ⟨0xFF#8, 0#8, 0xFFFFFFFF#32⟩ = _
  rw [wordOf_and]
  simp [wordOf]

theorem decs : Statement .decs := rfl

theorem pack : Statement .pack := rfl

theorem unpack : Statement .unpack := rfl

theorem tLeaf (v : Byte) : Statement (.tLeaf v) := .inl ⟨byteBits v, rfl, rfl⟩

theorem tZero : Statement .tZero := .inr rfl

end Sys2Proof.Laws.EncodesItsRow
end

