-- ==== Sys2Proof/Tests/Slice0.lean ====
section
/-! SUPPORT. Small tests: ill-formed terms, words written out from the spec's encodings, one step of each instruction
(expected results from spec/95_test_vectors.md and the rules), and witnesses for the hypotheses of the statements. -/

namespace Sys2Proof.Tests

open Sys2Proof.Machine

/-! ## Helpers -/

/-- The state an outcome answers, if it is a next state. -/
def next? : Out → Option State
  | .next t => some t
  | .fault _ => none
  | .refused _ => none

/-- The last response of an outcome, as (code, data). -/
def lastResponse (o : Out) : Option (Nat × Nat) :=
  (next? o).bind fun t => t.trace.getLast?.map fun r => (r.code.toNat, r.data.toNat)

/-- ERR, ERRINFO and HALT after an outcome. -/
def faultRegs (o : Out) : Option (Nat × Nat × Bool) :=
  (next? o).map fun t => (t.err.toNat, t.errinfo.toNat, t.halt)

/-- The reset state with these FREQ entries. -/
def counts (entries : List (Byte × Weight)) : State :=
  { State.reset with freq := entries.foldl (fun f e => tableSet f e.1 e.2) State.reset.freq }

/-- The reset state halted by QueueUnderflow (V91). -/
def haltedState : State := { State.reset with err := 13, halt := true }

/-- The single-leaf tree `A` with its codebook (V13, V21). -/
def singleState : State :=
  { State.reset with
    root := 0, ncnt := 1, node := [.leaf 0x41#8 4], code := tableSet noCodes 0x41#8 (some [false]) }

/-- The tree `(A B)` with its codebook, A `0`, B `1` (V32). -/
def pairState : State :=
  { State.reset with
    root := 2, ncnt := 3, node := [.leaf 0x41#8 0, .leaf 0x42#8 0, .internal 0 1 0],
    code := tableSet (tableSet noCodes 0x41#8 (some [false])) 0x42#8 (some [true]) }

/-- The tree `(A A)` (V58). -/
def twinState : State :=
  { State.reset with root := 2, ncnt := 3, node := [.leaf 0x41#8 0, .leaf 0x41#8 0, .internal 0 1 0] }

/-- The tree `(S ((M P) I))` as DEST leaves it (V54). -/
def missState : State :=
  { State.reset with
    root := 6, ncnt := 7,
    node := [.leaf 0x53#8 0, .leaf 0x4D#8 0, .leaf 0x50#8 0, .internal 1 2 0, .leaf 0x49#8 0, .internal 3 4 0,
      .internal 0 5 0] }

/-- A state with a finite capacity of BQ, and of OB. -/
def withBqCap (c : Nat) (s : State) : State := { s with caps := ⟨some c, none, none⟩ }

def withObCap (c : Nat) (s : State) : State := { s with caps := ⟨none, none, some c⟩ }

/-- Nine bits in BQ, and one byte in IB. -/
def nineBits : State := { State.reset with bq := List.replicate 9 true }

def oneByte : State := { State.reset with ib := [0x80#8] }

/-- `n + 1` leaves in a row, merged from the right: its post-order is `n + 1` leaf tokens and then `n` zeros. -/
def comb : Nat → Machine.Tree
  | 0 => .leaf 0xFF#8
  | n + 1 => .node (.leaf 0xFF#8) (comb n)

/-- `n` leaf tokens of value 0xFF, as bits. -/
def leafTokens (n : Nat) : Bits := (List.replicate n (tokenBits (.tLeaf 0xFF#8))).flatten

/-- A state with one word at the port. -/
def port (w : CmdWord) (s : State) : State := { s with input := [.word w] }

/-- A state with `n` allocated nodes and a given stack, as in the middle of DEST. -/
def withNodes (n : Nat) (stk : List Idx) : State := { State.reset with node := List.replicate n (.leaf 0 0), stk := stk }

/-- The perfect tree of a depth, every leaf 0. -/
def perfect : Nat → Machine.Tree
  | 0 => .leaf 0
  | n + 1 => .node (perfect n) (perfect n)

/-- The tree `(A B)`. -/
def pairTree : Machine.Tree := .node (.leaf 0x41#8) (.leaf 0x42#8)

/-! ## Well-formedness: an ill-formed term for each check -/

/-- R71: RDCSR 9 reads no register; RDCSR 8 is the last well-formed one. -/
theorem test_wellFormed_rdcsr : (Instr.rdcsr 9).wellFormed = false ∧ (Instr.rdcsr 8).wellFormed = true := by decide

/-- V9: BUILD with arg32 = 1. V9c: DECS with arg8 = 1. -/
theorem test_unusedZero_refuses :
    (fieldsOf 0x100000000001#48).unusedZero false false = false ∧
    (fieldsOf 0x150100000000#48).unusedZero false false = false ∧
    (fieldsOf 0x144D00000000#48).unusedZero true false = true := by decide

/-- R66: 0x06, 0x0F, 0x18 and 0xFF are reserved, 0x05, 0x10 and 0x17 are not. -/
theorem test_opcodeDefined_refuses :
    ([0x06#8, 0x0F#8, 0x18#8, 0xFF#8].map fun o => (CmdFields.mk o 0 0).opcodeDefined) = [false, false, false, false] ∧
    ([0x05#8, 0x10#8, 0x17#8].map fun o => (CmdFields.mk o 0 0).opcodeDefined) = [true, true, true] := by decide

/-- V9, V9a, V9b, V9c: the decoder refuses them, by name. -/
theorem test_decode_refuses :
    decode 0x100000000001#48 = .error (.unusedFieldNonzero 0x10#8) ∧
    decode 0x180000000000#48 = .error (.reservedOpcode 0x18#8) ∧
    decode 0x030000000001#48 = .error (.unusedFieldNonzero 0x03#8) ∧
    decode 0x150100000000#48 = .error (.unusedFieldNonzero 0x15#8) := by decide

/-- R73: bits that end before or inside a token hold none. -/
theorem test_decodeToken_refuses :
    decodeToken [] = .error .noBit ∧ decodeToken [true, false, false, false, false, false, false, false] = .error .cutShort := by
  decide

/-! ## Decoding: words from the programs of 95_test_vectors.md, bits from R60, R62 and R68 -/

/-- The `mask` and `match` columns of spec/opcode_table.json, in its order. -/
theorem test_opcodeTable_columns : (opcodeTable.map fun r => (r.mask.toNat, r.pattern.toNat)) =
    [(0xFFFFFFFFFFFF, 0x000000000000), (0xFFFFFFFFFFFF, 0x010000000000), (0xFF0000000000, 0x020000000000),
     (0xFF00FFFFFFFF, 0x030000000000), (0xFF00FFFFFFFF, 0x040000000000), (0xFFFFFFFFFFFF, 0x050000000000),
     (0xFFFFFFFFFFFF, 0x100000000000), (0xFFFFFFFFFFFF, 0x110000000000), (0xFFFFFFFFFFFF, 0x120000000000),
     (0xFFFFFFFFFFFF, 0x130000000000), (0xFF00FFFFFFFF, 0x140000000000), (0xFFFFFFFFFFFF, 0x150000000000),
     (0xFFFFFFFFFFFF, 0x160000000000), (0xFFFFFFFFFFFF, 0x170000000000)] := by decide

theorem test_decode_nop : decode 0x000000000000#48 = .ok .nop := by decide

theorem test_decode_clr : decode 0x010000000000#48 = .ok .clr := by decide

theorem test_decode_ldf : decode 0x024D00000001#48 = .ok (.ldf 0x4D#8 1#32) := by decide

theorem test_decode_rdcsr : decode 0x030500000000#48 = .ok (.rdcsr 5#8) := by decide

theorem test_decode_putb : decode 0x04D300000000#48 = .ok (.putb 0xD3#8) := by decide

theorem test_decode_getb : decode 0x050000000000#48 = .ok .getb := by decide

theorem test_decode_build : decode 0x100000000000#48 = .ok .build := by decide

theorem test_decode_gencb : decode 0x110000000000#48 = .ok .gencb := by decide

theorem test_decode_sert : decode 0x120000000000#48 = .ok .sert := by decide

theorem test_decode_dest : decode 0x130000000000#48 = .ok .dest := by decide

theorem test_decode_encs : decode 0x145000000000#48 = .ok (.encs 0x50#8) := by decide

theorem test_decode_decs : decode 0x150000000000#48 = .ok .decs := by decide

theorem test_decode_pack : decode 0x160000000000#48 = .ok .pack := by decide

theorem test_decode_unpack : decode 0x170000000000#48 = .ok .unpack := by decide

/-- V33: `1 01010011` is L(0x53); the bits after it stay. -/
theorem test_decode_tLeaf : decodeToken [true, false, true, false, true, false, false, true, true, true, false] =
    .ok (.tLeaf 0x53#8, [true, false]) := by decide

theorem test_decode_tZero : decodeToken [false, true] = .ok (.tZero, [true]) := by decide

/-- The host's numbering: a command word, and the two tokens' patterns as numbers. -/
theorem test_decodeTableWord :
    decodeTableWord 48 0x144D00000000 = some (.encs 0x4D#8) ∧ decodeTableWord 16 0x141 = some (.tLeaf 0x41#8) ∧
    decodeTableWord 8 0 = some .tZero ∧ decodeTableWord 48 0x180000000000 = none := by decide

/-- `withFetchWord` puts the instruction where the next step takes it: RDCSR 0, then a tree that is the one token. -/
theorem test_withFetchWord :
    lastResponse (step (State.reset.withFetchWord 48 0x030000000000)) = some (0, 0x48554601) ∧
    lastResponse (step (State.reset.withFetchWord 8 0)) = some (0, 1) := by decide

/-! ## One step of each instruction -/

/-- R81. -/
theorem test_nop : lastResponse (exec .nop State.reset) = some (0, 0) := by decide

/-- V92: halted, NOP is not executed. -/
theorem test_nop_halted : lastResponse (exec .nop haltedState) = some (0xFF, 0) := by decide

/-- V93: CLR executes while halted and clears ERR and HALT. -/
theorem test_clr_halted :
    lastResponse (exec .clr haltedState) = some (0, 0) ∧ faultRegs (exec .clr haltedState) = some (0, 0, false) := by
  decide

/-- V94: the second LDF overwrites the first. -/
theorem test_ldf_overwrites :
    (next? (exec (.ldf 0x41#8 7) (counts [(0x41#8, 4)]))).map (fun t => tableGet t.freq 0x41#8) = some 7#32 := by decide

/-- V90: ROOT reads 0x1FF and STATUS 2 after reset. -/
theorem test_rdcsr_reset :
    lastResponse (exec (.rdcsr 4) State.reset) = some (0, 0x1FF) ∧
    lastResponse (exec (.rdcsr 1) State.reset) = some (0, 2) := by decide +kernel

/-- V6, V92: n = 9 raises IllegalCommand with 0x03; while halted n = 3 is executed and n = 4 is not. -/
theorem test_rdcsr_limits :
    faultRegs (exec (.rdcsr 9) State.reset) = some (6, 3, true) ∧
    lastResponse (exec (.rdcsr 3) haltedState) = some (0, 0) ∧
    lastResponse (exec (.rdcsr 4) haltedState) = some (0xFF, 0) := by decide

/-- R88: PUTB appends at the tail. -/
theorem test_putb : (next? (exec (.putb 0xD3#8) { State.reset with ib := [0xA9#8] })).map State.ib =
    some [0xA9#8, 0xD3#8] := by decide

/-- R181: a full IB raises QueueOverflow(1). -/
theorem test_putb_full :
    faultRegs (exec (.putb 1) { State.reset with ib := [0], caps := ⟨none, some 1, none⟩ }) = some (12, 1, true) := by
  decide

/-- R89: GETB takes the head. -/
theorem test_getb : lastResponse (exec .getb { State.reset with ob := [0xA9#8, 0xD3#8] }) = some (0, 0xA9) := by decide

/-- V91. -/
theorem test_getb_empty : faultRegs (exec .getb State.reset) = some (13, 0, true) := by decide

/-- V12: the lighter symbol is the left child. -/
theorem test_build : (next? (exec .build (counts [(0x00#8, 3), (0xFF#8, 2)]))).map State.node =
    some [.leaf 0x00#8 3, .leaf 0xFF#8 2, .internal 1 0 5] := by decide +kernel

/-- V19: the first total that does not fit overflows. -/
theorem test_build_overflow :
    faultRegs (exec .build (counts [(0x00#8, 4294967295), (0x01#8, 1)])) = some (8, 0, true) := by decide +kernel

/-- V20: S `0`, M `100`, P `101`, I `11`. -/
theorem test_gencb : (next? (exec .gencb missState)).map (fun t => [0x53#8, 0x4D#8, 0x50#8, 0x49#8].map (tableGet t.code)) =
    some [some [false], some [true, false, false], some [true, false, true], some [true, true]] := by decide

/-- V28. -/
theorem test_gencb_duplicate : faultRegs (exec .gencb twinState) = some (11, 0x41, true) := by decide

/-- V32: `1 01000001 1 01000010 0 0`. -/
theorem test_sert : (next? (exec .sert pairState)).map State.bq = some
    [true, false, true, false, false, false, false, false, true,
     true, false, true, false, false, false, false, true, false, false, false] := by decide

/-- V30: the empty tree is one `0`. -/
theorem test_sert_empty : lastResponse (exec .sert State.reset) = some (0, 1) := by decide

/-- V53: bytes A0 80. -/
theorem test_dest : (next? (exec .dest { State.reset with bq := bitsOfBytes [0xA0#8, 0x80#8] })).map
    (fun t => (t.node, t.root, t.ncnt, t.bq.length)) = some ([.leaf 0x41#8 0], 0, 1, 6) := by decide

/-- V55: bytes A0 D0. -/
theorem test_dest_truncated :
    faultRegs (exec .dest { State.reset with bq := bitsOfBytes [0xA0#8, 0xD0#8] }) = some (2, 0, true) := by decide

/-- R136: `1` is appended for B. -/
theorem test_encs : (next? (exec (.encs 0x42#8) { pairState with bq := [false] })).map State.bq =
    some [false, true] := by decide

/-- V65. -/
theorem test_encs_miss : faultRegs (exec (.encs 0x4D#8) pairState) = some (5, 0x4D, true) := by decide

/-- V70: `100` is M, the next code stays. -/
theorem test_decs : lastResponse (exec .decs { missState with bq := [true, false, false, true, true] }) = some (0, 0x4D) ∧
    (next? (exec .decs { missState with bq := [true, false, false, true, true] })).map State.bq =
      some [true, true] := by decide

/-- V72, V75. -/
theorem test_decs_faults :
    faultRegs (exec .decs { singleState with bq := [true] }) = some (10, 0, true) ∧
    faultRegs (exec .decs { missState with bq := [true, false] }) = some (3, 0, true) := by decide

/-- V84: `0110 1001 1` packs to 69 80. -/
theorem test_pack : (next? (exec .pack { State.reset with
    bq := [false, true, true, false, true, false, false, true, true] })).map (fun t => (t.ob, t.bq)) =
      some ([0x69#8, 0x80#8], []) := by decide

/-- R181: the second byte finds OB full. -/
theorem test_pack_full : faultRegs (exec .pack { State.reset with
    bq := [false, true, true, false, true, false, false, true, true], caps := ⟨none, none, some 1⟩ }) =
      some (12, 2, true) := by decide

/-- V88: bit 0 of the byte is the last bit out. -/
theorem test_unpack : (next? (exec .unpack { State.reset with ib := [1#8] })).map State.bq =
    some [false, false, false, false, false, false, false, true] := by decide

/-- R181: BQ takes what fits. -/
theorem test_unpack_full :
    (next? (exec .unpack { State.reset with ib := [0x80#8], caps := ⟨some 3, none, none⟩ })).map
      (fun t => (t.bq, t.err)) = some ([true, false, false], 12) := by decide

/-- R125: a leaf is pushed at the next index. -/
theorem test_tLeaf : (next? (exec (.tLeaf 0x42#8) { State.reset with
    node := [.leaf 0x41#8 0], stk := [0], sp := 1 })).map (fun t => (t.node, t.stk, t.sp)) =
      some ([.leaf 0x41#8 0, .leaf 0x42#8 0], [1, 0], 2) := by decide

/-- R126: the top of the stack is the right child. -/
theorem test_tZero : (next? (exec .tZero { State.reset with
    node := [.leaf 0x41#8 0, .leaf 0x42#8 0], stk := [1, 0], sp := 2 })).map (fun t => (t.node, t.stk, t.sp)) =
      some ([.leaf 0x41#8 0, .leaf 0x42#8 0, .internal 0 1 0], [2], 1) := by decide

/-- V9a at the port: ERRINFO is the opcode byte. -/
theorem test_illegal_word :
    faultRegs (step { State.reset with input := [.word 0x180000000000#48] }) = some (6, 0x18, true) := by decide

/-- R41, R162: the header of 0x01020304 bytes, least significant byte first. -/
theorem test_sizeHeader : sizeHeader 0x01020304 = [4#8, 3#8, 2#8, 1#8] ∧ headerLength 4 3 2 1 = 0x01020304 := by decide

/-! ## Witnesses: the hypotheses of each statement are met together -/

theorem pair_treeAt : TreeAt pairState.node pairState.root pairTree :=
  .node (l := 0) (r := 1) (w := 0) rfl (.leaf (w := 0) rfl) (.leaf (w := 0) rfl)

theorem single_treeAt : TreeAt singleState.node singleState.root (.leaf 0x41#8) := .leaf (w := 4) rfl

theorem twin_treeAt : TreeAt twinState.node twinState.root (.node (.leaf 0x41#8) (.leaf 0x41#8)) :=
  .node (l := 0) (r := 1) (w := 0) rfl (.leaf (w := 0) rfl) (.leaf (w := 0) rfl)

theorem pair_codebook : CodebookOf pairTree pairState.code :=
  (treeCodes_done (t := pairTree) (code := pairState.code) rfl).2.1

theorem pair_treeInv : TreeInv pairState := by
  constructor <;> decide

theorem single_treeInv : TreeInv singleState := by
  constructor <;> decide

theorem twin_treeInv : TreeInv twinState := by
  constructor <;> decide

theorem pair_inv : Inv pairState where
  halt_err := by decide
  err_legal := by decide
  info_zero := by decide
  bq_cap := by intro c h; cases h
  ib_cap := by intro c h; cases h
  ob_cap := by intro c h; cases h
  stack := by decide
  tree := fun _ => pair_treeInv
  code := fun _ => .inr ⟨pairTree, by decide, pair_treeAt, pair_codebook⟩

/-- PACK at the port of the reset state. -/
theorem witness_StepRunsTheDecodedInstr :
    (port 0x160000000000#48 State.reset).input = [.word 0x160000000000#48] ∧
    decode 0x160000000000#48 = .ok .pack := by decide

/-- A reserved opcode at a running and at a halted block; 9 is the first reserved CSR number. -/
theorem witness_IllegalWordRaisesIllegalCommand :
    (port 0x180000000000#48 State.reset).halt = false ∧
    decode 0x180000000000#48 = .error (.reservedOpcode 0x18#8) ∧
    State.reset.halt = false ∧ 8 < (9#8).toNat ∧ (port 0x180000000000#48 haltedState).halt = true := by decide

theorem witness_StepWithoutEventKeepsTheState : pairState.input = [] := by decide

theorem witness_ResetEventAndClrLeaveTheResetState :
    ({ pairState with input := [.reset] } : State).input = .reset :: [] := by decide

/-- RDCSR 4 is the first RDCSR that is not executed; the other clauses name their words. -/
theorem witness_HaltedBlockExecutesOnlyClrAndRdcsr :
    (port 0x030400000000#48 haltedState).halt = true ∧
    (port 0x030400000000#48 haltedState).input = [.word 0x030400000000#48] ∧
    (0x030400000000#48 ≠ 0x010000000000#48) ∧
    (∀ n : Byte, n.toNat ≤ 3 → 0x030400000000#48 ≠ 0x03#8 ++ n ++ 0#32) := by
  refine ⟨rfl, rfl, by decide, ?_⟩
  intro n hn h
  have h4 : (0x030400000000#48).extractLsb' 32 8 = (0x03#8 ++ n ++ 0#32).extractLsb' 32 8 := by rw [h]
  have : (0x03#8 ++ n ++ 0#32).extractLsb' 32 8 = n := by
    have := congrArg CmdFields.arg8 (fieldsOf_wordOf ⟨0x03#8, n, 0#32⟩)
    exact this
  rw [this] at h4
  subst h4
  exact absurd hn (by decide)

theorem witness_EveryWordGetsExactlyOneResponse :
    (port 0x050000000000#48 State.reset).input = .word 0x050000000000#48 :: [] ∧
    (next? (step (port 0x050000000000#48 State.reset))).isSome = true := by decide

/-- A halted block, and a running one that goes on. -/
theorem witness_FaultRegistersAreSticky :
    (Instr.getb ≠ .clr ∧ haltedState.halt = true ∧ (next? (exec .getb haltedState)).isSome = true) ∧
    (Instr.nop ≠ .clr ∧ State.reset.halt = false ∧
      (next? (exec .nop State.reset)).map State.halt = some false) := by decide

theorem witness_OnlyTheListedFaultsAreRaised :
    State.reset.halt = false ∧ (next? (exec .getb State.reset)).map State.halt = some true := by decide

theorem witness_UnboundedQueuesNeverOverflow :
    pairState.caps = Config.Caps.unbounded ∧ (next? (exec .sert pairState)).isSome = true ∧ pairState.err ≠ 12 := by
  decide

theorem witness_EveryStepKeepsTheInvariant : Inv pairState := pair_inv

theorem witness_NodeStoreHoldsOneFiniteTree : TreeInv pairState ∧ pairState.root ≠ Config.noNode :=
  ⟨pair_treeInv, by decide⟩

/-- Two symbols of one codebook. -/
theorem witness_ValidCodesArePrefixFree :
    Inv pairState ∧ pairState.halt = false ∧ tableGet pairState.code 0x41#8 = some [false] ∧
    tableGet pairState.code 0x42#8 = some [true] ∧ (0x41#8 ≠ 0x42#8) :=
  ⟨pair_inv, by decide⟩

/-- PUTB is an instruction each of the four frames applies to. -/
theorem witness_frames :
    (next? (exec (.putb 1) pairState)).isSome = true ∧ Instr.putb 1 ≠ .clr ∧
    (∀ sym count, Instr.putb 1 ≠ .ldf sym count) ∧ Instr.putb 1 ≠ .build ∧ Instr.putb 1 ≠ .dest ∧
    (∀ v, Instr.putb 1 ≠ .tLeaf v) ∧ Instr.putb 1 ≠ .tZero ∧ Instr.putb 1 ≠ .gencb ∧ Instr.putb 1 ≠ .sert ∧
    (∀ v, Instr.putb 1 ≠ .encs v) ∧ Instr.putb 1 ≠ .unpack ∧ Instr.putb 1 ≠ .decs ∧ Instr.putb 1 ≠ .pack ∧
    Instr.putb 1 ≠ .getb := by
  refine ⟨by decide, by decide, fun _ _ => ?_, by decide, by decide, fun _ => ?_, by decide, by decide, by decide,
    fun _ => ?_, by decide, by decide, by decide, by decide⟩ <;> exact fun h => by cases h

/-- IB's frame: SERT changes neither IB nor OB. -/
theorem witness_OnlyTheirCommandsChangeTheQueues :
    (next? (exec .sert pairState)).isSome = true ∧ Instr.sert ≠ .clr ∧ (∀ b, Instr.sert ≠ .putb b) ∧
    Instr.sert ≠ .unpack ∧ Instr.sert ≠ .pack ∧ Instr.sert ≠ .getb := by
  refine ⟨by decide, by decide, fun _ => ?_, by decide, by decide, by decide⟩
  exact fun h => by cases h

/-- BUILD responds OK on a running block. -/
theorem witness_OnlyGencbBuildDestAndClrWriteCode :
    (counts [(0x41#8, 4)]).halt = false ∧
    (next? (exec .build (counts [(0x41#8, 4)]))).map State.halt = some false := by decide +kernel

theorem witness_NopOnlyResponds : State.reset.halt = false ∧ haltedState.halt = true := by decide

theorem witness_ClrRestoresTheResetValues :
    State.reset = { State.reset with caps := State.reset.caps, input := State.reset.input, trace := State.reset.trace } :=
  rfl

theorem witness_LdfOverwritesOneCount : State.reset.halt = false ∧ (0xFF#8 ≠ 0x00#8) := by decide

/-- 8 is the last CSR, 9 the first reserved one, 3 the last one read while halted; the queue of a reset block is short enough to be counted. -/
theorem witness_RdcsrReadsTheNineRegisters :
    State.reset.halt = false ∧ (8#8).toNat ≤ 8 ∧ (0#8).toNat ≤ 8 ∧ State.reset.bq.length < 2 ^ 64 ∧
    State.reset.ib.length < 2 ^ 64 ∧ State.reset.ob.length < 2 ^ 64 ∧ 8 < (9#8).toNat ∧ haltedState.halt = true ∧
    3 < (4#8).toNat ∧ (3#8).toNat ≤ 3 := by decide

/-- One free place, and none. -/
theorem witness_PutbAppendsItsByte :
    State.reset.halt = false ∧
    (∀ c, ({ State.reset with caps := ⟨none, some 1, none⟩ } : State).caps.ib = some c → State.reset.ib.length < c) ∧
    ({ State.reset with caps := ⟨none, some 0, none⟩ } : State).caps.ib = some State.reset.ib.length := by
  refine ⟨rfl, ?_, rfl⟩
  intro c h
  cases h
  decide

theorem witness_GetbTakesTheHeadOfOb :
    ({ State.reset with ob := [0xA9#8] } : State).ob = 0xA9#8 :: [] ∧ State.reset.ob = [] ∧ State.reset.halt = false := by
  decide

/-- The least and the greatest total. -/
theorem witness_BuildMakesTheTreeOfFreq :
    (counts [(0x41#8, 1)]).halt = false ∧ freqTotal (counts [(0x41#8, 1)]).freq = 1 ∧
    freqTotal (counts [(0x00#8, 4294967294), (0x01#8, 1)]).freq = 2 ^ 32 - 1 := by decide +kernel

theorem witness_BuildMergesTheTwoLightest :
    (counts [(0x00#8, 3), (0xFF#8, 2)]).halt = false ∧
    (next? (exec .build (counts [(0x00#8, 3), (0xFF#8, 2)]))).map State.halt = some false := by decide +kernel

/-- No symbol, a BUILD that raises EmptyAlphabet, and the first total that is too great. -/
theorem witness_BuildFaultsOnlyOnEmptyOrHeavyTables :
    State.reset.halt = false ∧ (∀ v, tableGet State.reset.freq v = 0) ∧
    (next? (exec .build State.reset)).map (fun t => (t.halt, t.err)) = some (true, 7) ∧
    2 ^ 32 - 1 < freqTotal (counts [(0x00#8, 4294967295), (0x01#8, 1)]).freq := by
  refine ⟨rfl, fun v => ?_, by decide +kernel, by decide +kernel⟩
  exact tableGet_replicate v (0 : Weight)

theorem witness_GencbRecordsEveryLeafPath :
    pairState.halt = false ∧ TreeInv pairState ∧ pairState.root ≠ Config.noNode ∧
    TreeAt pairState.node pairState.root pairTree ∧ pairTree.symbols.Nodup :=
  ⟨rfl, pair_treeInv, by decide, pair_treeAt, by decide⟩

theorem witness_GencbOfTheEmptyTreeIsEmpty : State.reset.halt = false ∧ State.reset.root = Config.noNode := by decide

theorem witness_GencbRaisesAtTheSecondDuplicate :
    twinState.halt = false ∧ TreeInv twinState ∧ twinState.root ≠ Config.noNode ∧
    TreeAt twinState.node twinState.root (.node (.leaf 0x41#8) (.leaf 0x41#8)) ∧
    (Machine.Tree.node (.leaf 0x41#8) (.leaf 0x41#8)).symbols = [0x41#8] ++ 0x41#8 :: [] ∧ [0x41#8].Nodup ∧
    0x41#8 ∈ [0x41#8] :=
  ⟨rfl, twin_treeInv, by decide, twin_treeAt, by decide⟩

/-- The empty tree and `(A B)`, with a BQ that just holds the bits and one that is a bit too short. -/
theorem witness_SertAppendsTheTreeBits :
    (∃ bits, (withBqCap 1 State.reset).halt = false ∧ (withBqCap 1 State.reset).root = Config.noNode ∧
      bits = [false] ∧ (withBqCap 1 State.reset).caps.bq = some 1 ∧
      (withBqCap 1 State.reset).bq.length + bits.length ≤ 1) ∧
    (∃ bits, (withBqCap 0 State.reset).root = Config.noNode ∧ bits = [false] ∧
      (withBqCap 0 State.reset).caps.bq = some 0 ∧ (withBqCap 0 State.reset).bq.length ≤ 0 ∧
      0 < (withBqCap 0 State.reset).bq.length + bits.length) ∧
    (TreeInv (withBqCap 20 pairState) ∧ (withBqCap 20 pairState).halt = false ∧
      (withBqCap 20 pairState).root ≠ Config.noNode ∧
      TreeAt (withBqCap 20 pairState).node (withBqCap 20 pairState).root pairTree ∧
      (withBqCap 20 pairState).caps.bq = some 20 ∧
      (withBqCap 20 pairState).bq.length + (serialized pairTree).length ≤ 20) ∧
    (TreeInv (withBqCap 19 pairState) ∧ (withBqCap 19 pairState).halt = false ∧
      (withBqCap 19 pairState).root ≠ Config.noNode ∧
      TreeAt (withBqCap 19 pairState).node (withBqCap 19 pairState).root pairTree ∧
      (withBqCap 19 pairState).caps.bq = some 19 ∧ (withBqCap 19 pairState).bq.length ≤ 19 ∧
      19 < (withBqCap 19 pairState).bq.length + (serialized pairTree).length) :=
  ⟨⟨[false], by decide⟩, ⟨[false], by decide⟩,
    ⟨by constructor <;> decide, by decide, by decide, pair_treeAt, by decide⟩,
    ⟨by constructor <;> decide, by decide, by decide, pair_treeAt, by decide⟩⟩

/-- 256 leaves are the most, and bits may follow. -/
theorem witness_DestReadsBackEveryTree :
    ({ State.reset with bq := serialized pairTree ++ [true] } : State).halt = false ∧
    ({ State.reset with bq := serialized pairTree ++ [true] } : State).bq = serialized pairTree ++ [true] ∧
    pairTree.leafCount ≤ 256 ∧ (perfect 8).leafCount = 256 := by
  refine ⟨rfl, rfl, by decide, by decide +kernel⟩

theorem witness_DestReadsTheEmptyTree :
    ({ State.reset with bq := [false] } : State).bq = false :: [] ∧ State.reset.halt = false := by decide

/-- The post-order of a comb: all its leaves, then all its merges. -/
theorem comb_tokens (n : Nat) :
    (comb n).tokens = List.replicate (n + 1) (.tLeaf 0xFF#8) ++ List.replicate n .tZero := by
  induction n with
  | zero => rfl
  | succ n ih =>
    have h : (comb (n + 1)).tokens = [.tLeaf 0xFF#8] ++ (comb n).tokens ++ [.tZero] := rfl
    rw [h, ih, List.replicate_succ' (n := n) (a := Instr.tZero), List.replicate_succ (n := n + 1)]
    simp

theorem comb_leafCount (n : Nat) : (comb n).leafCount = n + 1 := by
  induction n with
  | zero => rfl
  | succ n ih => simp [comb, Machine.Tree.leafCount, ih]; omega

theorem flatMap_replicate_leaf (n : Nat) :
    (List.replicate n (Instr.tLeaf 0xFF#8)).flatMap tokenBits = leafTokens n := by
  simp [leafTokens, List.flatMap]

theorem flatMap_replicate_zero (n : Nat) :
    (List.replicate n Instr.tZero).flatMap tokenBits = List.replicate n false := by
  induction n with
  | zero => rfl
  | succ n ih => rw [List.replicate_succ, List.flatMap_cons, ih]; rfl

theorem comb_serialized (n : Nat) : serialized (comb n) = leafTokens (n + 1) ++ List.replicate (n + 1) false := by
  rw [serialized, comb_tokens, List.append_assoc, ← List.replicate_succ', List.flatMap_append,
    flatMap_replicate_leaf, flatMap_replicate_zero]

theorem leafTokens_length (n : Nat) : (leafTokens n).length = 9 * n := by
  have : (tokenBits (.tLeaf 0xFF#8)).length = 9 := rfl
  simp [leafTokens, this, Nat.mul_comm]

/-- No bit at all and one bit short; then the cases R128 (e) adds: 300 leaf tokens, which begin no tree of at most 256
leaves and end before a 512th token, and 512 leaf tokens (V59a); last, a whole tree with one leaf too many. -/
theorem witness_DestFaultsOnShortOrLargeTrees :
    (State.reset.halt = false ∧ State.reset.bq ++ serialized pairTree = serialized pairTree ∧
      serialized pairTree ≠ [] ∧ pairTree.leafCount ≤ 256) ∧
    ((serialized pairTree).dropLast ++ [false] = serialized pairTree ∧ pairTree.leafCount ≤ 256) ∧
    (∃ missing, missing ≠ [] ∧ leafTokens 300 ++ missing = serialized (comb 299) ∧
      (leafTokens 300).length < (firstTokens 512 (comb 299)).length) ∧
    (256 < (comb 511).leafCount ∧ leafTokens 512 = firstTokens 512 (comb 511) ++ []) ∧
    256 < (Machine.Tree.node (perfect 8) (.leaf 0)).leafCount := by
  refine ⟨⟨rfl, rfl, by decide⟩, by decide, ⟨List.replicate 300 false, ?_, (comb_serialized 299).symm, ?_⟩,
    ⟨by rw [comb_leafCount]; decide, ?_⟩, by decide +kernel⟩
  · exact List.ne_nil_of_length_pos (by rw [List.length_replicate]; decide)
  · rw [firstTokens, comb_tokens, List.take_append, List.length_replicate, List.take_replicate, List.take_replicate,
      List.flatMap_append, flatMap_replicate_leaf, flatMap_replicate_zero, List.length_append, leafTokens_length,
      leafTokens_length, List.length_replicate]
    decide
  · rw [firstTokens, comb_tokens, List.take_append, List.length_replicate, List.take_replicate, Nat.sub_self,
      List.take_zero, List.append_nil, List.append_nil, flatMap_replicate_leaf]
    rfl

theorem withNodes_length (n : Nat) (stk : List Idx) : (withNodes n stk).node.length = n := List.length_replicate

/-- 510 and 511 entries in use. -/
theorem witness_LeafTokenPushesALeaf :
    (withNodes 510 []).halt = false ∧ (withNodes 510 []).node.length < 511 ∧ 511 ≤ (withNodes 511 []).node.length := by
  refine ⟨rfl, by rw [withNodes_length]; decide, by rw [withNodes_length]⟩

/-- A stack of no, one and two entries, with room for one more node and with none. -/
theorem witness_ZeroTokenMergesOrEndsTheTree :
    (withNodes 510 [1, 0]).halt = false ∧ (withNodes 0 []).stk = [] ∧ (withNodes 1 [0]).stk = [0] ∧
    (withNodes 510 [1, 0]).stk = 1 :: 0 :: [] ∧ (withNodes 510 [1, 0]).node.length < 511 ∧
    511 ≤ (withNodes 511 [1, 0]).node.length := by
  refine ⟨rfl, rfl, rfl, rfl, by rw [withNodes_length]; decide, by rw [withNodes_length]⟩

theorem witness_DestInvertsSert :
    Inv pairState ∧ pairState.halt = false ∧ pairState.bq = [] ∧ pairState.caps.bq = none ∧
    pairState.root ≠ Config.noNode ∧ TreeAt pairState.node pairState.root pairTree :=
  ⟨pair_inv, rfl, rfl, rfl, by decide, pair_treeAt⟩

/-- A symbol with a code, with a BQ that just holds it and a full one; a symbol with none. -/
theorem witness_EncsAppendsTheCode :
    ((withBqCap 1 pairState).halt = false ∧ tableGet (withBqCap 1 pairState).code 0x42#8 = some [true] ∧
      [true].length ≤ 255 ∧ (withBqCap 1 pairState).caps.bq = some 1 ∧
      (withBqCap 1 pairState).bq.length + [true].length ≤ 1) ∧
    ((withBqCap 0 pairState).halt = false ∧ tableGet (withBqCap 0 pairState).code 0x42#8 = some [true] ∧
      (withBqCap 0 pairState).caps.bq = some 0 ∧ (withBqCap 0 pairState).bq.length ≤ 0 ∧
      0 < (withBqCap 0 pairState).bq.length + [true].length) ∧
    tableGet pairState.code 0x4D#8 = none := by decide

theorem witness_DecsDecodesTheCodeAtTheHead :
    (pairState.halt = false ∧ pairState.root ≠ Config.noNode ∧ TreeAt pairState.node pairState.root pairTree ∧
      IsCode pairTree [true] 0x42#8) ∧
    (singleState.root ≠ Config.noNode ∧ TreeAt singleState.node singleState.root (.leaf 0x41#8) ∧
      IsCode (.leaf 0x41#8) [false] 0x41#8) :=
  ⟨⟨rfl, by decide, pair_treeAt, .right .here⟩, by decide, single_treeAt, rfl, rfl⟩

/-- The empty tree; a BQ that ends before a code; a `1` in the single-leaf tree. -/
theorem witness_DecsFaultsOnEmptyShortOrWrongBits :
    (State.reset.halt = false ∧ State.reset.root = Config.noNode) ∧
    (pairState.halt = false ∧ pairState.root ≠ Config.noNode ∧ TreeAt pairState.node pairState.root pairTree ∧
      IsCode pairTree [true] 0x42#8 ∧ pairState.bq ++ [true] = [true] ∧ [true] ≠ []) ∧
    (singleState.root ≠ Config.noNode ∧ nodeAt singleState.node singleState.root = some (.leaf 0x41#8 4) ∧
      ({ singleState with bq := [true] } : State).bq = true :: []) :=
  ⟨by decide, ⟨rfl, by decide, pair_treeAt, .right .here, by decide⟩, by decide⟩

theorem witness_DecsInvertsEncs :
    pairState.halt = false ∧ pairState.root ≠ Config.noNode ∧ TreeAt pairState.node pairState.root pairTree ∧
    CodebookOf pairTree pairState.code ∧ (∀ v ∈ [0x42#8, 0x41#8], v ∈ pairTree.symbols) ∧ pairState.caps.bq = none ∧
    ({ pairState with bq := payload pairState.code [0x42#8, 0x41#8] ++ [false] } : State).bq =
      payload pairState.code [0x42#8, 0x41#8] ++ [false] :=
  ⟨rfl, by decide, pair_treeAt, pair_codebook, by decide, rfl, rfl⟩

/-- Nine bits in BQ: an OB that just holds the two bytes, and one that holds one. -/
theorem witness_PackPlacesEveryBit :
    ((withObCap 2 nineBits).halt = false ∧ (withObCap 2 nineBits).caps.ob = some 2 ∧
      (withObCap 2 nineBits).ob.length + ((withObCap 2 nineBits).bq.length + 7) / 8 ≤ 2) ∧
    ((withObCap 1 nineBits).halt = false ∧ (withObCap 1 nineBits).caps.ob = some 1 ∧
      (withObCap 1 nineBits).ob.length ≤ 1 ∧
      1 < (withObCap 1 nineBits).ob.length + ((withObCap 1 nineBits).bq.length + 7) / 8) := by decide

/-- One byte in IB: a BQ that just holds its eight bits, and one that holds seven. -/
theorem witness_UnpackPlacesEveryBit :
    ((withBqCap 8 oneByte).halt = false ∧ (withBqCap 8 oneByte).caps.bq = some 8 ∧
      (withBqCap 8 oneByte).bq.length + 8 * (withBqCap 8 oneByte).ib.length ≤ 8) ∧
    ((withBqCap 7 oneByte).halt = false ∧ (withBqCap 7 oneByte).caps.bq = some 7 ∧
      (withBqCap 7 oneByte).bq.length ≤ 7 ∧
      7 < (withBqCap 7 oneByte).bq.length + 8 * (withBqCap 7 oneByte).ib.length) := by decide

theorem witness_PackAndUnpackAreInverse :
    State.reset.halt = false ∧ State.reset.caps = Config.Caps.unbounded ∧ State.reset.bq = [] ∧ State.reset.ob = [] := by
  decide

theorem witness_PackSplitsAtAByteBoundary :
    State.reset.halt = false ∧ State.reset.caps = Config.Caps.unbounded ∧
    ({ State.reset with bq := byteBits 0x69#8 ++ [true] } : State).bq = byteBits 0x69#8 ++ [true] ∧
    (byteBits 0x69#8).length % 8 = 0 := by decide

/-- The greatest length, the longest artifact without a header, the first input that is too long. -/
theorem witness_SizeHeaderRoundTrips :
    2 ^ 32 - 1 < 2 ^ 32 ∧ [1#8, 2#8, 3#8].length < 4 ∧ 2 ^ 32 ≤ (List.replicate (2 ^ 32) 0#8).length := by
  refine ⟨by decide, by decide, by rw [List.length_replicate]⟩

theorem witness_LoadCommandsLoadTheExactCounts : [0x41#8, 0x42#8, 0x41#8].length < 2 ^ 32 := by decide

theorem witness_EmptyInputMakesFiveZeroBytes : haltedState.caps = Config.Caps.unbounded := by decide

theorem witness_HdecodeInvertsHencode :
    [0x41#8, 0x42#8, 0x41#8].length < 2 ^ 32 ∧ haltedState.caps = Config.Caps.unbounded ∧
    State.reset.caps = Config.Caps.unbounded := by decide

theorem witness_ArtifactDependsOnTheInputAlone :
    haltedState.caps = pairState.caps ∧ (hencode [] haltedState).toOption.isSome = true ∧
    (hencode [] pairState).toOption.isSome = true := by decide +kernel

end Sys2Proof.Tests
end

section
/-! PROOFS. The fault registers (10_state.md R19 to R21): how each instruction but CLR leaves them. -/

namespace Sys2Proof.Machine

/-- How an instruction other than CLR leaves the fault registers: as they were, or written by one `raise` of a fault of
its own row of R180, on a running block. -/
inductive FaultRegsAfter (i : Instr) (s t : State) : Prop
  | kept (err : t.err = s.err) (errinfo : t.errinfo = s.errinfo) (halt : t.halt = s.halt)
  | raised (c : Cause) (info : BitVec 32) (u : State) (running : s.halt = false) (listed : c ∈ raisedBy i)
      (trace : u.trace = s.trace) (eq : t = raise c info u)

section
variable {i : Instr} {s t : State}

theorem FaultRegsAfter.answerHalted : FaultRegsAfter i s (answerHalted s) := .kept rfl rfl rfl

theorem FaultRegsAfter.raise (hr : s.halt = false) {c : Cause} (hc : c ∈ raisedBy i) {info : BitVec 32} {u : State}
    (hu : u.trace = s.trace) : FaultRegsAfter i s (raise c info u) := .raised c info u hr hc hu rfl

/-- Pushing bits into BQ can raise QueueOverflow, and nothing else. -/
theorem FaultRegsAfter.pushBits (hr : s.halt = false) (hq : .queueOverflow ∈ raisedBy i) (xs : Bits) (d : Data) :
    FaultRegsAfter i s (pushBits xs s (respond d)) := by
  rcases pushBits_cases xs s (respond d) with ⟨-, h⟩ | ⟨-, h⟩
  · rw [h]; exact .kept rfl rfl rfl
  · rw [h]; exact .raise hr hq rfl

theorem FaultRegsAfter.decodeSingle (hr : s.halt = false) (v : Byte) : FaultRegsAfter .decs s (decodeSingle v s) := by
  rcases decodeSingle_cases v s with ⟨-, h⟩ | ⟨rest, -, h⟩ | ⟨rest, -, h⟩
  · rw [h]; exact .raise hr (by simp [raisedBy]) rfl
  · rw [h]; exact .raise hr (by simp [raisedBy]) rfl
  · rw [h]; exact .kept rfl rfl rfl

/-- A token executed on its own writes the fault registers only when it raises a fault. -/
theorem FaultRegsAfter.tokenState (hr : s.halt = false) {e : TokenEnd} (h : ∀ c d, e = .raised c d → c ∈ raisedBy i) :
    FaultRegsAfter i s (tokenState s e) := by
  cases e with
  | more d => exact .kept rfl rfl rfl
  | stop d root => exact .kept rfl rfl rfl
  | raised c d => exact .raise hr (h c d rfl) rfl

end

/-- T.LEAF with its eight bits in front of BQ raises no fault but TreeOverflow (R125). -/
theorem tokenLeaf_raised {d d' : Deser} {v : Byte} {rest : Bits} {c : Cause} (hb : d.bq = byteBits v ++ rest)
    (h : tokenLeaf d = .raised c d') : c = .treeOverflow := by
  simp only [tokenLeaf, hb, byteBits, List.cons_append, List.nil_append] at h
  split at h <;> cases h
  rfl

/-- T.ZERO raises no fault but TreeOverflow (R126). -/
theorem tokenZero_raised {d d' : Deser} {c : Cause} (h : tokenZero d = .raised c d') : c = .treeOverflow := by
  unfold tokenZero at h
  split at h
  · cases h
  · cases h
  · split at h <;> cases h
    rfl

/-- Every instruction but CLR keeps the fault registers, or raises one of the faults R180 lists for it. -/
theorem exec_faultRegsAfter {i : Instr} {s t : State} (h : exec i s = .next t) (hi : i ≠ .clr) :
    FaultRegsAfter i s t := by
  cases i with
  | nop => rcases execNop_next h with ⟨-, rfl⟩ | ⟨-, rfl⟩ <;> exact .kept rfl rfl rfl
  | clr => exact absurd rfl hi
  | ldf sym count => rcases execLdf_next h with ⟨-, rfl⟩ | ⟨-, rfl⟩ <;> exact .kept rfl rfl rfl
  | rdcsr n =>
    rcases execRdcsr_next h with ⟨-, -, rfl⟩ | ⟨d, -, -, rfl⟩ | ⟨hr, -, rfl⟩
    · exact .answerHalted
    · exact .kept rfl rfl rfl
    · exact .raise hr (by simp [raisedBy]) rfl
  | putb byte =>
    rcases execPutb_next h with ⟨-, rfl⟩ | ⟨-, -, rfl⟩ | ⟨hr, -, rfl⟩
    · exact .answerHalted
    · exact .kept rfl rfl rfl
    · exact .raise hr (by simp [raisedBy]) rfl
  | getb =>
    rcases execGetb_next h with ⟨-, rfl⟩ | ⟨hr, -, rfl⟩ | ⟨-, v, rest, -, rfl⟩
    · exact .answerHalted
    · exact .raise hr (by simp [raisedBy]) rfl
    · exact .kept rfl rfl rfl
  | build =>
    rcases execBuild_next h with ⟨-, rfl⟩ | ⟨hr, -, rfl⟩ | ⟨hr, -, b, -, rfl⟩ | ⟨-, -, b, -, rfl⟩
    · exact .answerHalted
    · exact .raise hr (by simp [raisedBy]) rfl
    · exact .raise hr (by simp [raisedBy]) rfl
    · exact .kept rfl rfl rfl
  | gencb =>
    rcases execGencb_next h with
      ⟨-, rfl⟩ | ⟨-, -, rfl⟩ | ⟨hr, -, u, -, ⟨code, -, rfl⟩ | ⟨sym, code, -, rfl⟩⟩
    · exact .answerHalted
    · exact .kept rfl rfl rfl
    · exact .kept rfl rfl rfl
    · exact .raise hr (by simp [raisedBy]) rfl
  | sert =>
    rcases execSert_next h with ⟨-, rfl⟩ | ⟨hr, bits, rfl, -⟩
    · exact .answerHalted
    · exact .pushBits hr (by simp [raisedBy]) _ _
  | dest =>
    rcases execDest_next h with ⟨-, rfl⟩ | ⟨-, d, root, k, -, rfl⟩ | ⟨hr, c, d, hd, rfl⟩
    · exact .answerHalted
    · exact .kept rfl rfl rfl
    · exact .raise hr (by simpa [raisedBy] using (destLoop_raised (DInv0 _) hd).2) rfl
  | encs sym =>
    rcases execEncs_next h with ⟨-, rfl⟩ | ⟨hr, -, rfl⟩ | ⟨hr, p, -, rfl⟩
    · exact .answerHalted
    · exact .raise hr (by simp [raisedBy]) rfl
    · exact .pushBits hr (by simp [raisedBy]) _ _
  | decs =>
    rcases execDecs_next h with ⟨-, rfl⟩ | ⟨hr, -, rfl⟩ | ⟨hr, -, v, w, -, rfl⟩ |
      ⟨hr, -, -, ⟨v, rest, -, rfl⟩ | ⟨-, rfl⟩⟩
    · exact .answerHalted
    · exact .raise hr (by simp [raisedBy]) rfl
    · exact .decodeSingle hr v
    · exact .kept rfl rfl rfl
    · exact .raise hr (by simp [raisedBy]) rfl
  | pack =>
    rcases execPack_next h with ⟨-, rfl⟩ | ⟨-, -, rfl⟩ | ⟨hr, -, rfl⟩
    · exact .answerHalted
    · exact .kept rfl rfl rfl
    · exact .raise hr (by simp [raisedBy]) rfl
  | unpack =>
    rcases execUnpack_next h with ⟨-, rfl⟩ | ⟨-, -, rfl⟩ | ⟨hr, -, rfl⟩
    · exact .answerHalted
    · exact .kept rfl rfl rfl
    · exact .raise hr (by simp [raisedBy]) rfl
  | tLeaf v =>
    rcases execTLeaf_next h with ⟨-, rfl⟩ | ⟨hr, rfl⟩
    · exact .answerHalted
    · exact .tokenState hr fun c d he => by simp [raisedBy, tokenLeaf_raised rfl he]
  | tZero =>
    rcases execTZero_next h with ⟨-, rfl⟩ | ⟨hr, rfl⟩
    · exact .answerHalted
    · exact .tokenState hr fun c d he => by simp [raisedBy, tokenZero_raised he]

/-- Settles O11: an instruction that raises a fault runs on a running block and halts it; every other one keeps the
three registers. -/
theorem faultRegistersAreSticky : Obligations.FaultRegistersAreSticky := by
  unfold Obligations.FaultRegistersAreSticky
  constructor
  · intro i s t h hi hs
    cases exec_faultRegsAfter h hi with
    | kept err errinfo halt => exact ⟨err, errinfo, halt.trans hs⟩
    | raised c info u running => rw [hs] at running; cases running
  · intro i s t h hi hs ht
    cases exec_faultRegsAfter h hi with
    | kept err errinfo => exact ⟨err, errinfo⟩
    | raised c info u running listed trace eq => subst eq; cases ht

end Sys2Proof.Machine
end

section
/-! PROOFS. The invariant of 10_state.md: the reset state meets it, and every event of the host keeps it. -/

namespace Sys2Proof.Machine

/-! ## Queues within their capacities (R28 to R30) -/

theorem withinCap_zero (cap : Option Nat) : withinCap cap 0 := fun _ _ => Nat.zero_le _

theorem withinCap.mono {cap : Option Nat} {m n : Nat} (h : withinCap cap n) (hm : m ≤ n) : withinCap cap m :=
  fun c hc => hm.trans (h c hc)

/-- Pushing what fits keeps a queue within its capacity. -/
theorem withinCap.append_fitting {α : Type} {cap : Option Nat} {q : List α} (h : withinCap cap q.length) (xs : List α) :
    withinCap cap (q ++ fitting cap q.length xs).length := fun c hc => by
  rw [List.length_append]
  exact length_add_fitting_le xs hc (h c hc)

/-- Pushes that all find room keep a queue within its capacity. -/
theorem withinCap.append {α : Type} {cap : Option Nat} {q xs : List α} (h : withinCap cap q.length)
    (hroom : roomFor cap q.length xs.length = true) : withinCap cap (q ++ xs).length := by
  have := h.append_fitting xs
  rwa [fitting_of_room hroom] at this

/-- Every queue is within its capacity: what the invariant asks of a halted block beside its fault registers. -/
structure QueuesFit (s : State) : Prop where
  bq : withinCap s.caps.bq s.bq.length
  ib : withinCap s.caps.ib s.ib.length
  ob : withinCap s.caps.ob s.ob.length

/-! ## The parts of the state the invariant speaks of -/

section
variable {s t : State}

theorem Inv.queuesFit (h : Inv s) : QueuesFit s := ⟨h.bq_cap, h.ib_cap, h.ob_cap⟩

/-- While HALT = 0, ERR and ERRINFO are 0 (R20, R21). -/
theorem Inv.running_regs (h : Inv s) (hr : s.halt = false) : s.err = 0 ∧ s.errinfo = 0 := by
  have he : s.err = 0 := by simpa [hr] using h.halt_err
  exact ⟨he, h.info_zero he⟩

/-- T1 to T5 speak of ROOT, NCNT and NODE alone. -/
theorem TreeInv.congr (h : TreeInv s) (hroot : t.root = s.root) (hncnt : t.ncnt = s.ncnt) (hnode : t.node = s.node) :
    TreeInv t := by
  obtain ⟨count, t1, t2, t3, t5, bound⟩ := h
  constructor <;> simpa only [hroot, hncnt, hnode]

/-- What the invariant depends on beside the queues: the fault registers, the tree, the stack and the codebook. -/
def invPart (s : State) : Byte × BitVec 32 × Bool × Idx × BitVec 10 × BitVec 10 × List Node × List Idx ×
    Table (Option Bits) :=
  (s.err, s.errinfo, s.halt, s.root, s.ncnt, s.sp, s.node, s.stk, s.code)

/-- A change outside that part keeps the invariant when the queues stay within their capacities. -/
theorem Inv.congr (h : Inv s) (e : invPart t = invPart s) (q : QueuesFit t) : Inv t := by
  simp only [invPart, Prod.mk.injEq] at e
  obtain ⟨herr, hinfo, hhalt, hroot, hncnt, hsp, hnode, hstk, hcode⟩ := e
  exact {
    halt_err := by simpa only [hhalt, herr] using h.halt_err
    err_legal := by simpa only [herr] using h.err_legal
    info_zero := by simpa only [herr, hinfo] using h.info_zero
    bq_cap := q.bq
    ib_cap := q.ib
    ob_cap := q.ob
    stack := by simpa only [hhalt, hsp, hstk] using h.stack
    tree := fun hr => (h.tree (hhalt ▸ hr)).congr hroot hncnt hnode
    code := by simpa only [CodeInv, hhalt, hroot, hnode, hcode] using h.code }

/-- A running state meets the invariant when no fault is recorded, the queues fit, the stack is empty, and T1 to T5 and
the codebook's rule hold. -/
theorem Inv.of_running (regs : s.err = 0 ∧ s.errinfo = 0) (hr : s.halt = false) (q : QueuesFit s) (hsp : s.sp = 0)
    (hstk : s.stk = []) (tree : TreeInv s) (code : CodeInv s) : Inv s where
  halt_err := by simp [regs.1, hr]
  err_legal := .inl regs.1
  info_zero _ := regs.2
  bq_cap := q.bq
  ib_cap := q.ib
  ob_cap := q.ob
  stack _ := ⟨hsp, hstk⟩
  tree _ := tree
  code _ := code

/-! ## Responding, raising, clearing -/

theorem Inv.answer {r : Response} (h : Inv s) : Inv (answer r s) := h.congr rfl ⟨h.bq_cap, h.ib_cap, h.ob_cap⟩

theorem Inv.respond {d : Data} (h : Inv s) : Inv (respond d s) := h.answer

theorem Inv.answerHalted (h : Inv s) : Inv (answerHalted s) := h.answer

/-- Every code of R180 is one ERR may hold (R19). -/
theorem Cause.code_legal (c : Cause) : 2 ≤ c.code.toNat ∧ c.code.toNat ≤ 13 := by cases c <;> decide

theorem Cause.code_ne_zero (c : Cause) : c.code ≠ 0 := by cases c <;> decide

/-- A raise meets the invariant whatever the command has left in the tree: the block is halted. -/
theorem Inv.raise {c : Cause} {info : BitVec 32} (q : QueuesFit s) : Inv (raise c info s) where
  halt_err := iff_of_true rfl c.code_ne_zero
  err_legal := .inr c.code_legal
  info_zero h := absurd h c.code_ne_zero
  bq_cap := q.bq
  ib_cap := q.ib
  ob_cap := q.ob
  stack h := nomatch h
  tree h := nomatch h
  code h := nomatch h

theorem inv_clear (s : State) : Inv (clear s) :=
  .of_running ⟨rfl, rfl⟩ rfl ⟨withinCap_zero _, withinCap_zero _, withinCap_zero _⟩ rfl rfl (emptyTreeInv rfl rfl rfl)
    (.inl rfl)

/-! ## Writing the queues -/

theorem Inv.setBq (h : Inv s) {bq : Bits} (hb : withinCap s.caps.bq bq.length) : Inv { s with bq := bq } :=
  h.congr rfl ⟨hb, h.ib_cap, h.ob_cap⟩

/-- The bits that fit are pushed, and the command responds or raises QueueOverflow. -/
theorem Inv.pushBits (h : Inv s) (xs : Bits) (d : Data) : Inv (pushBits xs s (Machine.respond d)) := by
  rcases pushBits_cases xs s (Machine.respond d) with ⟨hroom, e⟩ | ⟨-, e⟩
  · rw [e]; exact .respond (h.setBq (h.bq_cap.append hroom))
  · rw [e]; exact .raise ⟨h.bq_cap.append_fitting xs, h.ib_cap, h.ob_cap⟩

/-! ## Each command keeps the invariant -/

theorem execNop_keeps_inv (h : Inv s) (he : execNop s = .next t) : Inv t := by
  rcases execNop_next he with ⟨-, rfl⟩ | ⟨-, rfl⟩
  · exact h.answerHalted
  · exact h.respond

theorem execClr_inv (he : execClr s = .next t) : Inv t := by
  rw [execClr_next he]; exact (inv_clear s).respond

theorem execLdf_keeps_inv {sym : Byte} {count : Weight} (h : Inv s) (he : execLdf sym count s = .next t) : Inv t := by
  rcases execLdf_next he with ⟨-, rfl⟩ | ⟨-, rfl⟩
  · exact h.answerHalted
  · exact .respond (h.congr rfl ⟨h.bq_cap, h.ib_cap, h.ob_cap⟩)

theorem execRdcsr_keeps_inv {n : Byte} (h : Inv s) (he : execRdcsr n s = .next t) : Inv t := by
  rcases execRdcsr_next he with ⟨-, -, rfl⟩ | ⟨d, -, -, rfl⟩ | ⟨-, -, rfl⟩
  · exact h.answerHalted
  · exact h.respond
  · exact .raise h.queuesFit

theorem execPutb_keeps_inv {byte : Byte} (h : Inv s) (he : execPutb byte s = .next t) : Inv t := by
  rcases execPutb_next he with ⟨-, rfl⟩ | ⟨-, hroom, rfl⟩ | ⟨-, -, rfl⟩
  · exact h.answerHalted
  · exact .respond (h.congr rfl ⟨h.bq_cap, h.ib_cap.append (xs := [byte]) hroom, h.ob_cap⟩)
  · exact .raise h.queuesFit

theorem execGetb_keeps_inv (h : Inv s) (he : execGetb s = .next t) : Inv t := by
  rcases execGetb_next he with ⟨-, rfl⟩ | ⟨-, -, rfl⟩ | ⟨-, v, rest, ho, rfl⟩
  · exact h.answerHalted
  · exact .raise h.queuesFit
  · exact .respond (h.congr rfl ⟨h.bq_cap, h.ib_cap, h.ob_cap.mono (by simp [ho])⟩)

/-- BUILD leaves one tree of 2L - 1 nodes and no code. -/
theorem execBuild_keeps_inv (h : Inv s) (he : execBuild s = .next t) : Inv t := by
  rcases execBuild_next he with ⟨-, rfl⟩ | ⟨-, -, rfl⟩ | ⟨-, -, b, -, rfl⟩ | ⟨hr, hne, b, hb, rfl⟩
  · exact h.answerHalted
  · exact .raise h.queuesFit
  · exact .raise ⟨h.bq_cap, h.ib_cap, h.ob_cap⟩
  · obtain ⟨x, hlive, hinv, hcount, hroot, -⟩ := buildTree_tree hne hb
    have hforest : Forest b.nodes [x.idx.toNat] := by simpa [hlive] using hinv.forest
    have hlen : b.nodes.length ≤ 511 := by have := presentSymbols_length s.freq; omega
    obtain ⟨hsp, hstk⟩ := h.stack hr
    refine Inv.respond (.of_running (h.running_regs hr) hr ⟨h.bq_cap, h.ib_cap, h.ob_cap⟩ hsp hstk ?_ (.inl rfl))
    exact Forest.treeInv hforest hroot hlen (by rw [← hroot, Nat.add_sub_cancel]) rfl

/-- GENCB leaves no code, or the codebook of the tree at ROOT. -/
theorem execGencb_keeps_inv (h : Inv s) (he : execGencb s = .next t) : Inv t := by
  rcases execGencb_next he with
    ⟨-, rfl⟩ | ⟨hr, -, rfl⟩ | ⟨hr, hroot, u, hu, ⟨code, hc, rfl⟩ | ⟨sym, code, -, rfl⟩⟩
  · exact h.answerHalted
  · obtain ⟨hsp, hstk⟩ := h.stack hr
    exact Inv.respond (.of_running (h.running_regs hr) hr ⟨h.bq_cap, h.ib_cap, h.ob_cap⟩ hsp hstk
      ((h.tree hr).congr rfl rfl rfl) (.inl rfl))
  · obtain ⟨hsp, hstk⟩ := h.stack hr
    have hcode : CodeInv { s with code := code } := .inr ⟨u, hroot, readTree_sound hu, (treeCodes_done hc).2.1⟩
    exact Inv.respond (.of_running (h.running_regs hr) hr ⟨h.bq_cap, h.ib_cap, h.ob_cap⟩ hsp hstk
      ((h.tree hr).congr rfl rfl rfl) hcode)
  · exact .raise ⟨h.bq_cap, h.ib_cap, h.ob_cap⟩

theorem execSert_keeps_inv (h : Inv s) (he : execSert s = .next t) : Inv t := by
  rcases execSert_next he with ⟨-, rfl⟩ | ⟨-, bits, rfl, -⟩
  · exact h.answerHalted
  · exact h.pushBits _ _

/-- DEST leaves the empty tree, or the one tree its tokens made, and no code. -/
theorem execDest_keeps_inv (h : Inv s) (he : execDest s = .next t) : Inv t := by
  rcases execDest_next he with ⟨-, rfl⟩ | ⟨hr, d, root, k, hd, rfl⟩ | ⟨-, c, d, hd, rfl⟩
  · exact h.answerHalted
  · obtain ⟨hstk, hbq, hnodes⟩ := destLoop_tree (DInv0 _) hd
    refine Inv.respond (.of_running (h.running_regs hr) hr ⟨h.bq_cap.mono hbq, h.ib_cap, h.ob_cap⟩ (by simp [hstk])
      hstk ?_ (.inl rfl))
    rcases hnodes with ⟨hnil, hroot⟩ | ⟨hforest, hlen, hroot⟩
    · exact emptyTreeInv hroot (by simp [hnil]) hnil
    · exact Forest.treeInv hforest hroot hlen (by simp) rfl
  · exact .raise ⟨h.bq_cap.mono (destLoop_raised (DInv0 _) hd).1, h.ib_cap, h.ob_cap⟩

theorem execEncs_keeps_inv {sym : Byte} (h : Inv s) (he : execEncs sym s = .next t) : Inv t := by
  rcases execEncs_next he with ⟨-, rfl⟩ | ⟨-, -, rfl⟩ | ⟨-, p, -, rfl⟩
  · exact h.answerHalted
  · exact .raise h.queuesFit
  · exact h.pushBits _ _

/-- The walk of DECS only takes bits off the head. -/
theorem descend_suffix {nodes : List Node} {bits rest : Bits} {i : Idx} {v : Byte}
    (h : descend nodes bits i = .symbol v rest) : rest <:+ bits := by
  induction bits generalizing i with
  | nil =>
    simp only [descend] at h
    split at h <;> cases h
    exact List.suffix_rfl
  | cons b bits ih =>
    simp only [descend] at h
    split at h
    · cases h
    · cases h; exact List.suffix_rfl
    · exact (ih h).trans (List.suffix_cons b bits)

theorem decodeSingle_keeps_inv (h : Inv s) (v : Byte) : Inv (decodeSingle v s) := by
  rcases decodeSingle_cases v s with ⟨-, e⟩ | ⟨rest, hb, e⟩ | ⟨rest, hb, e⟩
  · rw [e]; exact .raise h.queuesFit
  · rw [e]; exact .raise ⟨h.bq_cap.mono (by simp [hb]), h.ib_cap, h.ob_cap⟩
  · rw [e]; exact .respond (h.setBq (h.bq_cap.mono (by simp [hb])))

theorem execDecs_keeps_inv (h : Inv s) (he : execDecs s = .next t) : Inv t := by
  rcases execDecs_next he with ⟨-, rfl⟩ | ⟨-, -, rfl⟩ | ⟨-, -, v, w, -, rfl⟩ |
    ⟨-, -, -, ⟨v, rest, hd, rfl⟩ | ⟨-, rfl⟩⟩
  · exact h.answerHalted
  · exact .raise h.queuesFit
  · exact decodeSingle_keeps_inv h v
  · exact .respond (h.setBq (h.bq_cap.mono (descend_suffix hd).length_le))
  · exact .raise ⟨withinCap_zero _, h.ib_cap, h.ob_cap⟩

theorem execPack_keeps_inv (h : Inv s) (he : execPack s = .next t) : Inv t := by
  rcases execPack_next he with ⟨-, rfl⟩ | ⟨-, hroom, rfl⟩ | ⟨-, -, rfl⟩
  · exact h.answerHalted
  · exact .respond (h.congr rfl ⟨withinCap_zero _, h.ib_cap, h.ob_cap.append hroom⟩)
  · exact .raise ⟨h.bq_cap.mono (by simp), h.ib_cap, h.ob_cap.append_fitting _⟩

theorem execUnpack_keeps_inv (h : Inv s) (he : execUnpack s = .next t) : Inv t := by
  rcases execUnpack_next he with ⟨-, rfl⟩ | ⟨-, hroom, rfl⟩ | ⟨-, -, rfl⟩
  · exact h.answerHalted
  · exact .respond (h.congr rfl ⟨h.bq_cap.append hroom, withinCap_zero _, h.ob_cap⟩)
  · exact .raise ⟨h.bq_cap.append_fitting _, h.ib_cap.mono (by simp), h.ob_cap⟩

/-- Every command keeps the invariant. A token on its own does not (it leaves an entry on the stack), and no command
word encodes one. -/
theorem exec_keeps_inv {i : Instr} {w : CmdWord} (hi : encode i = .command w) (h : Inv s) (he : exec i s = .next t) :
    Inv t := by
  cases i with
  | nop => exact execNop_keeps_inv h he
  | clr => exact execClr_inv he
  | ldf sym count => exact execLdf_keeps_inv h he
  | rdcsr n => exact execRdcsr_keeps_inv h he
  | putb byte => exact execPutb_keeps_inv h he
  | getb => exact execGetb_keeps_inv h he
  | build => exact execBuild_keeps_inv h he
  | gencb => exact execGencb_keeps_inv h he
  | sert => exact execSert_keeps_inv h he
  | dest => exact execDest_keeps_inv h he
  | encs sym => exact execEncs_keeps_inv h he
  | decs => exact execDecs_keeps_inv h he
  | pack => exact execPack_keeps_inv h he
  | unpack => exact execUnpack_keeps_inv h he
  | tLeaf v => cases hi
  | tZero => cases hi

/-! ## Every command is answered -/

theorem whileRunning_answers {body : State → Out} (h : s.halt = false → ∃ t, body s = .next t) :
    ∃ t, whileRunning s body = .next t := by
  cases hs : s.halt with
  | true => exact ⟨_, whileRunning_halted body hs⟩
  | false => rw [whileRunning_running body hs]; exact h hs

/-- GENCB and SERT read the tree at ROOT, which T1 to T5 say is there (R54, R55). -/
theorem execGencb_answers (h : s.halt = false → TreeInv s) : ∃ t, execGencb s = .next t :=
  whileRunning_answers fun hr => by
    split
    · exact ⟨_, rfl⟩
    · next hroot =>
      obtain ⟨u, hu, -⟩ := currentTree_eq_some (h hr) hroot
      simp only [hu]
      split <;> exact ⟨_, rfl⟩

theorem execSert_answers (h : s.halt = false → TreeInv s) : ∃ t, execSert s = .next t :=
  whileRunning_answers fun hr => by
    split
    · exact ⟨_, rfl⟩
    · next hroot =>
      obtain ⟨u, hu, -⟩ := currentTree_eq_some (h hr) hroot
      simp only [hu]
      exact ⟨_, rfl⟩

/-- The walk of DECS stays on the tree at ROOT. -/
theorem execDecs_answers (h : s.halt = false → TreeInv s) : ∃ t, execDecs s = .next t :=
  whileRunning_answers fun hr => by
    split
    · exact ⟨_, rfl⟩
    · next hroot =>
      obtain ⟨u, -, hat⟩ := currentTree_eq_some (h hr) hroot
      have hwalk := descend_ne_broken hat s.bq
      cases hat with
      | leaf hn => simp only [hn]; exact ⟨_, rfl⟩
      | node hn _ _ =>
        simp only [hn]
        split
        · exact ⟨_, rfl⟩
        · exact ⟨_, rfl⟩
        · next hb => exact absurd hb hwalk

/-- No instruction stops in a state that meets T1 to T5 while it runs. -/
theorem exec_answers (i : Instr) (h : s.halt = false → TreeInv s) : ∃ t, exec i s = .next t := by
  cases i with
  | nop =>
    show ∃ t, execNop s = .next t
    exact whileRunning_answers fun _ => ⟨_, rfl⟩
  | clr => exact ⟨_, rfl⟩
  | ldf sym count =>
    show ∃ t, execLdf sym count s = .next t
    exact whileRunning_answers fun _ => ⟨_, rfl⟩
  | rdcsr n =>
    show ∃ t, execRdcsr n s = .next t
    unfold execRdcsr
    split
    · exact ⟨_, rfl⟩
    · split <;> exact ⟨_, rfl⟩
  | putb byte =>
    show ∃ t, execPutb byte s = .next t
    exact whileRunning_answers fun _ => by split <;> exact ⟨_, rfl⟩
  | getb =>
    show ∃ t, execGetb s = .next t
    exact whileRunning_answers fun _ => by split <;> exact ⟨_, rfl⟩
  | build =>
    show ∃ t, execBuild s = .next t
    refine whileRunning_answers fun _ => ?_
    split
    · exact ⟨_, rfl⟩
    · split <;> exact ⟨_, rfl⟩
  | gencb => exact execGencb_answers h
  | sert => exact execSert_answers h
  | dest =>
    show ∃ t, execDest s = .next t
    exact whileRunning_answers fun _ => by dsimp only; split <;> exact ⟨_, rfl⟩
  | encs sym =>
    show ∃ t, execEncs sym s = .next t
    exact whileRunning_answers fun _ => by split <;> exact ⟨_, rfl⟩
  | decs => exact execDecs_answers h
  | pack =>
    show ∃ t, execPack s = .next t
    exact whileRunning_answers fun _ => by dsimp only; split <;> exact ⟨_, rfl⟩
  | unpack =>
    show ∃ t, execUnpack s = .next t
    exact whileRunning_answers fun _ => by dsimp only; split <;> exact ⟨_, rfl⟩
  | tLeaf v =>
    show ∃ t, execTLeaf v s = .next t
    exact whileRunning_answers fun _ => ⟨_, rfl⟩
  | tZero =>
    show ∃ t, execTZero s = .next t
    exact whileRunning_answers fun _ => ⟨_, rfl⟩

/-! ## Every event of the host -/

/-- A word decodes to a command, never to a tree token (R66). -/
theorem decode_command {w : CmdWord} {i : Instr} (h : decode w = .ok i) : ∃ w', encode i = .command w' := by
  obtain ⟨r, hr, -, rfl⟩ := decode_ok_iff.1 h
  have rows : ∀ r ∈ opcodeTable, ∀ a c, ∃ w', encode (r.build a c) = .command w' := by simp [opcodeTable, encode]
  exact rows r (List.mem_of_find?_eq_some hr) _ _

/-- A word at the port, legal or not, is answered by a next state that meets the invariant. -/
theorem present_answers_inv (h : Inv s) (w : CmdWord) : ∃ t, present w s = .next t ∧ Inv t := by
  unfold present
  split
  · next i hd =>
    obtain ⟨w', hw⟩ := decode_command hd
    obtain ⟨t, ht⟩ := exec_answers i h.tree
    exact ⟨t, ht, exec_keeps_inv hw h ht⟩
  · cases hs : s.halt with
    | true => exact ⟨_, whileRunning_halted _ hs, h.answerHalted⟩
    | false => exact ⟨_, whileRunning_running _ hs, .raise h.queuesFit⟩

end

/-- Settles O15: the host does nothing, resets the block, or presents a word. -/
theorem everyStepKeepsTheInvariant : Obligations.EveryStepKeepsTheInvariant := by
  unfold Obligations.EveryStepKeepsTheInvariant
  intro s h
  have port (rest) : Inv { s with input := rest } := h.congr rfl ⟨h.bq_cap, h.ib_cap, h.ob_cap⟩
  unfold step advance
  split
  · exact ⟨s, rfl, h⟩
  · exact ⟨_, rfl, inv_clear _⟩
  · next w rest _ => exact present_answers_inv (port rest) w

/-- Settles O14: the reset state is what a clear leaves. -/
theorem resetStateMeetsTheInvariant : Obligations.ResetStateMeetsTheInvariant := inv_clear State.reset

/-- Settles O8: the reset event and CLR clear the block, and the cleared block's STATUS has EMPTY alone set. -/
theorem resetEventAndClrLeaveTheResetState : Obligations.ResetEventAndClrLeaveTheResetState := by
  refine ⟨?_, fun s => rfl, rfl, rfl, rfl, rfl, rfl, rfl, fun v => tableGet_replicate v 0,
    tableGet_noCodes, rfl, rfl, rfl, rfl, rfl, ?_⟩
  · intro s rest h
    unfold step advance
    rw [h]
    rfl
  · have hcbv : flagCbv State.reset = false := by
      rw [← Bool.not_eq_true, flagCbv_iff]
      simp
    simp [csr, statusReg, flagEmpty, flagSingle, hcbv]

end Sys2Proof.Machine
end

section
/-! PROOFS. The one tree of the node store (10_state.md R24) and the codes of a running block (R25, R116). -/

namespace Sys2Proof.Machine

/-! ## T1 to T5 as a forest of one tree -/

/-- T2 puts every child index in range (R54). -/
theorem lt_of_mem_childIndices {nodes : List Node} (t2 : ∀ i (h : i < nodes.length), childrenBelow i nodes[i] = true)
    {c : Nat} (hc : c ∈ childIndices nodes) : c < nodes.length := by
  obtain ⟨n, hn, hc⟩ := List.mem_flatMap.1 hc
  obtain ⟨i, hi, rfl⟩ := List.getElem_of_mem hn
  have hbelow := t2 i hi
  cases hnode : nodes[i] with
  | leaf v w => simp [hnode] at hc
  | internal l r w =>
    simp [hnode, childrenBelow] at hc hbelow
    omega

/-- ROOT, when it is not NONE, is the last node allocated (T1). -/
theorem TreeInv.root_add_one {s : State} (h : TreeInv s) (hr : s.root ≠ Config.noNode) :
    s.root.toNat + 1 = s.node.length := by
  have ht1 := h.t1
  split at ht1
  · exact absurd (BitVec.eq_of_toNat_eq ht1) hr
  · omega

/-- The converse of `Forest.treeInv`: under T1 to T3 the root is the one node that is no child. -/
theorem TreeInv.forest {s : State} (h : TreeInv s) (hr : s.root ≠ Config.noNode) : Forest s.node [s.root.toNat] := by
  have hroot := h.root_add_one hr
  refine ⟨h.t2, List.perm_iff_count.2 fun i => ?_⟩
  rw [List.count_append, List.count_singleton]
  by_cases hi : i < s.node.length
  · rw [h.t3 i hi, List.count_eq_one_of_mem List.nodup_range (List.mem_range.2 hi)]
    by_cases hlast : i + 1 = s.node.length
    · simp [hlast, show s.root.toNat = i by omega]
    · simp [hlast, show s.root.toNat ≠ i by omega]
  · have hchild : i ∉ childIndices s.node := fun hc => hi (lt_of_mem_childIndices h.t2 hc)
    rw [List.count_eq_zero_of_not_mem hchild, List.count_eq_zero_of_not_mem (by simpa using hi)]
    simp; omega

/-! ## Counting the nodes -/

/-- The number of nodes of the tree that stands at an index, 0 where none does. -/
def sizeAt (nodes : List Node) (i : Nat) : Nat :=
  ((readTree nodes nodes.length (BitVec.ofNat 9 i)).map Tree.size).getD 0

/-- If `f` of every node is one more than the sum of `f` over its children, then the sum of `f` over all nodes is their
number and the sum of `f` over all children. -/
theorem sum_range_eq_length_add_sum_childIndices {f : Nat → Nat} {nodes : List Node}
    (hf : ∀ i n, nodes[i]? = some n → f i = 1 + ((childIndices [n]).map f).sum) :
    ((List.range nodes.length).map f).sum = nodes.length + ((childIndices nodes).map f).sum := by
  induction nodes using List.reverseRecOn with
  | nil => rfl
  | append_singleton nodes n ih =>
    have hinit := ih fun i m hm => hf i m (by rw [List.getElem?_append_left (List.getElem?_eq_some_iff.1 hm).1, hm])
    have hlast := hf nodes.length n (by simp)
    rw [List.length_append, List.length_singleton, List.range_succ, List.map_append, List.sum_append, hinit,
      childIndices_append, List.map_append, List.sum_append]
    simp [hlast]
    omega

section
variable {nodes : List Node}

/-- Under T2, `sizeAt` is the size of whatever tree stands at the index. -/
theorem sizeAt_of_treeAt (t2 : ∀ i (h : i < nodes.length), childrenBelow i nodes[i] = true) {i : Idx} {t : Tree}
    (hi : i.toNat < nodes.length) (ht : TreeAt nodes i t) : sizeAt nodes i.toNat = t.size := by
  obtain ⟨u, hu⟩ := readTree_of_childrenBelow t2 nodes.length i hi hi
  simp [sizeAt, hu, (readTree_sound hu).unique ht]

/-- Under T2, a node's tree has one node more than its children's trees together. -/
theorem sizeAt_eq_one_add_children (t2 : ∀ i (h : i < nodes.length), childrenBelow i nodes[i] = true)
    (hlen : nodes.length ≤ 511) {i : Nat} {n : Node} (hn : nodes[i]? = some n) :
    sizeAt nodes i = 1 + ((childIndices [n]).map (sizeAt nodes)).sum := by
  obtain ⟨hi, rfl⟩ := List.getElem?_eq_some_iff.1 hn
  have hidx := toNat_ofNat_idx (n := i) (by omega)
  obtain ⟨t, ht⟩ := readTree_of_childrenBelow t2 nodes.length (BitVec.ofNat 9 i) (by omega) (by omega)
  have hat := readTree_sound ht
  have hsize := sizeAt_of_treeAt t2 (by omega) hat
  have hbelow := t2 i hi
  have hread : nodeAt nodes (BitVec.ofNat 9 i) = some nodes[i] := by rw [nodeAt, hidx, hn]
  rw [hidx] at hsize
  rw [hsize]
  cases hat with
  | leaf hnode =>
    have hnode := Option.some.inj (hread.symm.trans hnode)
    simp [hnode, childIndices, Tree.size_leaf]
  | node hnode hl hr =>
    have hnode := Option.some.inj (hread.symm.trans hnode)
    simp [hnode, childrenBelow] at hbelow
    simp [hnode, childIndices, Tree.size_node, sizeAt_of_treeAt t2 (by omega) hl, sizeAt_of_treeAt t2 (by omega) hr]
    omega

/-- A forest of one tree has as many nodes as that tree: in the sum of the sizes over all nodes every node but the root
is counted once as a child. -/
theorem Forest.size_eq_length {root : Idx} {t : Tree} (h : Forest nodes [root.toNat]) (hlen : nodes.length ≤ 511)
    (ht : TreeAt nodes root t) : t.size = nodes.length := by
  have hsum := sum_range_eq_length_add_sum_childIndices (f := sizeAt nodes)
    fun i n hn => sizeAt_eq_one_add_children h.below hlen hn
  have hperm := (h.perm.map (sizeAt nodes)).sum_eq
  have hroot := sizeAt_of_treeAt h.below (h.mem (List.mem_singleton.2 rfl)) ht
  rw [List.map_append, List.sum_append] at hperm
  simp at hperm
  omega

end

/-- The tree at ROOT has (NCNT + 1) / 2 leaves. -/
theorem TreeInv.leafCount_eq {s : State} (h : TreeInv s) (hr : s.root ≠ Config.noNode) {t : Tree}
    (ht : TreeAt s.node s.root t) : 2 * t.leafCount = s.node.length + 1 := by
  have hsize := (h.forest hr).size_eq_length h.bound ht
  have hpos := t.leafCount_pos
  unfold Tree.size at hsize
  omega

/-- At most 256 leaves, since NODE has 511 entries. -/
theorem TreeInv.leafCount_le {s : State} (h : TreeInv s) (hr : s.root ≠ Config.noNode) {t : Tree}
    (ht : TreeAt s.node s.root t) : t.leafCount ≤ 256 := by
  have hcount := h.leafCount_eq hr ht
  have hbound : s.node.length ≤ 511 := h.bound
  omega

/-- Settles O16: T2 makes the walk from ROOT end, T3 makes it meet every node once. -/
theorem nodeStoreHoldsOneFiniteTree : Obligations.NodeStoreHoldsOneFiniteTree := by
  unfold Obligations.NodeStoreHoldsOneFiniteTree
  intro s h hr
  obtain ⟨t, -, ht⟩ := currentTree_eq_some h hr
  exact ⟨t, ht, h.leafCount_eq hr ht, h.leafCount_le hr ht⟩

/-! ## The codes of a tree -/

/-- A path is shorter than the number of leaves: each step leaves a subtree behind. -/
theorem CodePath.length_lt_leafCount {t : Tree} {p : Bits} {v : Byte} (h : CodePath t p v) :
    p.length < t.leafCount := by
  induction h with
  | here => exact Nat.zero_lt_one
  | @left l r p v _ ih => have := r.leafCount_pos; simp [Tree.leafCount]; omega
  | @right l r p v _ ih => have := l.leafCount_pos; simp [Tree.leafCount]; omega

/-- A code is not empty, and at most as long as the tree has leaves less one, or one bit (R113). -/
theorem IsCode.length_bounds {t : Tree} {p : Bits} {v : Byte} (h : IsCode t p v) (ht : t.leafCount ≤ 256) :
    1 ≤ p.length ∧ p.length ≤ 255 := by
  cases t with
  | leaf u => obtain ⟨rfl, -⟩ := h; decide
  | node l r =>
    have hlt := CodePath.length_lt_leafCount h
    refine ⟨?_, by omega⟩
    cases h <;> simp

/-- No code of a tree begins the code of another symbol (R116). -/
theorem IsCode.symbol_unique {t : Tree} {p q : Bits} {u v : Byte} (hp : IsCode t p u) (hq : IsCode t q v)
    (h : p <+: q) : u = v := by
  cases t with
  | leaf x => exact hp.2.trans hq.2.symm
  | node l r => exact (CodePath.prefix_free hp hq h).2

/-- Settles O17: a valid entry of CODE is a code of the tree at ROOT. -/
theorem validCodesArePrefixFree : Obligations.ValidCodesArePrefixFree := by
  unfold Obligations.ValidCodesArePrefixFree
  intro s h hrun u v p q hp hq
  rcases h.code hrun with hnone | ⟨t, hroot, ht, hbook⟩
  · simp [hnone] at hp
  · have hpu := (hbook u p).1 hp
    have hqv := (hbook v q).1 hq
    exact ⟨fun hne hpre => hne (hpu.symbol_unique hqv hpre), hpu.length_bounds ((h.tree hrun).leafCount_le hroot ht)⟩

end Sys2Proof.Machine
end

section
/-! PROOFS. Which instructions write what: 20_memory.md R40, one row per instruction, and its columns read back. -/

namespace Sys2Proof.Machine

/-! ## The parts of the state and their writers -/

/-- The parts of the state whose writers the spec lists: the storage spaces of R40, with the registers that go with them
(ROOT and NCNT with NODE, SP with STK) and ACT (R27). -/
inductive StatePart where
  | freq
  | tree
  | stack
  | act
  | code
  | bq
  | ib
  | ob

/-- R40's "written by" column by instruction, with the pops of R46 and the reset values of CLR (R82). A tree token
writes the deserializer's part of the state (R125, R126). -/
def writtenBy : Instr → List StatePart
  | .nop => []
  | .clr => [.freq, .tree, .stack, .act, .code, .bq, .ib, .ob]
  | .ldf _ _ => [.freq]
  | .rdcsr _ => []
  | .putb _ => [.ib]
  | .getb => [.ob]
  | .build => [.tree, .act, .code]
  | .gencb => [.code]
  | .sert => [.bq]
  | .dest => [.tree, .stack, .code, .bq]
  | .encs _ => [.bq]
  | .decs => [.bq]
  | .pack => [.bq, .ob]
  | .unpack => [.bq, .ib]
  | .tLeaf _ => [.tree, .stack, .bq]
  | .tZero => [.tree, .stack, .bq]

/-- `t` is `s` but for the listed parts, the fault registers and the responses. No instruction writes the capacities or
what the host will do. -/
structure KeepsBut (ps : List StatePart) (s t : State) : Prop where
  freq : .freq ∉ ps → t.freq = s.freq
  tree : .tree ∉ ps → t.root = s.root ∧ t.ncnt = s.ncnt ∧ t.node = s.node
  stack : .stack ∉ ps → t.sp = s.sp ∧ t.stk = s.stk
  act : .act ∉ ps → t.act = s.act
  code : .code ∉ ps → t.code = s.code
  bq : .bq ∉ ps → t.bq = s.bq
  ib : .ib ∉ ps → t.ib = s.ib
  ob : .ob ∉ ps → t.ob = s.ob
  caps : t.caps = s.caps
  input : t.input = s.input

/-! ## What the shared operations keep -/

section
variable {ps : List StatePart} {s u : State}

theorem KeepsBut.refl (ps : List StatePart) (s : State) : KeepsBut ps s s := by constructor <;> simp

/-- A response writes none of the parts. -/
theorem KeepsBut.answer (h : KeepsBut ps s u) (r : Response) : KeepsBut ps s (answer r u) := { h with }

theorem KeepsBut.respond (h : KeepsBut ps s u) (d : Data) : KeepsBut ps s (respond d u) := h.answer _

/-- A fault writes the fault registers, which are none of the parts. -/
theorem KeepsBut.raise (h : KeepsBut ps s u) (c : Cause) (info : BitVec 32) : KeepsBut ps s (raise c info u) :=
  { h with }

theorem KeepsBut.answerHalted (ps : List StatePart) (s : State) : KeepsBut ps s (answerHalted s) := (refl ps s).answer _

theorem KeepsBut.setBq (s : State) (bq : Bits) : KeepsBut [.bq] s { s with bq := bq } := by constructor <;> simp

theorem KeepsBut.setCode (s : State) (code : Table (Option Bits)) : KeepsBut [.code] s { s with code := code } := by
  constructor <;> simp

/-- Pushing bits writes BQ, whether all of them find room or not. -/
theorem KeepsBut.pushBits (xs : Bits) (s : State) (d : Data) :
    KeepsBut [.bq] s (pushBits xs s (Machine.respond d)) := by
  rcases pushBits_cases xs s (Machine.respond d) with ⟨-, e⟩ | ⟨-, e⟩ <;> rw [e]
  · exact (setBq s _).respond _
  · exact (setBq s _).raise _ _

theorem KeepsBut.decodeSingle (v : Byte) (s : State) : KeepsBut [.bq] s (decodeSingle v s) := by
  rcases decodeSingle_cases v s with ⟨-, e⟩ | ⟨rest, -, e⟩ | ⟨rest, -, e⟩ <;> rw [e]
  · exact (refl _ s).raise _ _
  · exact (setBq s rest).raise _ _
  · exact (setBq s rest).respond _

theorem KeepsBut.withDeser (s : State) (d : Deser) : KeepsBut [.tree, .stack, .bq] s (withDeser s d) := by
  constructor <;> simp

theorem KeepsBut.tokenState (s : State) (e : TokenEnd) : KeepsBut [.tree, .stack, .bq] s (tokenState s e) := by
  cases e with
  | more d => exact withDeser s d
  | stop d root => constructor <;> simp [Machine.tokenState]
  | raised c d => exact (withDeser s d).raise c 0

end

/-! ## What each instruction keeps -/

/-- Every instruction, CLR and the halted answers included, writes the parts R40 lists for it alone. -/
theorem exec_keepsBut {i : Instr} {s t : State} (h : exec i s = .next t) : KeepsBut (writtenBy i) s t := by
  cases i with
  | nop =>
    rcases execNop_next h with ⟨-, rfl⟩ | ⟨-, rfl⟩
    · exact .answerHalted _ s
    · exact (KeepsBut.refl _ s).respond _
  | clr =>
    rw [execClr_next h]
    constructor <;> simp [writtenBy]
  | ldf sym count =>
    rcases execLdf_next h with ⟨-, rfl⟩ | ⟨-, rfl⟩
    · exact .answerHalted _ s
    · constructor <;> simp [writtenBy]
  | rdcsr n =>
    rcases execRdcsr_next h with ⟨-, -, rfl⟩ | ⟨d, -, -, rfl⟩ | ⟨-, -, rfl⟩
    · exact .answerHalted _ s
    · exact (KeepsBut.refl _ s).respond d
    · exact (KeepsBut.refl _ s).raise _ _
  | putb byte =>
    rcases execPutb_next h with ⟨-, rfl⟩ | ⟨-, -, rfl⟩ | ⟨-, -, rfl⟩
    · exact .answerHalted _ s
    · constructor <;> simp [writtenBy]
    · exact (KeepsBut.refl _ s).raise _ _
  | getb =>
    rcases execGetb_next h with ⟨-, rfl⟩ | ⟨-, -, rfl⟩ | ⟨-, v, rest, -, rfl⟩
    · exact .answerHalted _ s
    · exact (KeepsBut.refl _ s).raise _ _
    · constructor <;> simp [writtenBy]
  | build =>
    rcases execBuild_next h with ⟨-, rfl⟩ | ⟨-, -, rfl⟩ | ⟨-, -, b, -, rfl⟩ | ⟨-, -, b, -, rfl⟩
    · exact .answerHalted _ s
    · exact (KeepsBut.refl _ s).raise _ _
    · constructor <;> simp [writtenBy]
    · constructor <;> simp [writtenBy]
  | gencb =>
    rcases execGencb_next h with ⟨-, rfl⟩ | ⟨-, -, rfl⟩ | ⟨-, -, u, -, ⟨code, -, rfl⟩ | ⟨sym, code, -, rfl⟩⟩
    · exact .answerHalted _ s
    · exact (KeepsBut.setCode s _).respond _
    · exact (KeepsBut.setCode s code).respond _
    · exact (KeepsBut.setCode s code).raise _ _
  | sert =>
    rcases execSert_next h with ⟨-, rfl⟩ | ⟨-, bits, rfl, -⟩
    · exact .answerHalted _ s
    · exact .pushBits bits s _
  | dest =>
    rcases execDest_next h with ⟨-, rfl⟩ | ⟨-, d, root, k, -, rfl⟩ | ⟨-, c, d, -, rfl⟩
    · exact .answerHalted _ s
    · constructor <;> simp [writtenBy]
    · constructor <;> simp [writtenBy]
  | encs sym =>
    rcases execEncs_next h with ⟨-, rfl⟩ | ⟨-, -, rfl⟩ | ⟨-, p, -, rfl⟩
    · exact .answerHalted _ s
    · exact (KeepsBut.refl _ s).raise _ _
    · exact .pushBits p s _
  | decs =>
    rcases execDecs_next h with ⟨-, rfl⟩ | ⟨-, -, rfl⟩ | ⟨-, -, v, w, -, rfl⟩ |
      ⟨-, -, -, ⟨v, rest, -, rfl⟩ | ⟨-, rfl⟩⟩
    · exact .answerHalted _ s
    · exact (KeepsBut.refl _ s).raise _ _
    · exact .decodeSingle v s
    · exact (KeepsBut.setBq s rest).respond _
    · exact (KeepsBut.setBq s []).raise _ _
  | pack =>
    rcases execPack_next h with ⟨-, rfl⟩ | ⟨-, -, rfl⟩ | ⟨-, -, rfl⟩
    · exact .answerHalted _ s
    · constructor <;> simp [writtenBy]
    · constructor <;> simp [writtenBy]
  | unpack =>
    rcases execUnpack_next h with ⟨-, rfl⟩ | ⟨-, -, rfl⟩ | ⟨-, -, rfl⟩
    · exact .answerHalted _ s
    · constructor <;> simp [writtenBy]
    · constructor <;> simp [writtenBy]
  | tLeaf v =>
    rcases execTLeaf_next h with ⟨-, rfl⟩ | ⟨-, rfl⟩
    · exact .answerHalted _ s
    · exact .tokenState s _
  | tZero =>
    rcases execTZero_next h with ⟨-, rfl⟩ | ⟨-, rfl⟩
    · exact .answerHalted _ s
    · exact .tokenState s _

/-! ## The writers of each part -/

section
variable {i : Instr}

theorem freq_mem_writtenBy : .freq ∈ writtenBy i ↔ i = .clr ∨ ∃ sym count, i = .ldf sym count := by
  cases i <;> simp [writtenBy]

theorem tree_mem_writtenBy :
    .tree ∈ writtenBy i ↔ i = .clr ∨ i = .build ∨ i = .dest ∨ (∃ v, i = .tLeaf v) ∨ i = .tZero := by
  cases i <;> simp [writtenBy]

theorem stack_mem_writtenBy : .stack ∈ writtenBy i ↔ i = .clr ∨ i = .dest ∨ (∃ v, i = .tLeaf v) ∨ i = .tZero := by
  cases i <;> simp [writtenBy]

theorem act_mem_writtenBy : .act ∈ writtenBy i ↔ i = .clr ∨ i = .build := by
  cases i <;> simp [writtenBy]

theorem code_mem_writtenBy : .code ∈ writtenBy i ↔ i = .clr ∨ i = .gencb ∨ i = .build ∨ i = .dest := by
  cases i <;> simp [writtenBy]

theorem bq_mem_writtenBy :
    .bq ∈ writtenBy i ↔ i = .clr ∨ i = .sert ∨ (∃ v, i = .encs v) ∨ i = .unpack ∨ i = .dest ∨ i = .decs ∨ i = .pack ∨
      (∃ v, i = .tLeaf v) ∨ i = .tZero := by
  cases i <;> simp [writtenBy]

theorem ib_mem_writtenBy : .ib ∈ writtenBy i ↔ i = .clr ∨ (∃ b, i = .putb b) ∨ i = .unpack := by
  cases i <;> simp [writtenBy]

theorem ob_mem_writtenBy : .ob ∈ writtenBy i ↔ i = .clr ∨ i = .pack ∨ i = .getb := by
  cases i <;> simp [writtenBy]

end

/-! ## The codebook after BUILD and DEST (R51) -/

/-- BUILD clears CODE unless it finds no symbol, and then it halts the block. -/
theorem execBuild_code {s t : State} (h : execBuild s = .next t) (hs : s.halt = false) (ht : t.halt = false) :
    t.code = noCodes := by
  rcases execBuild_next h with ⟨hh, -⟩ | ⟨-, -, rfl⟩ | ⟨-, -, b, -, rfl⟩ | ⟨-, -, b, -, rfl⟩
  · rw [hs] at hh; cases hh
  · cases ht
  · rfl
  · rfl

/-- DEST clears CODE first, so that a faulting one has cleared it too. -/
theorem execDest_code {s t : State} (h : execDest s = .next t) (hs : s.halt = false) : t.code = noCodes := by
  rcases execDest_next h with ⟨hh, -⟩ | ⟨-, d, root, k, -, rfl⟩ | ⟨-, c, d, -, rfl⟩
  · rw [hs] at hh; cases hh
  · rfl
  · rfl

/-! ## The statements -/

/-- Settles O18: FREQ is in the rows of LDF and CLR alone. -/
theorem onlyLdfAndClrWriteFreq : Obligations.OnlyLdfAndClrWriteFreq := by
  unfold Obligations.OnlyLdfAndClrWriteFreq
  intro i s t h hclr hldf
  exact (exec_keepsBut h).freq (by simp [freq_mem_writtenBy, hclr, hldf])

/-- Settles O19: the rows of R40 that hold the tree, the stack and ACT. -/
theorem onlyBuildDestAndClrWriteTheTree : Obligations.OnlyBuildDestAndClrWriteTheTree := by
  unfold Obligations.OnlyBuildDestAndClrWriteTheTree
  intro i s t h hclr
  have keeps := exec_keepsBut h
  refine ⟨fun hbuild hdest hleaf hzero => ?_, fun hdest hleaf hzero => ?_, fun hbuild => ?_⟩
  · exact keeps.tree (by simp [tree_mem_writtenBy, *])
  · exact keeps.stack (by simp [stack_mem_writtenBy, *])
  · exact keeps.act (by simp [act_mem_writtenBy, *])

/-- Settles O20: the rows of R40 that hold CODE, and BUILD and DEST clear it before they respond. -/
theorem onlyGencbBuildDestAndClrWriteCode : Obligations.OnlyGencbBuildDestAndClrWriteCode := by
  unfold Obligations.OnlyGencbBuildDestAndClrWriteCode
  intro i s t h
  constructor
  · intro hclr hgencb hbuild hdest
    exact (exec_keepsBut h).code (by simp [code_mem_writtenBy, *])
  · rintro (rfl | rfl) hs ht v
    · rw [execBuild_code h hs ht, tableGet_noCodes]
    · rw [execDest_code h hs, tableGet_noCodes]

/-- Settles O21: the rows of R40 that hold the queues; the capacities and the port are in none. -/
theorem onlyTheirCommandsChangeTheQueues : Obligations.OnlyTheirCommandsChangeTheQueues := by
  unfold Obligations.OnlyTheirCommandsChangeTheQueues
  intro i s t h
  have keeps := exec_keepsBut h
  refine ⟨keeps.caps, keeps.input, fun hclr => ⟨?_, ?_, ?_⟩⟩
  · intro hsert hencs hunpack hdest hdecs hpack hleaf hzero
    exact keeps.bq (by simp [bq_mem_writtenBy, *])
  · intro hputb hunpack
    exact keeps.ib (by simp [ib_mem_writtenBy, *])
  · intro hpack hgetb
    exact keeps.ob (by simp [ob_mem_writtenBy, *])

end Sys2Proof.Machine
end

section
/-! PROOFS. The size header of an artifact (20_memory.md R41, 30_encoding.md R69, 47_host_sequences.md R162 to R164). -/

namespace Sys2Proof.Machine

/-- Bit `k` of the byte that begins at bit `j` of a number is the number's bit `j + k`. -/
theorem getLsbD_ofNat_div_two_pow (n j : Nat) {k : Nat} (hk : k < 8) :
    (BitVec.ofNat 8 (n / 2 ^ j)).getLsbD k = n.testBit (j + k) := by
  rw [BitVec.getLsbD_ofNat, Nat.testBit_div_two_pow, decide_eq_true hk, Bool.true_and, Nat.add_comm]

/-- The four header bytes are the digits of the length in base 256. -/
theorem headerLength_digits {n : Nat} (h : n < 2 ^ 32) :
    headerLength (BitVec.ofNat 8 n) (BitVec.ofNat 8 (n / 2 ^ 8)) (BitVec.ofNat 8 (n / 2 ^ 16))
      (BitVec.ofNat 8 (n / 2 ^ 24)) = n := by
  simp only [headerLength, BitVec.toNat_ofNat]
  omega

/-- An artifact shorter than the header is refused before any command is issued (R163). -/
theorem hdecode_of_short {a : List Byte} (s : State) (h : a.length < 4) : hdecode a s = .error .malformedHeader := by
  unfold hdecode
  split
  · simp only [List.length_cons] at h; omega
  · rfl

/-- An input whose length does not fit the header is refused before any command is issued (R164). -/
theorem hencode_of_long {d : List Byte} (s : State) (h : 2 ^ 32 ≤ d.length) : hencode d s = .error .inputTooLong :=
  if_pos h

/-- Settles O50: the header's bytes are the length's digits, and each of their bits is one of the length's. -/
theorem sizeHeaderRoundTrips : Obligations.SizeHeaderRoundTrips := by
  unfold Obligations.SizeHeaderRoundTrips
  refine ⟨fun n hn => ⟨_, _, _, _, rfl, headerLength_digits hn, fun k hk => ?_⟩, fun a s h => hdecode_of_short s h,
    fun d s h => hencode_of_long s h⟩
  have low : (BitVec.ofNat 8 n).getLsbD k = n.testBit k := by simpa using getLsbD_ofNat_div_two_pow n 0 hk
  exact ⟨low, getLsbD_ofNat_div_two_pow n 8 hk, getLsbD_ofNat_div_two_pow n 16 hk, getLsbD_ofNat_div_two_pow n 24 hk⟩

end Sys2Proof.Machine
end

section
/-! PROOFS. The two directions of the encoding (30_encoding.md R60 to R71): the opcode table's rows by mask and match,
the words and tokens an instruction stands for, and which words are illegal. -/

namespace Sys2Proof

/-! ## A word and its fields (R60) -/

theorem wordOf_injective : Function.Injective wordOf := Function.LeftInverse.injective fieldsOf_wordOf

/-- The fields a command does not use are 0 (R60). -/
theorem CmdFields.unusedZero_iff {f : CmdFields} {u v : Bool} :
    f.unusedZero u v = true ↔ (u = false → f.arg8 = 0) ∧ (v = false → f.arg32 = 0) := by
  cases u <;> cases v <;> simp [unusedZero]

/-- Mask and match (R70) compare the opcode and every field the row does not use. -/
theorem Row.fits_iff {r : Row} {w : CmdWord} : w &&& r.mask = r.pattern ↔
    r.opcode = (fieldsOf w).opcode ∧ (fieldsOf w).unusedZero r.usesArg8 r.usesArg32 = true := by
  have ones8 (b : Byte) : b &&& 0xFF#8 = b := BitVec.and_allOnes
  have ones32 (c : Weight) : c &&& 0xFFFFFFFF#32 = c := BitVec.and_allOnes
  conv_lhs => rw [← wordOf_fieldsOf w]
  rw [Row.mask, Row.pattern, Laws.EncodesItsRow.wordOf_and, wordOf_injective.eq_iff, CmdFields.unusedZero_iff]
  cases r.usesArg8 <;> cases r.usesArg32 <;> simp [ones8, ones32, eq_comm]

/-! ## The rows of the table (R66) -/

theorem opcodeTable_opcodes_nodup : (opcodeTable.map Row.opcode).Nodup := by decide

/-- The row an opcode selects is the one that has it. -/
theorem rowOf_eq_some_iff {o : Byte} {r : Row} : rowOf o = some r ↔ r ∈ opcodeTable ∧ r.opcode = o := by
  constructor
  · intro h
    exact ⟨List.mem_of_find?_eq_some h, by simpa using List.find?_some h⟩
  · rintro ⟨hr, rfl⟩
    cases h : rowOf r.opcode with
    | none => simpa using List.find?_eq_none.1 h r hr
    | some q =>
      have hq : q.opcode = r.opcode := by simpa using List.find?_some h
      rw [List.inj_on_of_nodup_map opcodeTable_opcodes_nodup (List.mem_of_find?_eq_some h) hr hq]

/-- The opcodes with a row are those R66 calls defined. -/
theorem rowOf_eq_none_iff {f : CmdFields} : rowOf f.opcode = none ↔ f.opcodeDefined = false := by
  simp [rowOf, opcodeTable, CmdFields.opcodeDefined, ← BitVec.toNat_inj]
  omega

/-- The word of a row for given operands: a field the row does not use is 0 (R60). -/
def Row.word (r : Row) (a : Byte) (c : Weight) : CmdWord :=
  wordOf ⟨r.opcode, if r.usesArg8 then a else 0, if r.usesArg32 then c else 0⟩

/-- The encoder writes the row's word. -/
theorem encode_build {r : Row} (hr : r ∈ opcodeTable) (a : Byte) (c : Weight) :
    encode (r.build a c) = .command (r.word a c) := by
  have rows : ∀ r ∈ opcodeTable, encode (r.build a c) = .command (r.word a c) := by
    simp [opcodeTable, encode, Row.word]
  exact rows r hr

/-- A row's command does not depend on the fields the row does not use. -/
theorem build_used {r : Row} (hr : r ∈ opcodeTable) (a : Byte) (c : Weight) :
    r.build (if r.usesArg8 then a else 0) (if r.usesArg32 then c else 0) = r.build a c := by
  have rows : ∀ r ∈ opcodeTable,
      r.build (if r.usesArg8 then a else 0) (if r.usesArg32 then c else 0) = r.build a c := by
    simp [opcodeTable]
  exact rows r hr

/-- An instruction that is encoded as a command word is the command of a row (R66). -/
theorem row_of_encode_command {i : Instr} {w : CmdWord} (h : encode i = .command w) :
    ∃ r ∈ opcodeTable, ∃ a c, i = r.build a c := by
  cases i
  case tLeaf v => cases h
  case tZero => cases h
  all_goals simp [opcodeTable]

/-! ## Decoding a command word (R70, R71) -/

/-- The decoder answers the row that fits. -/
theorem decode_ok_iff_fits {w : CmdWord} {i : Instr} : decode w = .ok i ↔
    ∃ r ∈ opcodeTable, w &&& r.mask = r.pattern ∧ i = r.build (fieldsOf w).arg8 (fieldsOf w).arg32 := by
  simp only [decode_ok_iff, rowOf_eq_some_iff, Row.fits_iff, and_assoc, eq_comm (a := i)]

/-- The decoder inverts a row's word. -/
theorem decode_word {r : Row} (hr : r ∈ opcodeTable) (a : Byte) (c : Weight) :
    decode (r.word a c) = .ok (r.build a c) := by
  rw [decode_ok_iff, Row.word, fieldsOf_wordOf]
  refine ⟨r, rowOf_eq_some_iff.2 ⟨hr, rfl⟩, ?_, build_used hr a c⟩
  rw [CmdFields.unusedZero_iff]
  constructor <;> intro h <;> simp [h]

theorem decode_of_encode {i : Instr} {w : CmdWord} (h : encode i = .command w) : decode w = .ok i := by
  obtain ⟨r, hr, a, c, rfl⟩ := row_of_encode_command h
  rw [encode_build hr] at h
  cases h
  exact decode_word hr a c

/-- A word that fits a row is the row's word for its own operands: its bits are opcode, operands and zeros. -/
theorem Row.word_of_fits {r : Row} {w : CmdWord} (h : w &&& r.mask = r.pattern) :
    r.word (fieldsOf w).arg8 (fieldsOf w).arg32 = w := by
  obtain ⟨hop, hzero⟩ := Row.fits_iff.1 h
  obtain ⟨h8, h32⟩ := CmdFields.unusedZero_iff.1 hzero
  have fields : (⟨r.opcode, if r.usesArg8 then (fieldsOf w).arg8 else 0,
      if r.usesArg32 then (fieldsOf w).arg32 else 0⟩ : CmdFields) = fieldsOf w := by
    rw [hop, ite_eq_left_iff.2 fun hu => (h8 (by simpa using hu)).symm,
      ite_eq_left_iff.2 fun hu => (h32 (by simpa using hu)).symm]
  rw [Row.word, fields, wordOf_fieldsOf]

/-- A word is refused when it has no decoding. -/
theorem decode_error_iff_not_ok {w : CmdWord} : (∃ e, decode w = .error e) ↔ ∀ i, decode w ≠ .ok i := by
  cases decode w <;> simp

/-- A word is illegal when it fits no row (R71). -/
theorem decode_error_iff_no_row {w : CmdWord} :
    (∃ e, decode w = .error e) ↔ ∀ r ∈ opcodeTable, w &&& r.mask ≠ r.pattern := by
  simp only [decode_error_iff_not_ok, ne_eq, decode_ok_iff_fits]
  constructor
  · intro h r hr fits
    exact h _ ⟨r, hr, fits, rfl⟩
  · rintro h i ⟨r, hr, fits, -⟩
    exact h r hr fits

/-- A word is illegal when its opcode is reserved, or a field its row does not use is not 0 (R71). -/
theorem decode_error_iff_reserved_or_unused {w : CmdWord} : (∃ e, decode w = .error e) ↔
    ((fieldsOf w).opcodeDefined = false ∨
      ∃ r ∈ opcodeTable, r.opcode = (fieldsOf w).opcode ∧ (fieldsOf w).unusedZero r.usesArg8 r.usesArg32 = false) := by
  rw [← rowOf_eq_none_iff, decode_error_iff_not_ok]
  simp only [ne_eq, decode_ok_iff, ← and_assoc, ← rowOf_eq_some_iff]
  cases rowOf (fieldsOf w).opcode <;> simp

/-- No word fits two rows: rows that fit have the word's opcode, and no two rows have the same. -/
theorem length_fitting_rows_le_one (w : CmdWord) :
    (opcodeTable.filter fun r => w &&& r.mask == r.pattern).length ≤ 1 := by
  set rows := opcodeTable.filter fun r => w &&& r.mask == r.pattern with hrows
  have nodup : (rows.map Row.opcode).Nodup := opcodeTable_opcodes_nodup.sublist (List.filter_sublist.map _)
  have same : ∀ o ∈ rows.map Row.opcode, o = (fieldsOf w).opcode := by
    simp only [hrows, List.mem_map, List.mem_filter, beq_iff_eq]
    rintro o ⟨r, ⟨-, fits⟩, rfl⟩
    exact (Row.fits_iff.1 fits).1
  rw [List.eq_replicate_of_mem same, List.nodup_replicate] at nodup
  simpa using nodup

/-! ## Tree tokens (R62, R68) -/

/-- The reader of tokens takes a token's bits and leaves what follows. -/
theorem decodeToken_encode {i : Instr} {bits : Bits} (h : encode i = .token bits) (rest : Bits) :
    decodeToken (bits ++ rest) = .ok (i, rest) := by
  cases i <;> cases h
  case tLeaf v =>
    show Except.ok (Instr.tLeaf (byteOfBits _ _ _ _ _ _ _ _), rest) = _
    rw [byteOfBits_byteBits]
  case tZero => rfl

/-- What was read as a token are the token's bits. -/
theorem encode_of_decodeToken {bits rest : Bits} {i : Instr} (h : decodeToken bits = .ok (i, rest)) :
    ∃ read, encode i = .token read ∧ bits = read ++ rest := by
  unfold decodeToken at h
  split at h <;> cases h
  · exact ⟨[false], rfl, rfl⟩
  · exact ⟨_, rfl, by simp⟩

/-! ## The statements -/

/-- Settles O2: a command is some row's, and the row's word decodes to it; a token's bits are read back. -/
theorem decodingAnEncodedInstrGivesItBack : Obligations.DecodingAnEncodedInstrGivesItBack := by
  unfold Obligations.DecodingAnEncodedInstrGivesItBack
  refine fun i => ⟨?_, fun bits rest h => decodeToken_encode h rest⟩
  cases h : encode i with
  | command w => simp [decodeEncoded, decode_of_encode h, Except.toOption]
  | token bits =>
    have read := decodeToken_encode h []
    rw [List.append_nil] at read
    simp [decodeEncoded, read]

/-- Settles O3: the word is the one the encoder writes for the row it fits. -/
theorem encodingADecodedWordGivesItBack : Obligations.EncodingADecodedWordGivesItBack := by
  unfold Obligations.EncodingADecodedWordGivesItBack
  refine ⟨fun w i h => ?_, fun bits i rest h => encode_of_decodeToken h⟩
  obtain ⟨r, hr, fits, rfl⟩ := decode_ok_iff_fits.1 h
  rw [encode_build hr, Row.word_of_fits fits]

/-- Settles O4: the opcode selects the row, mask and match say the same, and the opcodes differ. -/
theorem decoderSelectsTheMatchingRow : Obligations.DecoderSelectsTheMatchingRow :=
  ⟨fun _ _ => decode_ok_iff_fits, length_fitting_rows_le_one⟩

/-- Settles O1: each word and token is read as the table says. -/
theorem specWordsDecode : Obligations.SpecWordsDecode := by
  unfold Obligations.SpecWordsDecode
  decide

end Sys2Proof
end

section
/-! PROOFS. A command word at the port (40_host_port.md R80): the one response it gets (R61), and what an illegal word
does (R71). -/

namespace Sys2Proof.Machine

/-! ## A step with a word at the port -/

theorem step_word {s : State} {w : CmdWord} {rest : List PortEvent} (h : s.input = .word w :: rest) :
    step s = present w { s with input := rest } := by
  simp only [step, advance, h]

theorem present_ok {w : CmdWord} {i : Instr} (h : decode w = .ok i) (s : State) : present w s = exec i s := by
  simp only [present, h]

/-- An illegal word raises IllegalCommand with its opcode byte, under the halted test (R71). -/
theorem present_error {w : CmdWord} {e : DecodeError} (h : decode w = .error e) (s : State) :
    present w s = whileRunning s fun s => .next (raise .illegalCommand ((fieldsOf w).opcode.setWidth 32) s) := by
  simp only [present, h]

/-- RDCSR of a reserved CSR number while running (R71, R86). -/
theorem exec_rdcsr_reserved {s : State} {n : Byte} (hr : s.halt = false) (hn : 8 < n.toNat) :
    exec (.rdcsr n) s = .next (raise .illegalCommand 3 s) := by
  have reserved : csr s n = none := by
    rw [← Option.not_isSome_iff_eq_none, csr_isSome_iff]
    omega
  show execRdcsr n s = _
  simp [execRdcsr, hr, reserved]

/-! ## The three forms of a response -/

/-- How a word is answered (R61): normally, with a fault of a running block, or not executed by a halted one. `u` is
what the command has made of the state before it answers. -/
inductive AnsweredOnce (s t : State) : Prop
  | responded (d : Data) (u : State) (trace : u.trace = s.trace) (running : s.halt = false → u.halt = false)
      (eq : t = respond d u)
  | raised (c : Cause) (info : BitVec 32) (u : State) (running : s.halt = false) (trace : u.trace = s.trace)
      (eq : t = raise c info u)
  | refused (halted : s.halt = true) (eq : t = answerHalted s)

section
variable {s t u : State}

theorem AnsweredOnce.respond {d : Data} (ht : u.trace = s.trace) (hh : u.halt = s.halt) :
    AnsweredOnce s (respond d u) := .responded d u ht (fun hr => hh.trans hr) rfl

theorem AnsweredOnce.raise {c : Cause} {info : BitVec 32} (hr : s.halt = false) (ht : u.trace = s.trace) :
    AnsweredOnce s (raise c info u) := .raised c info u hr ht rfl

theorem AnsweredOnce.pushBits (hr : s.halt = false) (xs : Bits) (d : Data) :
    AnsweredOnce s (pushBits xs s (Machine.respond d)) := by
  rcases pushBits_cases xs s (Machine.respond d) with ⟨-, e⟩ | ⟨-, e⟩ <;> rw [e]
  · exact .respond rfl rfl
  · exact .raise hr rfl

theorem AnsweredOnce.decodeSingle (hr : s.halt = false) (v : Byte) : AnsweredOnce s (decodeSingle v s) := by
  rcases decodeSingle_cases v s with ⟨-, e⟩ | ⟨rest, -, e⟩ | ⟨rest, -, e⟩ <;> rw [e]
  · exact .raise hr rfl
  · exact .raise hr rfl
  · exact .respond rfl rfl

/-- Every command answers once. -/
theorem exec_answeredOnce {i : Instr} {w : CmdWord} (hi : encode i = .command w) (h : exec i s = .next t) :
    AnsweredOnce s t := by
  cases i with
  | nop =>
    rcases execNop_next h with ⟨hs, rfl⟩ | ⟨-, rfl⟩
    · exact .refused hs rfl
    · exact .respond rfl rfl
  | clr =>
    rw [execClr_next h]
    exact .responded 0 (clear s) rfl (fun _ => rfl) rfl
  | ldf sym count =>
    rcases execLdf_next h with ⟨hs, rfl⟩ | ⟨-, rfl⟩
    · exact .refused hs rfl
    · exact .respond rfl rfl
  | rdcsr n =>
    rcases execRdcsr_next h with ⟨hs, -, rfl⟩ | ⟨d, -, -, rfl⟩ | ⟨hr, -, rfl⟩
    · exact .refused hs rfl
    · exact .respond rfl rfl
    · exact .raise hr rfl
  | putb byte =>
    rcases execPutb_next h with ⟨hs, rfl⟩ | ⟨-, -, rfl⟩ | ⟨hr, -, rfl⟩
    · exact .refused hs rfl
    · exact .respond rfl rfl
    · exact .raise hr rfl
  | getb =>
    rcases execGetb_next h with ⟨hs, rfl⟩ | ⟨hr, -, rfl⟩ | ⟨-, v, rest, -, rfl⟩
    · exact .refused hs rfl
    · exact .raise hr rfl
    · exact .respond rfl rfl
  | build =>
    rcases execBuild_next h with ⟨hs, rfl⟩ | ⟨hr, -, rfl⟩ | ⟨hr, -, b, -, rfl⟩ | ⟨-, -, b, -, rfl⟩
    · exact .refused hs rfl
    · exact .raise hr rfl
    · exact .raise hr rfl
    · exact .respond rfl rfl
  | gencb =>
    rcases execGencb_next h with
      ⟨hs, rfl⟩ | ⟨-, -, rfl⟩ | ⟨hr, -, u, -, ⟨code, -, rfl⟩ | ⟨sym, code, -, rfl⟩⟩
    · exact .refused hs rfl
    · exact .respond rfl rfl
    · exact .respond rfl rfl
    · exact .raise hr rfl
  | sert =>
    rcases execSert_next h with ⟨hs, rfl⟩ | ⟨hr, bits, rfl, -⟩
    · exact .refused hs rfl
    · exact .pushBits hr _ _
  | dest =>
    rcases execDest_next h with ⟨hs, rfl⟩ | ⟨-, d, root, k, -, rfl⟩ | ⟨hr, c, d, -, rfl⟩
    · exact .refused hs rfl
    · exact .respond rfl rfl
    · exact .raise hr rfl
  | encs sym =>
    rcases execEncs_next h with ⟨hs, rfl⟩ | ⟨hr, -, rfl⟩ | ⟨hr, p, -, rfl⟩
    · exact .refused hs rfl
    · exact .raise hr rfl
    · exact .pushBits hr _ _
  | decs =>
    rcases execDecs_next h with ⟨hs, rfl⟩ | ⟨hr, -, rfl⟩ | ⟨hr, -, v, w, -, rfl⟩ |
      ⟨hr, -, -, ⟨v, rest, -, rfl⟩ | ⟨-, rfl⟩⟩
    · exact .refused hs rfl
    · exact .raise hr rfl
    · exact .decodeSingle hr v
    · exact .respond rfl rfl
    · exact .raise hr rfl
  | pack =>
    rcases execPack_next h with ⟨hs, rfl⟩ | ⟨-, -, rfl⟩ | ⟨hr, -, rfl⟩
    · exact .refused hs rfl
    · exact .respond rfl rfl
    · exact .raise hr rfl
  | unpack =>
    rcases execUnpack_next h with ⟨hs, rfl⟩ | ⟨-, -, rfl⟩ | ⟨hr, -, rfl⟩
    · exact .refused hs rfl
    · exact .respond rfl rfl
    · exact .raise hr rfl
  | tLeaf v => cases hi
  | tZero => cases hi

/-- Every word at the port, legal or not, is answered once, and nothing else is taken from the port. -/
theorem present_answeredOnce {w : CmdWord} (h : present w s = .next t) : AnsweredOnce s t ∧ t.input = s.input := by
  cases hd : decode w with
  | ok i =>
    rw [present_ok hd] at h
    obtain ⟨w', hw⟩ := decode_command hd
    exact ⟨exec_answeredOnce hw h, (exec_keepsBut h).input⟩
  | error e =>
    rw [present_error hd] at h
    rcases whileRunning_next h with ⟨hs, rfl⟩ | ⟨hr, h⟩
    · exact ⟨.refused hs rfl, rfl⟩
    · cases h
      exact ⟨.raise hr rfl, rfl⟩

end

/-! ## The statements -/

/-- Settles O10: the three ways of answering are the three forms of R61. -/
theorem everyWordGetsExactlyOneResponse : Obligations.EveryWordGetsExactlyOneResponse := by
  unfold Obligations.EveryWordGetsExactlyOneResponse
  intro s t w rest hin h
  rw [step_word hin] at h
  obtain ⟨answered, hinput⟩ := present_answeredOnce h
  cases answered with
  | responded d u trace running eq =>
    subst eq
    exact ⟨⟨0, d⟩, by simp [trace], hinput, .inl ⟨rfl, running⟩⟩
  | raised c info u running trace eq =>
    subst eq
    have hcode := c.code_legal
    exact ⟨⟨c.code, 0⟩, by simp [trace], hinput, .inr (.inl ⟨hcode.1, hcode.2, rfl, running, rfl, rfl⟩)⟩
  | refused halted eq =>
    subst eq
    exact ⟨⟨0xFF, 0⟩, rfl, hinput, .inr (.inr ⟨rfl, halted, rfl⟩)⟩

/-- Settles O6: the decoder refuses the words without a row; an illegal word, or RDCSR of a reserved number, is one
raise while running, and the halted answer while halted. -/
theorem illegalWordRaisesIllegalCommand : Obligations.IllegalWordRaisesIllegalCommand := by
  unfold Obligations.IllegalWordRaisesIllegalCommand
  refine ⟨fun _ => decode_error_iff_no_row, fun _ => decode_error_iff_reserved_or_unused, ?_,
    fun s n hr hn => exec_rdcsr_reserved hr hn, ?_⟩
  · intro s w rest e hin hr hd
    rw [step_word hin, present_error hd]
    exact whileRunning_running _ hr
  · intro s w rest e hin hs hd
    rw [step_word hin, present_error hd]
    exact whileRunning_halted _ hs

end Sys2Proof.Machine
end

section
/-! PROOFS. The sequencer's and host port's commands (40_host_port.md R80 to R89): what NOP, CLR, LDF, RDCSR, PUTB and
GETB answer and change, and the nine registers of RDCSR (10_state.md R16 to R18). -/

namespace Sys2Proof.Machine

section
variable {s : State}

/-! ## NOP, CLR, LDF (R81, R82, R84) -/

theorem execNop_running (hr : s.halt = false) : execNop s = .next (respond 0 s) := whileRunning_running _ hr

theorem execNop_halted (hs : s.halt = true) : execNop s = .next (answerHalted s) := whileRunning_halted _ hs

theorem execLdf_running (hr : s.halt = false) (sym : Byte) (count : Weight) :
    execLdf sym count s = .next (respond 0 { s with freq := tableSet s.freq sym count }) :=
  whileRunning_running _ hr

/-- The four flags of a cleared block: EMPTY alone is set. -/
theorem statusReg_clear (s : State) : statusReg (clear s) = 0b0010 := by
  have noCode : flagCbv (clear s) = false := by
    rw [← Bool.not_eq_true, flagCbv_iff]
    simp
  simp [statusReg, flagEmpty, flagSingle, noCode]

/-! ## The byte queues (R88, R89) -/

theorem execPutb_room (hr : s.halt = false) (hroom : roomFor s.caps.ib s.ib.length 1 = true) (byte : Byte) :
    execPutb byte s = .next (respond 0 { s with ib := s.ib ++ [byte] }) :=
  (whileRunning_running _ hr).trans (if_pos hroom)

theorem execPutb_full (hr : s.halt = false) (hroom : roomFor s.caps.ib s.ib.length 1 = false) (byte : Byte) :
    execPutb byte s = .next (raise .queueOverflow 1 s) :=
  (whileRunning_running _ hr).trans (if_neg (Bool.eq_false_iff.1 hroom))

theorem execGetb_cons (hr : s.halt = false) {v : Byte} {rest : List Byte} (ho : s.ob = v :: rest) :
    execGetb s = .next (respond (v.setWidth 64) { s with ob := rest }) := by
  rw [execGetb, whileRunning_running _ hr]
  simp only [ho]

theorem execGetb_nil (hr : s.halt = false) (ho : s.ob = []) : execGetb s = .next (raise .queueUnderflow 0 s) := by
  rw [execGetb, whileRunning_running _ hr]
  simp only [ho]

/-! ## RDCSR's own halted test (R86) -/

/-- A halted block answers CSRs 0 to 3, a running one every CSR there is. -/
theorem execRdcsr_answered {n : Byte} {d : Data} (hn : s.halt = true → n.toNat ≤ 3) (hd : csr s n = some d) :
    execRdcsr n s = .next (respond d s) := by
  have executed : (s.halt && decide (3 < n.toNat)) = false := by
    cases hs : s.halt with
    | false => rfl
    | true => simpa using hn hs
  simp [execRdcsr, executed, hd]

theorem execRdcsr_halted {n : Byte} (hs : s.halt = true) (hn : 3 < n.toNat) :
    execRdcsr n s = .next (answerHalted s) := by
  simp [execRdcsr, hs, hn]

/-! ## The nine registers (R17) -/

theorem csr_id (s : State) : csr s 0 = some 0x48554601 := rfl
theorem csr_status (s : State) : csr s 1 = some ((statusReg s).setWidth 64) := rfl
theorem csr_err (s : State) : csr s 2 = some (s.err.setWidth 64) := rfl
theorem csr_errinfo (s : State) : csr s 3 = some (s.errinfo.setWidth 64) := rfl
theorem csr_root (s : State) : csr s 4 = some (s.root.setWidth 64) := rfl
theorem csr_ncnt (s : State) : csr s 5 = some (s.ncnt.setWidth 64) := rfl
theorem csr_bqLen (s : State) : csr s 6 = some (countData s.bq.length) := rfl
theorem csr_ibLen (s : State) : csr s 7 = some (countData s.ib.length) := rfl
theorem csr_obLen (s : State) : csr s 8 = some (countData s.ob.length) := rfl

/-- The four registers a halted block answers; STATUS is HALT alone (R18). -/
theorem csr_halted {n : Byte} (hs : s.halt = true) (hn : n.toNat ≤ 3) :
    csr s n = some (if n = 0 then 0x48554601 else if n = 1 then 1 else if n = 2 then s.err.setWidth 64
      else s.errinfo.setWidth 64) := by
  obtain rfl | rfl | rfl | rfl : n = 0 ∨ n = 1 ∨ n = 2 ∨ n = 3 := by bv_omega
  · exact csr_id s
  · rw [csr_status, statusReg_halted hs]
    rfl
  · exact csr_err s
  · exact csr_errinfo s

/-- STATUS of a running block in the data of a response: the four flags of R16, and no bit above them. -/
theorem statusData_running (hr : s.halt = false) {d : Data} (hd : d = (statusReg s).setWidth 64) :
    d.getLsbD 0 = false ∧ (d.getLsbD 1 = true ↔ s.root = Config.noNode) ∧
    (d.getLsbD 2 = true ↔ s.root ≠ Config.noNode ∧ ∃ v w, nodeAt s.node s.root = some (.leaf v w)) ∧
    (d.getLsbD 3 = true ↔ ∃ v, (tableGet s.code v).isSome = true) ∧ ∀ k, 4 ≤ k → d.getLsbD k = false := by
  have zext (k : Nat) : d.getLsbD k = (statusReg s).getLsbD k := by
    rw [hd, BitVec.getLsbD_setWidth, Bool.and_eq_right_iff_imp]
    intro hk
    have := BitVec.lt_of_getLsbD hk
    exact decide_eq_true (by omega)
  obtain ⟨halt, empty, single, cbv⟩ := statusReg_running hr
  exact ⟨by rw [zext, halt], by rw [zext, empty, flagEmpty_iff], by rw [zext, single, flagSingle_iff],
    by rw [zext, cbv, flagCbv_iff], fun k hk => by rw [zext, BitVec.getLsbD_of_ge _ k hk]⟩

end

/-! ## The statements -/

/-- Settles O5: the word's event is taken, and a word that decodes is presented to `exec`. -/
theorem stepRunsTheDecodedInstr : Obligations.StepRunsTheDecodedInstr := by
  intro s w rest i hin hd
  rw [step_word hin, present_ok hd]

/-- Settles O22: NOP responds or, while halted, is answered so. -/
theorem nopOnlyResponds : Obligations.NopOnlyResponds :=
  ⟨decode_of_encode (i := .nop) rfl, fun _ hr => execNop_running hr, fun _ hs => execNop_halted hs⟩

/-- Settles O23: CLR, which has no halted test, responds from the cleared state, and the reset state is its own
clearing. -/
theorem clrRestoresTheResetValues : Obligations.ClrRestoresTheResetValues := by
  refine ⟨decode_of_encode (i := .clr) rfl, fun s => ⟨respond 0 (clear s), rfl, rfl, rfl, rfl,
    fun v => tableGet_replicate v 0, tableGet_noCodes, rfl, rfl, rfl, rfl, rfl, rfl, rfl, rfl, rfl, rfl, rfl,
    statusReg_clear s, fun atReset => ?_⟩⟩
  have cleared : clear s = s := atReset.symm
  rw [cleared]
  rfl

/-- Settles O24: LDF is one `tableSet` of FREQ. -/
theorem ldfOverwritesOneCount : Obligations.LdfOverwritesOneCount :=
  ⟨fun sym count => decode_of_encode (i := .ldf sym count) rfl, fun s sym count hr =>
    ⟨_, execLdf_running hr sym count, rfl, tableGet_tableSet_self s.freq sym count,
      fun v hv => tableGet_tableSet_ne s.freq sym v count hv⟩⟩

/-- Settles O25: a reserved number is a fault of a running block, a number above 3 is not executed by a halted one, and
every other one is answered with its register. -/
theorem rdcsrReadsTheNineRegisters : Obligations.RdcsrReadsTheNineRegisters := by
  refine ⟨fun n => decode_of_encode (i := .rdcsr n) rfl, fun s n hr hn => exec_rdcsr_reserved hr hn,
    fun s n hs hn => execRdcsr_halted hs hn, fun s n hs hn => execRdcsr_answered (fun _ => hn) (csr_halted hs hn),
    fun s n hr hn => ?_⟩
  obtain ⟨d, hd⟩ := Option.isSome_iff_exists.1 ((csr_isSome_iff s n).2 hn)
  have running : s.halt = true → n.toNat ≤ 3 := by simp [hr]
  have reads {x : Data} (hx : csr s n = some x) : d = x := Option.some.inj (hd.symm.trans hx)
  refine ⟨d, execRdcsr_answered running hd, ?id, ?status, ?err, ?errinfo, ?root, ?ncnt, ?bqLen, ?ibLen, ?obLen⟩
    <;> rintro rfl
  case id => exact reads (csr_id s)
  case status => exact statusData_running hr (reads (csr_status s))
  case err => rw [reads (csr_err s), BitVec.toNat_setWidth_of_le (by decide)]
  case errinfo => rw [reads (csr_errinfo s), BitVec.toNat_setWidth_of_le (by decide)]
  case root => rw [reads (csr_root s), BitVec.toNat_setWidth_of_le (by decide)]
  case ncnt => rw [reads (csr_ncnt s), BitVec.toNat_setWidth_of_le (by decide)]
  case bqLen => rw [reads (csr_bqLen s)]; exact countData_toNat
  case ibLen => rw [reads (csr_ibLen s)]; exact countData_toNat
  case obLen => rw [reads (csr_obLen s)]; exact countData_toNat

/-- Settles O26: below IBCAP there is room for one more byte, at IBCAP there is none. -/
theorem putbAppendsItsByte : Obligations.PutbAppendsItsByte :=
  ⟨fun byte => decode_of_encode (i := .putb byte) rfl, fun _ byte hr =>
    ⟨fun below => execPutb_room hr (roomFor_of_le below) byte,
      fun full => execPutb_full hr (roomFor_of_gt full le_rfl (Nat.lt_succ_self _)) byte⟩⟩

/-- Settles O27: GETB looks at the head of OB. -/
theorem getbTakesTheHeadOfOb : Obligations.GetbTakesTheHeadOfOb :=
  ⟨decode_of_encode (i := .getb) rfl, fun _ _ _ hr ho => execGetb_cons hr ho, fun _ hr ho => execGetb_nil hr ho⟩

end Sys2Proof.Machine
end

section
/-! PROOFS. The tree BUILD makes (41_tree_builder.md R101 to R106): its leaves, its merges in the order of selection,
and the two faults of BUILD. -/

namespace Sys2Proof.Machine

/-! ## The present symbols (R23, R101 step 1) -/

/-- The entries of FREQ with their positions are the counts of all symbols in ascending order. -/
theorem zipIdx_toList_eq_map_allBytes (f : Table Weight) :
    f.toList.zipIdx = allBytes.map fun v => (tableGet f v, v.toNat) := by
  apply List.ext_getElem
  · simp [allBytes]
  · intro i hi _
    have hlt : i < 256 := by simpa using hi
    simp [allBytes, tableGet, Nat.mod_eq_of_lt hlt]

theorem presentSymbols_eq_filterMap_allBytes (f : Table Weight) :
    presentSymbols f = allBytes.filterMap fun v => if tableGet f v = 0 then none else some (v, tableGet f v) := by
  unfold presentSymbols
  rw [zipIdx_toList_eq_map_allBytes, List.filterMap_map]
  congr 1
  funext v
  simp

/-- Step 1 of R101 allocates the leaves of FREQ. -/
theorem leafNodes_presentSymbols (f : Table Weight) : leafNodes (presentSymbols f) = freqLeaves f := by
  rw [leafNodes, presentSymbols_eq_filterMap_allBytes, List.map_filterMap, freqLeaves]
  congr 1
  funext v
  split <;> rfl

theorem length_freqLeaves (f : Table Weight) : (freqLeaves f).length = (presentSymbols f).length := by
  rw [← leafNodes_presentSymbols, leafNodes, List.length_map]

theorem mem_allBytes (v : Byte) : v ∈ allBytes :=
  List.mem_map.2 ⟨v.toNat, List.mem_range.2 v.isLt, by simp⟩

/-- No symbol is present exactly when every entry of FREQ is 0. -/
theorem presentSymbols_eq_nil_iff {f : Table Weight} : presentSymbols f = [] ↔ ∀ v, tableGet f v = 0 := by
  rw [presentSymbols_eq_filterMap_allBytes, List.filterMap_eq_nil_iff]
  simp [mem_allBytes]

theorem freqTotal_eq_zero_of_no_symbol {f : Table Weight} (h : presentSymbols f = []) : freqTotal f = 0 := by
  rw [← presentSymbols_sum, h, List.map_nil, List.sum_nil]

/-! ## Live nodes (R102) -/

theorem mem_childIndices {nodes : List Node} {c : Nat} :
    c ∈ childIndices nodes ↔ ∃ (k : Nat) (l r : Idx) (w : Weight), nodes[k]? = some (.internal l r w) ∧
      (l.toNat = c ∨ r.toNat = c) := by
  unfold childIndices
  rw [List.mem_flatMap]
  constructor
  · rintro ⟨n, hn, hc⟩
    obtain ⟨k, hk⟩ := List.mem_iff_getElem?.1 hn
    cases n with
    | leaf v w => simp at hc
    | internal l r w => exact ⟨k, l, r, w, hk, by simpa [eq_comm] using hc⟩
  · rintro ⟨k, l, r, w, hk, hc⟩
    exact ⟨_, List.mem_of_getElem? hk, by simpa [eq_comm] using hc⟩

/-- The nodes not merged yet are the live ones when the next node is about to be made. -/
theorem Forest.mem_iff_liveAt {nodes : List Node} {live : List Nat} (h : Forest nodes live) {j : Nat} :
    j ∈ live ↔ LiveAt nodes nodes.length j := by
  have hall : j ∈ childIndices nodes ∨ j ∈ live ↔ j < nodes.length := by
    rw [← List.mem_append, h.perm.mem_iff, List.mem_range]
  have hdisj : j ∈ live → j ∉ childIndices nodes := fun hl hc =>
    List.disjoint_of_nodup_append (h.perm.nodup_iff.2 List.nodup_range) hc hl
  have hchild : LiveAt nodes nodes.length j ↔ j < nodes.length ∧ j ∉ childIndices nodes := by
    refine and_congr_right fun _ => ⟨fun hk hc => ?_, fun hc k l r w _ hk => ?_⟩
    · obtain ⟨k, l, r, w, hn, hlr⟩ := mem_childIndices.1 hc
      have := hk k l r w (List.getElem?_eq_some_iff.1 hn).1 hn
      tauto
    · exact not_or.1 fun hlr => hc (mem_childIndices.2 ⟨k, l, r, w, hk, hlr⟩)
  tauto

/-- Which nodes are live when node `i` is made does not depend on what is made after it. -/
theorem liveAt_append_iff {nodes : List Node} {i j : Nat} (hi : i ≤ nodes.length) (more : List Node) :
    LiveAt (nodes ++ more) i j ↔ LiveAt nodes i j := by
  have hold {k} (hk : k < i) : (nodes ++ more)[k]? = nodes[k]? := List.getElem?_append_left (by omega)
  refine and_congr_right fun _ => ⟨fun h k l r w hk hn => ?_, fun h k l r w hk hn => ?_⟩
  · exact h k l r w hk ((hold hk).trans hn)
  · exact h k l r w hk ((hold hk).symm.trans hn)

/-- A node made before node `i` and still live later was live when node `i` was made. -/
theorem LiveAt.earlier {nodes : List Node} {i j x : Nat} (h : LiveAt nodes j x) (hij : i ≤ j) (hx : x < i) :
    LiveAt nodes i x :=
  ⟨hx, fun k l r w hk => h.2 k l r w (by omega)⟩

theorem SelectedBefore.append {nodes : List Node} {j k : Nat} (h : SelectedBefore nodes j k) (more : List Node) :
    SelectedBefore (nodes ++ more) j k := by
  have keeps {i n} (hn : nodes[i]? = some n) : (nodes ++ more)[i]? = some n :=
    (List.getElem?_append_left (List.getElem?_eq_some_iff.1 hn).1).trans hn
  obtain ⟨a, b, ha, hb, hlt⟩ := h
  exact ⟨a, b, keeps ha, keeps hb, hlt⟩

theorem SelectedBefore.weight_le {nodes : List Node} {j k : Nat} {a b : Node} (h : SelectedBefore nodes j k)
    (ha : nodes[j]? = some a) (hb : nodes[k]? = some b) : a.weight.toNat ≤ b.weight.toNat := by
  obtain ⟨a', b', ha', hb', hlt⟩ := h
  obtain rfl := Option.some.inj (ha.symm.trans ha')
  obtain rfl := Option.some.inj (hb.symm.trans hb')
  omega

/-- Among live nodes of different indices, `select` takes out the first (R102). -/
theorem select_first {L rest : List Live} {m : Live} (hn : (L.map fun x => x.idx.toNat).Nodup)
    (h : select L = some (m, rest)) : ∀ y ∈ rest, liveBefore m y = true := by
  obtain ⟨hperm, hmin⟩ := select_spec h
  intro y hy
  have hidx : m.idx.toNat ∉ rest.map fun x => x.idx.toNat :=
    (List.nodup_cons.1 ((hperm.map fun x => x.idx.toNat).nodup_iff.1 hn)).1
  have hne : m.idx ≠ y.idx := fun e => hidx (List.mem_map.2 ⟨y, hy, by rw [e]⟩)
  simpa [hmin y hy] using liveBefore_total hne

/-- The builder's order on its live nodes is the order of selection on NODE. -/
theorem BInv.selectedBefore {total : Nat} {b : Builder} (h : BInv total b) {x y : Live} (hx : x ∈ b.live)
    (hy : y ∈ b.live) (hxy : liveBefore x y = true) : SelectedBefore b.nodes x.idx.toNat y.idx.toNat := by
  obtain ⟨m, hm, hmw⟩ := h.weight x hx
  obtain ⟨n, hn, hnw⟩ := h.weight y hy
  exact ⟨m, n, hm, hn, by simpa [liveBefore, hmw, hnw] using hxy⟩

/-! ## One round of the merge loop (R101 step 4, R103, R104) -/

/-- The builder after a round that merges the live nodes `l` and `r`, with `rest` the live nodes left. -/
def Builder.merge (b : Builder) (l r : Live) (rest : List Live) : Builder :=
  ⟨b.nodes ++ [.internal l.idx r.idx (l.weight + r.weight)],
    rest ++ [⟨l.weight + r.weight, BitVec.ofNat 9 b.nodes.length⟩]⟩

/-- One round: the two first live nodes are merged, and their weights' sum fits a weight. -/
inductive MergeRound (b : Builder) : Builder → Prop
  | merge {l r : Live} {others rest : List Live} (first : select b.live = some (l, others))
      (second : select others = some (r, rest)) (fits : ¬ Config.maxWeight < l.weight.toNat + r.weight.toNat) :
      MergeRound b (b.merge l r rest)

/-- What every round keeps holds of the tree the loop ends with. -/
theorem mergeLoop_keeps {P : Builder → Prop} (round : ∀ b b', MergeRound b b' → P b → P b') {n : Nat}
    {b b' : Builder} (h : P b) (e : mergeLoop n b = .tree b') : P b' := by
  induction n generalizing b with
  | zero => cases e; exact h
  | succ n ih =>
    simp only [mergeLoop] at e
    split at e
    · cases e; exact h
    · next l others first =>
      split at e
      · cases e; exact h
      · next r rest second =>
        split at e
        · cases e
        · next fits => exact ih (round b _ (.merge first second fits) h) e

/-- Node `i` was made of `l` and `r` as R102 to R104 say: the two were the first live nodes in the order of selection,
and its weight is the exact sum of theirs. -/
structure MergedAt (nodes : List Node) (i : Nat) (l r : Idx) (w : Weight) : Prop where
  left : LiveAt nodes i l.toNat
  right : LiveAt nodes i r.toNat
  ordered : SelectedBefore nodes l.toNat r.toNat
  others : ∀ j, LiveAt nodes i j → j ≠ l.toNat → j ≠ r.toNat → SelectedBefore nodes r.toNat j
  weight : ∃ a b, nodeAt nodes l = some a ∧ nodeAt nodes r = some b ∧ w.toNat = a.weight.toNat + b.weight.toNat

theorem MergedAt.append {nodes : List Node} {i : Nat} {l r : Idx} {w : Weight} (h : MergedAt nodes i l r w)
    (hi : i ≤ nodes.length) (more : List Node) : MergedAt (nodes ++ more) i l r w where
  left := (liveAt_append_iff hi more).2 h.left
  right := (liveAt_append_iff hi more).2 h.right
  ordered := h.ordered.append more
  others j hj hl hr := (h.others j ((liveAt_append_iff hi more).1 hj) hl hr).append more
  weight := by
    obtain ⟨a, b, ha, hb, hw⟩ := h.weight
    exact ⟨a, b, nodeAt_append ha more, nodeAt_append hb more, hw⟩

/-- The node a round makes is merged from the two first live nodes. -/
theorem BInv.mergedAt_next {total : Nat} {b : Builder} (h : BInv total b) {l r : Live} {others rest : List Live}
    (first : select b.live = some (l, others)) (second : select others = some (r, rest))
    (fits : ¬ Config.maxWeight < l.weight.toNat + r.weight.toNat) :
    MergedAt b.nodes b.nodes.length l.idx r.idx (l.weight + r.weight) := by
  have hfirst := (select_spec first).1
  have hperm : b.live.Perm (l :: r :: rest) := hfirst.trans ((select_spec second).1.cons l)
  have mem {x} (hx : x ∈ l :: r :: rest) : x ∈ b.live := hperm.mem_iff.2 hx
  have hlive {j} : LiveAt b.nodes b.nodes.length j ↔ ∃ x ∈ l :: r :: rest, x.idx.toNat = j := by
    rw [← h.forest.mem_iff_liveAt, List.mem_map]
    simp only [hperm.mem_iff]
  have hnodup := h.forest.nodup
  have hothers : (others.map fun x => x.idx.toNat).Nodup :=
    (List.nodup_cons.1 ((hfirst.map fun x => x.idx.toNat).nodup_iff.1 hnodup)).2
  have hr : r ∈ others := (select_spec second).1.mem_iff.2 (by simp)
  obtain ⟨m, hm, hmw⟩ := h.weight l (mem (by simp))
  obtain ⟨n, hn, hnw⟩ := h.weight r (mem (by simp))
  refine ⟨hlive.2 ⟨l, by simp, rfl⟩, hlive.2 ⟨r, by simp, rfl⟩,
    h.selectedBefore (mem (by simp)) (mem (by simp)) (select_first hnodup first r hr), ?_, m, n, hm, hn, ?_⟩
  · intro j hj hjl hjr
    obtain ⟨x, hx, rfl⟩ := hlive.1 hj
    have hrest : x ∈ rest := by
      rcases List.mem_cons.1 hx with rfl | hx
      · exact absurd rfl hjl
      · exact (List.mem_cons.1 hx).resolve_left fun e => hjr (by rw [e])
    exact h.selectedBefore (mem (by simp)) (mem hx) (select_first hothers second x hrest)
  · unfold Config.maxWeight at fits
    rw [BitVec.toNat_add, hmw, hnw, Nat.mod_eq_of_lt (by omega)]

/-! ## What BUILD has made (R106) -/

/-- What the builder holds after step 1 of R101 and after every round: the leaves of FREQ, then internal nodes, each
merged as R102 to R104 say. -/
structure Built (freq : Table Weight) (b : Builder) : Prop where
  inv : BInv (freqTotal freq) b
  nodes : ∃ more, b.nodes = freqLeaves freq ++ more ∧ ∀ n ∈ more, ∃ l r w, n = .internal l r w
  merged : ∀ i l r w, b.nodes[i]? = some (.internal l r w) → MergedAt b.nodes i l r w

theorem built_leaves (f : Table Weight) : Built f ⟨leafNodes (presentSymbols f), leafLives (presentSymbols f)⟩ where
  inv := BInv0 f
  nodes := ⟨[], by rw [leafNodes_presentSymbols, List.append_nil], by simp⟩
  merged i l r w h := by simp [leafNodes] at h

theorem MergeRound.built {f : Table Weight} {b b' : Builder} (round : MergeRound b b') (h : Built f b) :
    Built f b' := by
  cases round with | @merge l r others rest first second fits =>
  refine ⟨mergeLoop_step h.inv first second fits, ?_, ?_⟩
  · obtain ⟨more, hmore, hint⟩ := h.nodes
    refine ⟨more ++ [.internal l.idx r.idx (l.weight + r.weight)], by simp [Builder.merge, hmore], fun n hn => ?_⟩
    rcases List.mem_append.1 hn with hn | hn
    · exact hint n hn
    · exact ⟨_, _, _, List.mem_singleton.1 hn⟩
  · intro i l' r' w' hi
    rw [Builder.merge, List.getElem?_append] at hi
    split at hi
    · next hlt => exact (h.merged i l' r' w' hi).append (Nat.le_of_lt hlt) _
    · have hlen : i = b.nodes.length := by
        have := (List.getElem?_eq_some_iff.1 hi).1
        simp at this
        omega
      subst hlen
      simp at hi
      obtain ⟨rfl, rfl, rfl⟩ := hi
      exact (h.inv.mergedAt_next first second fits).append le_rfl _

theorem buildTree_built {f : Table Weight} {b : Builder} (h : buildTree f = .tree b) : Built f b :=
  mergeLoop_keeps (fun _ _ round => round.built) (built_leaves f) h

section
variable {f : Table Weight} {b : Builder}

/-- The nodes from index L on are the internal ones. -/
theorem Built.length_le_iff_internal (h : Built f b) {i : Nat} {n : Node} (hn : b.nodes[i]? = some n) :
    (freqLeaves f).length ≤ i ↔ ∃ l r w, n = .internal l r w := by
  obtain ⟨more, hmore, hint⟩ := h.nodes
  rw [hmore, List.getElem?_append] at hn
  split at hn
  · next hlt =>
    refine iff_of_false (by omega) ?_
    rintro ⟨l, r, w, rfl⟩
    have := List.mem_of_getElem? hn
    simp [← leafNodes_presentSymbols, leafNodes] at this
  · next hge => exact iff_of_true (by omega) (hint n (List.mem_of_getElem? hn))

/-- The weights of the internal nodes do not decrease in order of creation: each child of node `j` is node `i`, or was
made after it, or was passed over when node `i` was made. -/
theorem Built.weight_le (h : Built f b) {i j : Nat} {l r l' r' : Idx} {w w' : Weight} (hij : i < j)
    (hi : b.nodes[i]? = some (.internal l r w)) (hj : b.nodes[j]? = some (.internal l' r' w')) :
    w.toNat ≤ w'.toNat := by
  induction j using Nat.strong_induction_on generalizing l' r' w' with
  | _ j ih =>
    have mi := h.merged i l r w hi
    have mj := h.merged j l' r' w' hj
    obtain ⟨ln, rn, hl, hr, hw⟩ := mi.weight
    obtain ⟨ln', rn', hl', hr', hw'⟩ := mj.weight
    have hlr : ln.weight.toNat ≤ rn.weight.toNat := mi.ordered.weight_le hl hr
    have child {x : Idx} {n : Node} (hx : LiveAt b.nodes j x.toNat) (hn : nodeAt b.nodes x = some n) :
        w.toNat ≤ n.weight.toNat ∨ rn.weight.toNat ≤ n.weight.toNat := by
      rcases lt_trichotomy x.toNat i with hlt | heq | hgt
      · obtain ⟨hxl, hxr⟩ := hx.2 i l r w hij hi
        exact .inr ((mi.others _ (hx.earlier hij.le hlt) hxl.symm hxr.symm).weight_le hr hn)
      · rw [nodeAt, heq, hi] at hn
        cases hn
        exact .inl le_rfl
      · have hfirst := (h.length_le_iff_internal hi).2 ⟨l, r, w, rfl⟩
        obtain ⟨l₂, r₂, w₂, rfl⟩ := (h.length_le_iff_internal hn).1 (hfirst.trans hgt.le)
        exact .inl (ih x.toNat hx.1 hgt hn)
    have hleft := child mj.left hl'
    have hright := child mj.right hr'
    omega

end

/-! ## The weight of the root, and the total of FREQ (R104) -/

/-- The one live node of a tree has the total's weight. -/
theorem BInv.weight_of_single {total : Nat} {b : Builder} {x : Live} (h : BInv total b) (hx : b.live = [x]) :
    x.weight.toNat = total := by
  have hsum := h.sum
  rw [hx] at hsum
  simpa using hsum

/-- When BUILD makes a tree, the total fits a weight: it is the root's. -/
theorem freqTotal_le_of_tree {f : Table Weight} {b : Builder} (hne : presentSymbols f ≠ [])
    (h : buildTree f = .tree b) : freqTotal f ≤ Config.maxWeight := by
  obtain ⟨x, hx, hinv, -⟩ := buildTree_tree hne h
  rw [← hinv.weight_of_single hx]
  exact Nat.le_sub_one_of_lt x.weight.isLt

/-! ## How BUILD ends (R101, R104, R105) -/

/-- BUILD is answered in every state. -/
theorem execBuild_answers (s : State) : ∃ t, execBuild s = .next t :=
  whileRunning_answers fun _ => by
    split
    · exact ⟨_, rfl⟩
    · split <;> exact ⟨_, rfl⟩

theorem execBuild_no_symbol {s : State} (hr : s.halt = false) (h : presentSymbols s.freq = []) :
    execBuild s = .next (raise .emptyAlphabet 0 s) := by
  simp [execBuild, whileRunning_running _ hr, h]

/-- A running BUILD finds no symbol, a total too great for a weight, or makes the tree: the total of FREQ says which. -/
theorem execBuild_running_next {s t : State} (hr : s.halt = false) (h : execBuild s = .next t) :
    ((∀ v, tableGet s.freq v = 0) ∧ freqTotal s.freq = 0 ∧ t = raise .emptyAlphabet 0 s) ∨
    (Config.maxWeight < freqTotal s.freq ∧ ∃ b : Builder, t =
      raise .weightOverflow 0 { s with code := noCodes, node := b.nodes, act := b.live.map Live.idx }) ∨
    (presentSymbols s.freq ≠ [] ∧ freqTotal s.freq ≤ Config.maxWeight ∧ ∃ b, buildTree s.freq = .tree b ∧
      t = respond (countData b.nodes.length) { s with
        code := noCodes, node := b.nodes, act := b.live.map Live.idx,
        root := BitVec.ofNat 9 (b.nodes.length - 1), ncnt := BitVec.ofNat 10 b.nodes.length }) := by
  rcases execBuild_next h with ⟨hs, -⟩ | ⟨-, hnil, ht⟩ | ⟨-, -, b, hb, ht⟩ | ⟨-, hne, b, hb, ht⟩
  · rw [hr] at hs; cases hs
  · exact .inl ⟨presentSymbols_eq_nil_iff.1 hnil, freqTotal_eq_zero_of_no_symbol hnil, ht⟩
  · exact .inr (.inl ⟨mergeLoop_over (BInv0 s.freq) hb, b, ht⟩)
  · exact .inr (.inr ⟨hne, freqTotal_le_of_tree hne hb, b, hb, ht⟩)

/-! ## The statements -/

/-- Settles O28: the total excludes both faults, and the tree the merge loop ends with is `Built`. -/
theorem buildMakesTheTreeOfFreq : Obligations.BuildMakesTheTreeOfFreq := by
  unfold Obligations.BuildMakesTheTreeOfFreq
  intro s hr hpos hfit
  obtain ⟨t, ht⟩ := execBuild_answers s
  refine ⟨t, ht, ?_⟩
  rcases execBuild_running_next hr ht with ⟨-, hzero, -⟩ | ⟨hheavy, -⟩ | ⟨hne, -, b, hb, rfl⟩
  · exact absurd hzero hpos.ne'
  · exact absurd hfit (Nat.not_le.2 hheavy)
  obtain ⟨x, hlive, hinv, hcount, hroot, -⟩ := buildTree_tree hne hb
  have built := buildTree_built hb
  have hforest : Forest b.nodes [x.idx.toNat] := by simpa [hlive] using hinv.forest
  have hlen : b.nodes.length ≤ 511 := by have := presentSymbols_length s.freq; omega
  have hidx : BitVec.ofNat 9 (b.nodes.length - 1) = x.idx := by simp [← hroot]
  have hdata : countData b.nodes.length = (BitVec.ofNat 10 b.nodes.length).setWidth 64 :=
    BitVec.eq_of_toNat_eq (by rw [countData_toNat (by omega)]; simp; omega)
  refine ⟨hforest.treeInv hroot hlen (by simp [← hroot]) rfl, ?state, ?count, ?leaves, ?internal, ?sums, ?weight⟩
  case state => simp [respond, answer, hdata, hlive, hidx]
  case count => simp only [respond_node, length_freqLeaves]; omega
  case leaves =>
    obtain ⟨more, hmore, -⟩ := built.nodes
    simp [hmore]
  case internal => exact fun i n hi hn => (built.length_le_iff_internal hn).1 hi
  case sums =>
    rintro n l r w hn rfl
    obtain ⟨i, hi⟩ := List.mem_iff_getElem?.1 hn
    exact (built.merged i l r w hi).weight
  case weight =>
    obtain ⟨n, hn, hw⟩ := hinv.weight x (by simp [hlive])
    exact ⟨n, by rw [respond_root, hidx]; exact hn, by rw [hw, hinv.weight_of_single hlive]⟩

/-- Settles O29: a BUILD that leaves the block running has made a tree, and that tree is `Built`. -/
theorem buildMergesTheTwoLightest : Obligations.BuildMergesTheTwoLightest := by
  unfold Obligations.BuildMergesTheTwoLightest
  intro s t hr ht hrun
  rcases execBuild_running_next hr ht with ⟨-, -, rfl⟩ | ⟨-, b, rfl⟩ | ⟨-, -, b, hb, rfl⟩
  · cases hrun
  · cases hrun
  have built := buildTree_built hb
  refine ⟨fun i l r w hi => ?_, fun i j l r l' r' w w' hij hi hj => built.weight_le hij hi hj⟩
  have merged := built.merged i l r w hi
  exact ⟨merged.left, merged.right, merged.ordered, merged.others⟩

/-- Settles O30: a table of zeros has no present symbol, and the root of a tree carries the total. -/
theorem buildFaultsOnlyOnEmptyOrHeavyTables : Obligations.BuildFaultsOnlyOnEmptyOrHeavyTables := by
  unfold Obligations.BuildFaultsOnlyOnEmptyOrHeavyTables
  refine ⟨fun s hr hzero => ?empty, fun s t hr ht hhalt herr => ?onlyEmpty,
    fun s hr => ⟨fun hheavy => ?heavy, ?onlyHeavy⟩⟩
  case empty => exact execBuild_no_symbol hr (presentSymbols_eq_nil_iff.2 hzero)
  case onlyEmpty =>
    rcases execBuild_running_next hr ht with ⟨hzero, -⟩ | ⟨-, b, rfl⟩ | ⟨-, -, b, -, rfl⟩
    · exact hzero
    · cases herr
    · rw [respond_halt, hr] at hhalt; cases hhalt
  case heavy =>
    obtain ⟨t, ht⟩ := execBuild_answers s
    refine ⟨t, ht, ?_⟩
    rcases execBuild_running_next hr ht with ⟨-, hzero, -⟩ | ⟨-, b, rfl⟩ | ⟨-, hle, -⟩
    · rw [hzero] at hheavy; exact absurd hheavy (Nat.not_lt_zero _)
    · exact ⟨rfl, rfl, rfl, rfl⟩
    · exact absurd hle (Nat.not_le.2 hheavy)
  case onlyHeavy =>
    rintro ⟨t, ht, herr, -, hhalt, -⟩
    rcases execBuild_running_next hr ht with ⟨-, -, rfl⟩ | ⟨hheavy, -⟩ | ⟨-, -, b, -, rfl⟩
    · cases herr
    · exact hheavy
    · rw [respond_halt, hr] at hhalt; cases hhalt

end Sys2Proof.Machine
end

section
/-! PROOFS. The codebook generator (42_codebook_generator.md R110 to R115): the codebook of a tree without a repeated
leaf, the fault at the first repeated leaf, and the empty tree. -/

namespace Sys2Proof.Machine

/-! ## The first repeated leaf of a tree (R115) -/

section
variable {α : Type} {v w : α} {b c after rest : List α}

theorem not_nodup_append_cons_of_mem (h : v ∈ b) : ¬ (b ++ v :: after).Nodup :=
  fun hnodup => List.disjoint_of_nodup_append hnodup h List.mem_cons_self

/-- Of two splits of a list at a repeated element, each after a part without repetition, both are at one element. -/
theorem first_repeated_unique (h : b ++ v :: after = c ++ w :: rest) (hb : b.Nodup) (hc : c.Nodup)
    (hv : v ∈ b) (hw : w ∈ c) : v = w := by
  rcases List.append_eq_append_iff.1 h with ⟨gap, hcb, hgap⟩ | ⟨gap, hbc, hgap⟩
  · cases gap with
    | nil => exact (List.cons.inj hgap).1
    | cons x gap =>
      obtain ⟨rfl, -⟩ := List.cons.inj hgap
      exact absurd (hcb ▸ hc) (not_nodup_append_cons_of_mem hv)
  · cases gap with
    | nil => exact (List.cons.inj hgap).1.symm
    | cons x gap =>
      obtain ⟨rfl, -⟩ := List.cons.inj hgap
      exact absurd (hbc ▸ hb) (not_nodup_append_cons_of_mem hw)

end

/-- Without a repeated leaf the walk of a whole tree ends with a codebook: it stops only at a repeated one. -/
theorem treeCodes_of_nodup {t : Tree} (h : t.symbols.Nodup) : ∃ code, treeCodes t = .done code := by
  cases hc : treeCodes t with
  | done code => exact ⟨code, rfl⟩
  | duplicate sym code =>
    obtain ⟨before, after, hsplit, -, hmem⟩ := treeCodes_duplicate hc
    exact absurd (hsplit ▸ h) (not_nodup_append_cons_of_mem hmem)

/-- The walk of a whole tree stops at the first leaf, left before right, whose value came before. -/
theorem treeCodes_of_repeated {t : Tree} {before after : List Byte} {v : Byte} (h : t.symbols = before ++ v :: after)
    (hb : before.Nodup) (hv : v ∈ before) : ∃ code, treeCodes t = .duplicate v code := by
  cases hc : treeCodes t with
  | done code => exact absurd (h ▸ (treeCodes_done hc).1) (not_nodup_append_cons_of_mem hv)
  | duplicate sym code =>
    obtain ⟨before', after', hsplit, hb', hmem⟩ := treeCodes_duplicate hc
    obtain rfl : v = sym := first_repeated_unique (h.symm.trans hsplit) hb hb' hv hmem
    exact ⟨code, rfl⟩

/-! ## GENCB and ENCS on a running block -/

/-- GENCB of the empty tree (R114). -/
theorem execGencb_of_noNode {s : State} (hr : s.halt = false) (hroot : s.root = Config.noNode) :
    execGencb s = .next (respond 0 { s with code := noCodes }) :=
  (whileRunning_running _ hr).trans (if_pos hroot)

/-- ENCS of a symbol with no code (R136). -/
theorem execEncs_of_none {s : State} {sym : Byte} (hr : s.halt = false) (hc : tableGet s.code sym = none) :
    execEncs sym s = .next (raise .codebookMiss (sym.setWidth 32) s) := by
  rw [execEncs, whileRunning_running _ hr, hc]

section
variable {s : State} {t : Tree} (hr : s.halt = false) (inv : TreeInv s) (hroot : s.root ≠ Config.noNode)
  (ht : TreeAt s.node s.root t)
include hr inv hroot ht

/-- Where `treeCodes` ends, GENCB answers the number of leaves (R111). -/
theorem execGencb_of_done {code : Table (Option Bits)} (hc : treeCodes t = .done code) :
    execGencb s = .next (respond (countData t.leafCount) { s with code := code }) := by
  simp only [execGencb, whileRunning_running _ hr, if_neg hroot, currentTree_of_treeAt inv hroot ht, hc]

/-- Where `treeCodes` meets a repeated leaf, GENCB raises DuplicateLeaf with the codes recorded so far (R115). -/
theorem execGencb_of_duplicate {v : Byte} {code : Table (Option Bits)} (hc : treeCodes t = .duplicate v code) :
    execGencb s = .next (raise .duplicateLeaf (v.setWidth 32) { s with code := code }) := by
  simp only [execGencb, whileRunning_running _ hr, if_neg hroot, currentTree_of_treeAt inv hroot ht, hc]

end

/-! ## The statements -/

/-- Settles O31: the walk ends, with the codebook `treeCodes_done` describes; the count of at most 256 leaves is
exact. -/
theorem gencbRecordsEveryLeafPath : Obligations.GencbRecordsEveryLeafPath := by
  unfold Obligations.GencbRecordsEveryLeafPath
  intro s t hr inv hroot ht hnodup
  obtain ⟨code, hc⟩ := treeCodes_of_nodup hnodup
  obtain ⟨-, hbook, hvalid⟩ := treeCodes_done hc
  refine ⟨code, (execGencb_of_done hr inv hroot ht hc).trans ?_, hbook, hvalid⟩
  have hle := inv.leafCount_le hroot ht
  rw [countData_of_lt (by omega), respond, answer]

/-- Settles O33: the walk stops at the first repeated leaf, and only CODE was written before the fault. -/
theorem gencbRaisesAtTheSecondDuplicate : Obligations.GencbRaisesAtTheSecondDuplicate := by
  unfold Obligations.GencbRaisesAtTheSecondDuplicate
  intro s t before after v hr inv hroot ht hsplit hb hv
  obtain ⟨code, hc⟩ := treeCodes_of_repeated hsplit hb hv
  exact ⟨_, execGencb_of_duplicate hr inv hroot ht hc, rfl⟩

/-- Settles O32: GENCB leaves `noCodes` and the block running, so that every ENCS after it misses. -/
theorem gencbOfTheEmptyTreeIsEmpty : Obligations.GencbOfTheEmptyTreeIsEmpty := by
  unfold Obligations.GencbOfTheEmptyTreeIsEmpty
  intro s hr hroot
  have hcode : ∀ v, tableGet (respond 0 { s with code := noCodes }).code v = none := tableGet_noCodes
  exact ⟨_, execGencb_of_noNode hr hroot, rfl, hcode, fun sym => execEncs_of_none hr (hcode sym)⟩

end Sys2Proof.Machine
end

section
/-! PROOFS. The tree codec (43_tree_codec.md R121 to R130): the bits SERT appends, the tokens, and what DEST makes of
every bit sequence. -/

namespace Sys2Proof.Machine

/-! ## The tree bits (R62, R122) -/

/-- Nine bits a leaf, and one a merge, of which a tree has one fewer than leaves. -/
theorem postOrder_length_add_one (t : Tree) : (postOrder t).length + 1 = 10 * t.leafCount := by
  induction t with
  | leaf v => rfl
  | node l r ihl ihr => simp [postOrder, Tree.leafCount]; omega

/-- Every token takes a bit. -/
theorem size_le_postOrder_length (t : Tree) : t.size ≤ (postOrder t).length := by
  have hlen := postOrder_length_add_one t
  unfold Tree.size
  omega

/-- Settles O35: the terminator is the tenth bit of the leaf that has no merge of its own. -/
theorem treeBitsHaveTenBitsPerLeaf : Obligations.TreeBitsHaveTenBitsPerLeaf := by
  unfold Obligations.TreeBitsHaveTenBitsPerLeaf
  intro t
  rw [serialized_eq, List.length_append, ← postOrder_length_add_one]
  rfl

/-- The tree bits of a tree of at most 256 leaves are few enough to be counted in a data field. -/
theorem countData_serialized {t : Tree} (h : t.leafCount ≤ 256) :
    countData (serialized t).length = BitVec.ofNat 64 (serialized t).length := by
  have hlen := treeBitsHaveTenBitsPerLeaf t
  exact countData_of_lt (by omega)

/-! ## SERT (R121, R124) -/

section
variable {s : State} (hr : s.halt = false)
include hr

/-- SERT of the empty tree pushes the terminator. -/
theorem execSert_of_noNode (hroot : s.root = Config.noNode) :
    exec .sert s = .next (pushBits [false] s (respond (countData 1))) := by
  simp only [exec, execSert, whileRunning_running _ hr, if_pos hroot]

/-- SERT of a tree pushes its tree bits. -/
theorem execSert_of_treeAt (inv : TreeInv s) (hroot : s.root ≠ Config.noNode) {t : Tree}
    (ht : TreeAt s.node s.root t) :
    exec .sert s = .next (pushBits (serialized t) s (respond (countData (serialized t).length))) := by
  simp only [exec, execSert, whileRunning_running _ hr, if_neg hroot, currentTree_of_treeAt inv hroot ht, treeBits,
    serialized_eq]

end

/-- Settles O34: SERT is one push, which fits or fills BQ. -/
theorem sertAppendsTheTreeBits : Obligations.SertAppendsTheTreeBits := by
  unfold Obligations.SertAppendsTheTreeBits
  refine ⟨by decide, fun s bits hr inv hbits => ?_⟩
  have hsert : exec .sert s = .next (pushBits bits s (respond (BitVec.ofNat 64 bits.length))) := by
    rcases hbits with ⟨hroot, rfl⟩ | ⟨hroot, t, ht, rfl⟩
    · exact execSert_of_noNode hr hroot
    · rw [← countData_serialized (inv.leafCount_le hroot ht)]
      exact execSert_of_treeAt hr inv hroot ht
  rw [hsert]
  exact ⟨fun hroom => congrArg _ (pushBits_fits (roomFor_of_le hroom)),
    fun c hc hle hlt => congrArg _ (pushBits_full hc hle hlt)⟩

/-! ## The tokens (R125, R126) -/

section
variable {v : Byte} {rest : Bits} {nodes : List Node} {stk : List Idx}

/-- T.LEAF with its eight bits and a free node. -/
theorem tokenLeaf_of_lt (h : nodes.length < 511) : tokenLeaf ⟨byteBits v ++ rest, nodes, stk⟩ =
    .more ⟨rest, nodes ++ [.leaf v 0], BitVec.ofNat 9 nodes.length :: stk⟩ := by
  refine (if_neg (Nat.not_le.2 h)).trans ?_
  rw [byteOfBits_byteBits]
  rfl

/-- T.LEAF with its eight bits and no free node. -/
theorem tokenLeaf_of_le (h : 511 ≤ nodes.length) :
    tokenLeaf ⟨byteBits v ++ rest, nodes, stk⟩ = .raised .treeOverflow ⟨byteBits v ++ rest, nodes, stk⟩ :=
  if_pos h

/-- T.LEAF cut short, whether or not a node is free. -/
theorem tokenLeaf_of_short {q : Bits} (h : q.length < 8) :
    tokenLeaf ⟨q, nodes, stk⟩ = .raised .truncatedTree ⟨q, nodes, stk⟩ := by
  unfold tokenLeaf
  split
  · next hq => simp only at hq; subst hq; simp at h; omega
  · rfl

/-- T.ZERO on two entries and a free node. -/
theorem tokenZero_of_lt {l r : Idx} (h : nodes.length < 511) : tokenZero ⟨rest, nodes, r :: l :: stk⟩ =
    .more ⟨rest, nodes ++ [.internal l r 0], BitVec.ofNat 9 nodes.length :: stk⟩ :=
  if_neg (Nat.not_le.2 h)

/-- T.ZERO on two entries and no free node. -/
theorem tokenZero_of_le {l r : Idx} (h : 511 ≤ nodes.length) :
    tokenZero ⟨rest, nodes, r :: l :: stk⟩ = .raised .treeOverflow ⟨rest, nodes, r :: l :: stk⟩ :=
  if_pos h

end

/-- Settles O39: the token has its eight bits, so only the room in NODE decides. A token as an
instruction is the model's form (log entry 12). -/
theorem leafTokenPushesALeaf : Obligations.LeafTokenPushesALeaf := by
  unfold Obligations.LeafTokenPushesALeaf
  intro s v hr
  have hrun : exec (.tLeaf v) s = .next (tokenState s (tokenLeaf ⟨byteBits v ++ s.bq, s.node, s.stk⟩)) := by
    simp only [exec, execTLeaf, whileRunning_running _ hr, deserOf]
  rw [hrun]
  constructor
  · intro hroom
    rw [tokenLeaf_of_lt hroom]
    rfl
  · intro hfull
    rw [tokenLeaf_of_le hfull]
    rfl

/-- Settles O40: the number of stack entries decides, and with two or more the room in NODE. A token as an
instruction is the model's form (log entry 12). -/
theorem zeroTokenMergesOrEndsTheTree : Obligations.ZeroTokenMergesOrEndsTheTree := by
  unfold Obligations.ZeroTokenMergesOrEndsTheTree
  intro s hr
  have hrun : exec .tZero s = .next (tokenState s (tokenZero ⟨s.bq, s.node, s.stk⟩)) := by
    simp only [exec, execTZero, whileRunning_running _ hr, deserOf]
  rw [hrun]
  refine ⟨fun hs => ?_, fun root hs => ?_, fun r l below hs hroom => ?_, fun r l below hs hfull => ?_⟩
  · rw [hs]; simp [tokenZero, tokenState, endTree, withDeser]
  · rw [hs]; simp [tokenZero, tokenState, endTree, withDeser]
  · rw [hs, tokenZero_of_lt hroom]; rfl
  · rw [hs, tokenZero_of_le hfull]; simp [tokenState, withDeser, raise, answer, Cause.code]

end Sys2Proof.Machine
end

section
/-! PROOFS. The deserializer (43_tree_codec.md R125 to R130): DEST on the tree bits of a tree, on their beginnings, on
the bits of too large a tree, and that no bit sequence is left out. -/

namespace Sys2Proof.Machine

/-! ## DEST on a running block, by how its token loop ends -/

section
variable {s : State} (hr : s.halt = false)
include hr

theorem execDest_of_tree {d : Deser} {root : Idx} {k : Nat}
    (h : destLoop (s.bq.length + 1) 0 ⟨s.bq, [], []⟩ = .tree d root k) :
    exec .dest s = .next (respond (countData k)
      (endTree { s with code := noCodes, root := Config.noNode, ncnt := 0 } d root)) := by
  simp only [exec, execDest, whileRunning_running _ hr, h]

/-- A fault of the token loop is raised by DEST with ERRINFO 0. -/
theorem execDest_of_raised {c : Cause} (h : ∃ d, destLoop (s.bq.length + 1) 0 ⟨s.bq, [], []⟩ = .raised c d) :
    ∃ u, exec .dest s = .next u ∧ u.err = c.code ∧ u.errinfo = 0 ∧ u.halt = true ∧
      u.trace = s.trace ++ [⟨c.code, 0⟩] := by
  obtain ⟨d, hd⟩ := h
  refine ⟨raise c 0 (withDeser { s with code := noCodes, root := Config.noNode, ncnt := 0 } d), ?_, rfl, rfl, rfl, rfl⟩
  simp only [exec, execDest, whileRunning_running _ hr, hd]

end

/-- Settles O37: the first token finds the stack empty. -/
theorem destReadsTheEmptyTree : Obligations.DestReadsTheEmptyTree := by
  unfold Obligations.DestReadsTheEmptyTree
  intro s rest hr hbq
  have hloop : destLoop (s.bq.length + 1) 0 ⟨s.bq, [], []⟩ = .tree ⟨rest, [], []⟩ Config.noNode 1 := by
    simp only [hbq, destLoop, tokenZero]
  rw [execDest_of_tree hr hloop, countData_of_lt (by decide)]
  rfl

/-! ## The token loop on the tokens of a whole tree -/

/-- `destLoop_postOrder` with a bound on the rounds that exceeds the bits, before and after. -/
theorem destLoop_postOrder_append (t : Tree) {n k : Nat} {rest : Bits} {nodes : List Node} {stk : List Idx}
    (hroom : nodes.length + t.size ≤ 511) (hn : (postOrder t ++ rest).length < n) :
    ∃ n', rest.length < n' ∧ destLoop n k ⟨postOrder t ++ rest, nodes, stk⟩ =
      destLoop n' (k + (postOrder t).length)
        ⟨rest, nodes ++ postNodes t nodes.length, BitVec.ofNat 9 (nodes.length + t.size - 1) :: stk⟩ := by
  have hsize := size_le_postOrder_length t
  rw [List.length_append] at hn
  obtain ⟨n', rfl⟩ : ∃ n', n = t.size + n' := ⟨n - t.size, by omega⟩
  exact ⟨n', by omega, destLoop_postOrder t n' k rest nodes stk hroom⟩

/-- A fault after the tokens of a whole tree: the tree has allocated its nodes and left one entry on the stack. -/
theorem destLoop_postOrder_append_raised {t : Tree} {n k : Nat} {rest : Bits} {nodes : List Node} {stk : List Idx}
    {c : Cause} (hroom : nodes.length + t.size ≤ 511) (hn : (postOrder t ++ rest).length < n)
    (h : ∀ n' k' nodes' root, rest.length < n' → nodes'.length = nodes.length + t.size →
      ∃ d, destLoop n' k' ⟨rest, nodes', root :: stk⟩ = .raised c d) :
    ∃ d, destLoop n k ⟨postOrder t ++ rest, nodes, stk⟩ = .raised c d := by
  obtain ⟨n', hn', hloop⟩ := destLoop_postOrder_append t hroom hn
  rw [hloop]
  exact h _ _ _ _ hn' (by rw [List.length_append, postNodes_length])

/-- The nodes allocated for a tree hold it: its root is the last of them. -/
theorem treeAt_postNodes (t : Tree) {nodes : List Node} (hroom : nodes.length + t.size ≤ 511) :
    TreeAt (nodes ++ postNodes t nodes.length) (BitVec.ofNat 9 (nodes.length + t.size - 1)) t := by
  induction t generalizing nodes with
  | leaf v =>
    rw [Tree.size_leaf] at hroom ⊢
    refine .leaf (w := 0) ?_
    rw [nodeAt, toNat_ofNat_idx (by omega)]
    simp [postNodes]
  | node l r ihl ihr =>
    rw [Tree.size_node] at hroom ⊢
    have hlen : (nodes ++ postNodes l nodes.length).length = nodes.length + l.size := by
      rw [List.length_append, postNodes_length]
    have hl := ihl (nodes := nodes) (by omega)
    have hr := ihr (nodes := nodes ++ postNodes l nodes.length) (by omega)
    rw [hlen] at hr
    simp only [postNodes, ← List.append_assoc]
    refine .node (w := 0) ?_ ((hl.append _).append _) (hr.append _)
    rw [nodeAt, toNat_ofNat_idx (by omega), List.getElem?_append_right (by simp [postNodes_length])]
    simp [postNodes_length]

theorem weight_of_mem_postNodes {t : Tree} {b : Nat} {n : Node} (h : n ∈ postNodes t b) : n.weight = 0 := by
  induction t generalizing b with
  | leaf v => obtain rfl := List.mem_singleton.1 h; rfl
  | node l r ihl ihr =>
    simp only [postNodes, List.mem_append, List.mem_singleton] at h
    rcases h with (h | h) | rfl
    · exact ihl h
    · exact ihr h
    · rfl

/-- On the tree bits of a tree of at most 256 leaves the loop ends with that tree. -/
theorem destLoop_serialized {t : Tree} (ht : t.leafCount ≤ 256) {n : Nat} (rest : Bits)
    (hn : (serialized t ++ rest).length < n) :
    destLoop n 0 ⟨serialized t ++ rest, [], []⟩ =
      .tree ⟨rest, postNodes t 0, []⟩ (BitVec.ofNat 9 (t.size - 1)) (serialized t).length := by
  rw [serialized_eq, List.append_assoc] at hn ⊢
  obtain ⟨n', hn', hloop⟩ := destLoop_postOrder_append (k := 0) (nodes := []) (stk := []) t
    (by simp [Tree.size]; omega) hn
  obtain ⟨m, rfl⟩ : ∃ m, n' = m + 1 := ⟨n' - 1, by omega⟩
  rw [hloop]
  simp [destLoop, tokenZero]

/-- A token loop from the start that ends with a tree, the empty one or not, leaves T1 to T5 (R129). -/
theorem treeInv_endTree_of_destLoop {n k k' : Nat} {bq : Bits} {d : Deser} {root : Idx}
    (h : destLoop n k ⟨bq, [], []⟩ = .tree d root k') (s : State) : TreeInv (endTree s d root) := by
  obtain ⟨-, -, ⟨hnil, hroot⟩ | ⟨hforest, hlen, hroot⟩⟩ := destLoop_tree (DInv0 bq) h
  · exact emptyTreeInv hroot (by simp [hnil]) hnil
  · exact Forest.treeInv hforest hroot hlen (by simp) rfl

/-- Settles O36: the loop ends with the tree in `postNodes`, and that it is one tree that meets T1 to T5 is what the
loop keeps. -/
theorem destReadsBackEveryTree : Obligations.DestReadsBackEveryTree := by
  unfold Obligations.DestReadsBackEveryTree
  intro s t rest hr hbq ht
  have hsize : t.size ≤ 511 := by unfold Tree.size; omega
  have hloop := destLoop_serialized ht rest (Nat.lt_succ_self _)
  rw [← hbq] at hloop
  refine ⟨_, execDest_of_tree hr hloop, ?_, ?_, fun n hn => weight_of_mem_postNodes hn, ?_⟩
  · exact (treeInv_endTree_of_destLoop hloop s).congr rfl rfl rfl
  · simpa using treeAt_postNodes (nodes := []) t (by simpa using hsize)
  · rw [countData_serialized ht]
    rfl

/-! ## Bits that end too soon (R128 (a), (d), (e)) -/

/-- A proper beginning of a leaf token raises TruncatedTree, whether or not a node is free. -/
theorem destLoop_of_short_leaf {v : Byte} {p missing : Bits} (h : p ++ missing = true :: byteBits v)
    (hmissing : missing ≠ []) (n k : Nat) (nodes : List Node) (stk : List Idx) :
    ∃ d, destLoop n k ⟨p, nodes, stk⟩ = .raised .truncatedTree d := by
  cases n with
  | zero => exact ⟨_, rfl⟩
  | succ n =>
    cases p with
    | nil => exact ⟨_, rfl⟩
    | cons b q =>
      have hlen := congrArg List.length h
      have hpos := List.length_pos_of_ne_nil hmissing
      obtain ⟨rfl, -⟩ := List.cons.inj h
      simp at hlen
      exact ⟨_, by simp only [destLoop]; rw [tokenLeaf_of_short (by omega)]⟩

theorem destLoop_nil (n k : Nat) (nodes : List Node) (stk : List Idx) :
    ∃ d, destLoop n k ⟨[], nodes, stk⟩ = .raised .truncatedTree d := by
  cases n <;> exact ⟨_, rfl⟩

/-- A proper beginning of two parts ends inside the first of them, or goes on into the second. -/
theorem proper_beginning_append {α : Type} {p missing a b : List α} (h : p ++ missing = a ++ b) :
    (∃ miss, miss ≠ [] ∧ p ++ miss = a) ∨ ∃ q, p = a ++ q ∧ q ++ missing = b := by
  rcases List.append_eq_append_iff.1 h with ⟨miss, ha, hmiss⟩ | ⟨q, hp, hq⟩
  · by_cases hnil : miss = []
    · exact .inr ⟨[], by simp [ha, hnil], by simp [hmiss, hnil]⟩
    · exact .inl ⟨miss, hnil, ha.symm⟩
  · exact .inr ⟨q, hp, hq.symm⟩

/-- A proper beginning of one bit is no bit. -/
theorem eq_nil_of_append_eq_singleton {α : Type} {p missing : List α} {a : α} (h : p ++ missing = [a])
    (hmissing : missing ≠ []) : p = [] :=
  (List.append_eq_singleton_iff.1 h).elim And.left fun hnil => absurd hnil.2 hmissing

theorem firstTokens_zero (t : Tree) : firstTokens 0 t = [] := rfl

/-- No more tokens than the left subtree has are tokens of it. -/
theorem firstTokens_node_of_le {m : Nat} {l r : Tree} (h : m ≤ l.size) :
    firstTokens m (.node l r) = firstTokens m l := by
  rw [firstTokens_node, Nat.sub_eq_zero_of_le h, if_neg (by omega), List.append_nil, firstTokens_zero, List.append_nil]

/-- More tokens than the left subtree has are all of its tokens, and go on with the right one. -/
theorem firstTokens_node_of_lt {m : Nat} {l r : Tree} (h : l.size < m) :
    firstTokens m (.node l r) =
      postOrder l ++ (firstTokens (m - l.size) r ++ if l.size + r.size < m then [false] else []) := by
  rw [firstTokens_node, firstTokens_of_size_le h.le, List.append_assoc]

/-- A proper beginning of the first `m` tokens of a tree raises TruncatedTree when no token before the last of them
finds NODE full: that one is not complete. -/
theorem destLoop_of_proper_beginning {t : Tree} {m n k : Nat} {p missing : Bits} {nodes : List Node} {stk : List Idx}
    (hm : nodes.length + m ≤ 512) (h : p ++ missing = firstTokens m t) (hmissing : missing ≠ []) (hn : p.length < n) :
    ∃ d, destLoop n k ⟨p, nodes, stk⟩ = .raised .truncatedTree d := by
  induction t generalizing m n k p missing nodes stk with
  | leaf v =>
    cases m with
    | zero => exact absurd (List.append_eq_nil_iff.1 h).2 hmissing
    | succ m =>
      rw [firstTokens_of_size_le (by simp [Tree.size_leaf])] at h
      exact destLoop_of_short_leaf h hmissing _ _ _ _
  | node l r ihl ihr =>
    by_cases hl : m ≤ l.size
    · exact ihl hm (h.trans (firstTokens_node_of_le hl)) hmissing hn
    rw [firstTokens_node_of_lt (by omega)] at h
    rcases proper_beginning_append h with ⟨miss, hmiss, hp⟩ | ⟨q, rfl, hq⟩
    · exact ihl hm (hp.trans (firstTokens_of_size_le (by omega)).symm) hmiss hn
    refine destLoop_postOrder_append_raised (by omega) hn fun n k nodes' _ hn hnodes => ?_
    rcases proper_beginning_append hq with ⟨miss, hmiss, hp⟩ | ⟨q', rfl, hq'⟩
    · exact ihr (by omega) hp hmiss hn
    split at hq'
    · obtain rfl := eq_nil_of_append_eq_singleton hq' hmissing
      rw [firstTokens_of_size_le (by omega)] at hn ⊢
      exact destLoop_postOrder_append_raised (by omega) hn fun _ _ _ _ _ _ => destLoop_nil _ _ _ _
    · exact absurd (List.append_eq_nil_iff.1 hq').2 hmissing

/-! ## Bits that ask for a 512th node (R128 (g)) -/

/-- The token for which no node is free raises TreeOverflow. -/
theorem destLoop_of_full {t : Tree} {m n k : Nat} {rest : Bits} {nodes : List Node} {stk : List Idx}
    (hm : nodes.length + m = 512) (hnodes : nodes.length ≤ 511) (ht : m ≤ t.size)
    (hn : (firstTokens m t ++ rest).length < n) :
    ∃ d, destLoop n k ⟨firstTokens m t ++ rest, nodes, stk⟩ = .raised .treeOverflow d := by
  induction t generalizing m n k rest nodes stk with
  | leaf v =>
    rw [Tree.size_leaf] at ht
    rw [firstTokens_of_size_le (by rw [Tree.size_leaf]; omega)] at hn ⊢
    obtain ⟨n, rfl⟩ : ∃ n', n = n' + 1 := ⟨n - 1, by omega⟩
    exact ⟨_, by simp only [postOrder, List.cons_append, destLoop]; rw [tokenLeaf_of_le (by omega)]⟩
  | node l r ihl ihr =>
    rw [Tree.size_node] at ht
    by_cases hl : m ≤ l.size
    · rw [firstTokens_node_of_le hl] at hn ⊢
      exact ihl hm hnodes hl hn
    rw [firstTokens_node_of_lt (by omega), List.append_assoc] at hn ⊢
    refine destLoop_postOrder_append_raised (by omega) hn fun n k nodes' _ hn hnodes' => ?_
    rw [List.append_assoc] at hn ⊢
    by_cases hr : m ≤ l.size + r.size
    · exact ihr (by omega) (by omega) (by omega) hn
    rw [firstTokens_of_size_le (by omega), if_pos (by omega)] at hn ⊢
    refine destLoop_postOrder_append_raised (by omega) hn fun n k nodes'' _ hn hnodes'' => ?_
    obtain ⟨n, rfl⟩ : ∃ n', n = n' + 1 := ⟨n - 1, by omega⟩
    exact ⟨_, by simp only [List.cons_append, destLoop]; rw [tokenZero_of_le (by omega)]⟩

/-- Settles O38: the terminator needs no node, so that a tree of at most 256 leaves fills at most 511. -/
theorem destFaultsOnShortOrLargeTrees : Obligations.DestFaultsOnShortOrLargeTrees := by
  unfold Obligations.DestFaultsOnShortOrLargeTrees
  have overflow (s : State) (t : Tree) (rest : Bits) (hr : s.halt = false) (ht : 256 < t.leafCount)
      (hbq : s.bq = firstTokens 512 t ++ rest) :
      ∃ u, exec .dest s = .next u ∧ u.err = 9 ∧ u.errinfo = 0 ∧ u.halt = true ∧ u.trace = s.trace ++ [⟨9, 0⟩] := by
    refine execDest_of_raised (c := .treeOverflow) hr ?_
    rw [hbq]
    exact destLoop_of_full rfl (by decide) (by unfold Tree.size; omega) (Nat.lt_succ_self _)
  refine ⟨?_, overflow, ?_⟩
  · intro s t missing hr hmissing hbq hshort
    refine execDest_of_raised (c := .truncatedTree) hr ?_
    rw [← firstTokens_append 512] at hbq
    rcases proper_beginning_append hbq with ⟨miss, hmiss, hp⟩ | ⟨q, hp, hq⟩
    · exact destLoop_of_proper_beginning (by decide) hp hmiss (Nat.lt_succ_self _)
    have hsize : t.size ≤ 511 := by
      rcases hshort with hle | hlt
      · unfold Tree.size; omega
      · rw [hp, List.length_append] at hlt; omega
    rw [List.drop_eq_nil_of_le (by rw [Tree.tokens_length]; omega)] at hq
    obtain rfl := eq_nil_of_append_eq_singleton hq hmissing
    rw [hp, firstTokens_of_size_le (by omega)]
    exact destLoop_postOrder_append_raised (by simpa using hsize) (Nat.lt_succ_self _)
      fun _ _ _ _ _ _ => destLoop_nil _ _ _ _
  · intro s t rest hr ht hbq
    rw [← firstTokens_append 512, List.append_assoc] at hbq
    exact overflow s t _ hr ht hbq

/-! ## No bit sequence is left out -/

/-- Eight bits are the bits of a byte. -/
theorem exists_byteBits_eq : ∀ {q : Bits}, q.length = 8 → ∃ v, byteBits v = q
  | [b1, b2, b3, b4, b5, b6, b7, b8], _ =>
    ⟨byteOfBits b1 b2 b3 b4 b5 b6 b7 b8, byteBits_byteOfBits b1 b2 b3 b4 b5 b6 b7 b8⟩

/-- Bits begin with a token, or end inside a leaf token (R73). -/
theorem begins_with_token (b : Bits) : (∃ rest, b = false :: rest) ∨
    (∃ v rest, b = postOrder (.leaf v) ++ rest) ∨ ∃ v, b <+: postOrder (.leaf v) := by
  rcases b with _ | ⟨_ | _, q⟩
  · exact .inr (.inr ⟨0, List.nil_prefix⟩)
  · exact .inl ⟨q, rfl⟩
  by_cases hq : 8 ≤ q.length
  · obtain ⟨v, hv⟩ := exists_byteBits_eq (q := q.take 8) (by simpa using hq)
    exact .inr (.inl ⟨v, q.drop 8, by simp [postOrder, hv]⟩)
  · obtain ⟨v, hv⟩ := exists_byteBits_eq (q := q ++ List.replicate (8 - q.length) false) (by simp; omega)
    exact .inr (.inr ⟨v, List.prefix_cons_inj true |>.2 (hv ▸ List.prefix_append _ _)⟩)

/-- Bits that begin with the tokens of a whole tree begin with all the tree bits of some tree, or are a beginning of
them: after the tree `t` comes the terminator, or another whole tree `u` and with it the tree of `t` and `u`. -/
theorem comparable_of_postOrder (r : Bits) (t : Tree) :
    ∃ u, serialized u <+: postOrder t ++ r ∨ postOrder t ++ r <+: serialized u := by
  induction hlen : r.length using Nat.strong_induction_on generalizing r t with
  | _ len ih =>
    subst hlen
    have node_of_prefix {u : Tree} (h : r <+: postOrder u ++ [false]) :
        postOrder t ++ r <+: serialized (.node t u) := by
      rw [serialized_eq, postOrder, List.append_assoc (postOrder t)]
      exact ((List.prefix_append_right_inj _).2 h).trans (List.prefix_append _ _)
    rcases begins_with_token r with ⟨rest, rfl⟩ | ⟨v, rest, rfl⟩ | ⟨v, hv⟩
    · exact ⟨t, .inl (by simp [serialized_eq])⟩
    · obtain ⟨u, ⟨rest', hu⟩ | hu⟩ := ih _ (by simp [postOrder]) rest (.leaf v) rfl
      · rw [serialized_eq] at hu
        have hnode : postOrder t ++ (postOrder (.leaf v) ++ rest) = postOrder (.node t u) ++ rest' := by
          rw [← hu]; simp [postOrder]
        rw [hnode]
        exact ih _ (by rw [← hu]; simp; omega) rest' _ rfl
      · rw [serialized_eq] at hu
        exact ⟨_, .inr (node_of_prefix hu)⟩
    · exact ⟨_, .inr (node_of_prefix (hv.trans (List.prefix_append _ _)))⟩

theorem firstTokens_prefix (n : Nat) (t : Tree) : firstTokens n t <+: serialized t :=
  ⟨_, firstTokens_append n t⟩

/-- Bits that begin with all the tree bits of a tree, or are a beginning of them, are a case of DEST. -/
theorem dest_case_of_comparable {b : Bits} {t : Tree} (h : serialized t <+: b ∨ b <+: serialized t) :
    (∃ t rest, t.leafCount ≤ 256 ∧ b = serialized t ++ rest) ∨
    (∃ t missing, missing ≠ [] ∧ b ++ missing = serialized t ∧
      (t.leafCount ≤ 256 ∨ b.length < (firstTokens 512 t).length)) ∨
    (∃ t rest, 256 < t.leafCount ∧ b = firstTokens 512 t ++ rest) := by
  have proper (hpre : ¬ serialized t <+: b) : ∃ missing, missing ≠ [] ∧ b ++ missing = serialized t := by
    obtain ⟨missing, hmissing⟩ := h.resolve_left hpre
    refine ⟨missing, ?_, hmissing⟩
    rintro rfl
    exact hpre ⟨[], by rw [← hmissing, List.append_nil, List.append_nil]⟩
  by_cases ht : t.leafCount ≤ 256
  · by_cases hpre : serialized t <+: b
    · obtain ⟨rest, rfl⟩ := hpre
      exact .inl ⟨t, rest, ht, rfl⟩
    · obtain ⟨missing, hne, hmissing⟩ := proper hpre
      exact .inr (.inl ⟨t, missing, hne, hmissing, .inl ht⟩)
  · by_cases hpre : firstTokens 512 t <+: b
    · obtain ⟨rest, rfl⟩ := hpre
      exact .inr (.inr ⟨t, rest, Nat.lt_of_not_le ht, rfl⟩)
    · obtain ⟨missing, hne, hmissing⟩ := proper fun hall => hpre ((firstTokens_prefix 512 t).trans hall)
      refine .inr (.inl ⟨t, missing, hne, hmissing, .inr (Nat.lt_of_not_le fun hle => hpre ?_)⟩)
      exact List.prefix_of_prefix_length_le (firstTokens_prefix 512 t) ⟨missing, hmissing⟩ hle

/-- Settles O55: bits that do not begin with `0` begin with the leaf token of a whole tree, or end inside it. -/
theorem everyBitSequenceIsADestCase : Obligations.EveryBitSequenceIsADestCase := by
  unfold Obligations.EveryBitSequenceIsADestCase
  intro b
  rcases begins_with_token b with hzero | ⟨v, rest, rfl⟩ | ⟨v, hv⟩
  · exact .inl hzero
  · obtain ⟨u, hu⟩ := comparable_of_postOrder rest (.leaf v)
    exact .inr (dest_case_of_comparable hu)
  · rw [← List.append_nil (postOrder _)] at hv
    exact .inr (dest_case_of_comparable (t := .leaf v)
      (.inr (hv.trans (serialized_eq _ ▸ (List.prefix_append_right_inj _).2 List.nil_prefix))))

/-! ## DEST after SERT (R130) -/

/-- Where a tree stands, T1 to T5 give an index that is not NONE. -/
theorem TreeInv.root_ne_noNode {s : State} (h : TreeInv s) {t : Tree} (ht : TreeAt s.node s.root t) :
    s.root ≠ Config.noNode := by
  have hlt : s.root.toNat < s.node.length := by
    cases ht with
    | leaf hn => exact (List.getElem?_eq_some_iff.1 hn).1
    | node hn _ _ => exact (List.getElem?_eq_some_iff.1 hn).1
  have hbound : s.node.length ≤ 511 := h.bound
  intro hroot
  rw [hroot] at hlt
  have : Config.noNode.toNat = 511 := rfl
  omega

/-- Settles O41: SERT leaves in BQ what DEST reads back, the empty tree's `0` or the tree bits of the one tree at ROOT,
which has at most 256 leaves. -/
theorem destInvertsSert : Obligations.DestInvertsSert := by
  unfold Obligations.DestInvertsSert
  intro s inv hr hbq hcap
  have hsert (bits : Bits)
      (hbits : s.root = Config.noNode ∧ bits = [false] ∨
        s.root ≠ Config.noNode ∧ ∃ t, TreeAt s.node s.root t ∧ bits = serialized t) :
      exec .sert s = .next { s with
        bq := bits, trace := s.trace ++ [⟨0, BitVec.ofNat 64 bits.length⟩] } := by
    simpa [hbq] using (sertAppendsTheTreeBits.2 s bits hr (inv.tree hr) hbits).1 (by simp [hcap])
  by_cases hroot : s.root = Config.noNode
  · refine ⟨_, _, _, hsert [false] (.inl ⟨hroot, rfl⟩), rfl, destReadsTheEmptyTree _ [] hr rfl, rfl, rfl,
      emptyTreeInv rfl rfl rfl, fun _ => rfl, fun t hne => absurd hroot hne⟩
  · obtain ⟨t, -, ht⟩ := currentTree_eq_some (inv.tree hr) hroot
    have hleaves := (inv.tree hr).leafCount_le hroot ht
    obtain ⟨b, hdest, hinv, hat, -, hb⟩ :=
      destReadsBackEveryTree { s with
        bq := serialized t, trace := s.trace ++ [⟨0, BitVec.ofNat 64 (serialized t).length⟩] } t [] hr
        (List.append_nil _).symm hleaves
    refine ⟨_, b, _, hsert _ (.inr ⟨hroot, t, ht, rfl⟩), rfl, hdest, by rw [hb], by rw [hb], hinv,
      fun h => absurd h hroot, fun u _ hu => ?_⟩
    rw [hu.unique ht]
    exact ⟨hinv.root_ne_noNode hat, hat⟩

end Sys2Proof.Machine
end

section
/-! PROOFS. The symbol encoder (44_symbol_encoder.md R136 to R138): what ENCS appends, and as many DECS as ENCS reading
it back (45_symbol_decoder.md R145). -/

namespace Sys2Proof.Machine

/-! ## ENCS and DECS on a running block (R136, R142, R143) -/

/-- A symbol of the tree has a code, and the codebook holds it. -/
theorem CodebookOf.code_of_mem {t : Tree} {code : Table (Option Bits)} (h : CodebookOf t code) {v : Byte}
    (hv : v ∈ t.symbols) : ∃ p, tableGet code v = some p ∧ IsCode t p v := by
  have hcode : ∃ p, IsCode t p v := by
    cases t with
    | leaf u => exact ⟨[false], rfl, List.mem_singleton.1 hv⟩
    | node l r => exact CodePath.exists_of_mem hv
  obtain ⟨p, hp⟩ := hcode
  exact ⟨p, (h v p).2 hp, hp⟩

section
variable {s : State} (hr : s.halt = false)
include hr

/-- ENCS of a symbol with a code pushes the code. -/
theorem execEncs_of_some {sym : Byte} {p : Bits} (hc : tableGet s.code sym = some p) :
    execEncs sym s = .next (pushBits p s (respond (countData p.length))) := by
  rw [execEncs, whileRunning_running _ hr, hc]

/-- DECS takes the code of a leaf off the head of BQ: the single-leaf tree's one `0`, or the bits its walk reads. -/
theorem execDecs_of_isCode {t : Tree} {p rest : Bits} {v : Byte} (hroot : s.root ≠ Config.noNode)
    (ht : TreeAt s.node s.root t) (hp : IsCode t p v) (hbq : s.bq = p ++ rest) :
    execDecs s = .next (respond (v.setWidth 64) { s with bq := rest }) := by
  rw [execDecs, whileRunning_running _ hr, if_neg hroot]
  cases ht with
  | leaf hn =>
    obtain ⟨rfl, rfl⟩ := hp
    simp only [hn, decodeSingle, hbq, List.singleton_append]
  | node hn hl hrt => simp only [hn, hbq, descend_path (.node hn hl hrt) hp rest]

end

/-! ## Issuing commands (R205) -/

/-- A command whose meaning responds is answered with the response's data. -/
theorem issue_of_respond {i : Instr} {w : CmdWord} {s u : State} {d : Data} (hi : encode i = .command w)
    (h : exec i s = .next (respond d u)) : issue i s = .ok (d, respond d u) := by
  simp [issue, hi, present_ok (decode_of_encode hi), h, respond, answer]

theorem issueAll_cons {i : Instr} {is : List Instr} {s t u : State} {d : Data} {ds : List Data}
    (hi : issue i s = .ok (d, t)) (his : issueAll is t = .ok (ds, u)) :
    issueAll (i :: is) s = .ok (d :: ds, u) := by
  simp only [issueAll, hi, his]

theorem payload_cons {code : Table (Option Bits)} {v : Byte} {p : Bits} (h : tableGet code v = some p)
    (d : List Byte) : payload code (v :: d) = p ++ payload code d := by
  simp [payload, h]

/-- One ENCS per byte appends the payload bits to a BQ without a capacity (R138). -/
theorem issueAll_encs {s : State} (hr : s.halt = false) (hcap : s.caps.bq = none) {d : List Byte}
    (hcodes : ∀ v ∈ d, ∃ p, tableGet s.code v = some p) :
    ∃ ds tr, issueAll (d.map .encs) s = .ok (ds, { s with bq := s.bq ++ payload s.code d, trace := tr }) := by
  induction d generalizing s with
  | nil => exact ⟨[], s.trace, by simp [issueAll, payload]⟩
  | cons v d ih =>
    obtain ⟨⟨p, hp⟩, hd⟩ := List.forall_mem_cons.1 hcodes
    have hexec : exec (.encs v) s = .next (respond (countData p.length) { s with bq := s.bq ++ p }) :=
      (execEncs_of_some hr hp).trans (congrArg _ (pushBits_fits (roomFor_of_le (by simp [hcap]))))
    obtain ⟨ds, tr, hds⟩ := ih (s := respond (countData p.length) { s with bq := s.bq ++ p }) hr hcap hd
    rw [payload_cons hp, ← List.append_assoc]
    exact ⟨_, tr, issueAll_cons (issue_of_respond rfl hexec) hds⟩

/-- One DECS per code at the head of BQ answers the codes' symbols and consumes exactly the codes (R145). -/
theorem issueAll_decs {s : State} {t : Tree} {d : List Byte} {rest : Bits} (hr : s.halt = false)
    (hroot : s.root ≠ Config.noNode) (ht : TreeAt s.node s.root t)
    (hcodes : ∀ v ∈ d, ∃ p, tableGet s.code v = some p ∧ IsCode t p v) (hbq : s.bq = payload s.code d ++ rest) :
    ∃ tr, issueAll (List.replicate d.length .decs) s =
      .ok (d.map fun v => v.setWidth 64, { s with bq := rest, trace := tr }) := by
  induction d generalizing s with
  | nil =>
    have hrest : s.bq = rest := hbq
    exact ⟨s.trace, hrest ▸ rfl⟩
  | cons v d ih =>
    obtain ⟨⟨p, hp, hcode⟩, hd⟩ := List.forall_mem_cons.1 hcodes
    rw [payload_cons hp, List.append_assoc] at hbq
    have hexec : exec .decs s = _ := execDecs_of_isCode hr hroot ht hcode hbq
    obtain ⟨tr, hds⟩ := ih (s := respond (v.setWidth 64) { s with bq := payload s.code d ++ rest }) hr hroot ht hd rfl
    exact ⟨tr, issueAll_cons (issue_of_respond rfl hexec) hds⟩

/-! ## The statements -/

/-- Settles O42: ENCS is one push of the code, which fits or fills BQ; the count of at most 255 bits is exact. -/
theorem encsAppendsTheCode : Obligations.EncsAppendsTheCode := by
  unfold Obligations.EncsAppendsTheCode
  refine ⟨fun sym => decode_of_encode (i := .encs sym) rfl, fun s sym hr => ⟨fun p hp hlen => ?_, execEncs_of_none hr⟩⟩
  have hexec : exec (.encs sym) s = .next (pushBits p s (respond (BitVec.ofNat 64 p.length))) := by
    rw [← countData_of_lt (by omega)]
    exact execEncs_of_some hr hp
  rw [hexec]
  exact ⟨fun hroom => congrArg _ (pushBits_fits (roomFor_of_le hroom)),
    fun c hc hle hlt => congrArg _ (pushBits_full hc hle hlt)⟩

/-- Settles O45: every byte of the input has a code, which its ENCS appends and its DECS takes off. -/
theorem decsInvertsEncs : Obligations.DecsInvertsEncs := by
  unfold Obligations.DecsInvertsEncs
  intro s t d hr hroot ht hbook hmem
  have hcodes : ∀ v ∈ d, ∃ p, tableGet s.code v = some p ∧ IsCode t p v := fun v hv => hbook.code_of_mem (hmem v hv)
  constructor
  · intro hcap
    obtain ⟨ds, tr, h⟩ := issueAll_encs hr hcap fun v hv => (hcodes v hv).imp fun _ hp => hp.1
    exact ⟨ds, _, h, rfl⟩
  · intro rest hbq
    obtain ⟨tr, h⟩ := issueAll_decs hr hroot ht hcodes hbq
    exact ⟨_, h, rfl⟩

end Sys2Proof.Machine
end

section
/-! PROOFS. The symbol decoder (45_symbol_decoder.md R142 to R144): DECS on a code at the head of BQ, and its three
faults. -/

namespace Sys2Proof.Machine

/-! ## The faults of DECS on a running block -/

section
variable {s : State} (hr : s.halt = false)
include hr

/-- The empty tree has no code (R142). -/
theorem execDecs_of_noNode (hroot : s.root = Config.noNode) :
    execDecs s = .next (raise .emptyAlphabetMismatch 0 s) := by
  rw [execDecs, whileRunning_running _ hr, if_pos hroot]

/-- In the single-leaf tree DECS reads one bit without a walk (R143). -/
theorem execDecs_of_leaf {v : Byte} {w : Weight} (hroot : s.root ≠ Config.noNode)
    (hn : nodeAt s.node s.root = some (.leaf v w)) : execDecs s = .next (decodeSingle v s) := by
  rw [execDecs, whileRunning_running _ hr, if_neg hroot, hn]

/-- A BQ that ends inside a code is consumed whole (R142, R144 (b)): the single-leaf tree's code has one bit, so that
BQ is empty there, and elsewhere the walk runs out of bits. -/
theorem execDecs_of_short {t : Tree} {missing : Bits} {v : Byte} (hroot : s.root ≠ Config.noNode)
    (ht : TreeAt s.node s.root t) (hp : IsCode t (s.bq ++ missing) v) (hmissing : missing ≠ []) :
    execDecs s = .next (raise .truncatedPayload 0 { s with bq := [] }) := by
  cases ht with
  | leaf hn =>
    have hnil : s.bq = [] := eq_nil_of_append_eq_singleton hp.1 hmissing
    have hempty : { s with bq := [] } = s := by rw [← hnil]
    rw [execDecs_of_leaf hr hroot hn, decodeSingle, hempty, hnil]
  | node hn hl hrt =>
    rw [execDecs, whileRunning_running _ hr, if_neg hroot]
    simp only [hn, descend_short (.node hn hl hrt) hp hmissing]

end

/-! ## The statements -/

/-- Settles O43: the walk on bits that begin with a leaf's path ends at that leaf. -/
theorem decsDecodesTheCodeAtTheHead : Obligations.DecsDecodesTheCodeAtTheHead := by
  unfold Obligations.DecsDecodesTheCodeAtTheHead
  intro s t p rest v hr hroot ht hp hbq
  exact execDecs_of_isCode hr hroot ht hp hbq

/-- Settles O44: the walk on bits that end inside a leaf's path runs out of them. -/
theorem decsFaultsOnEmptyShortOrWrongBits : Obligations.DecsFaultsOnEmptyShortOrWrongBits := by
  unfold Obligations.DecsFaultsOnEmptyShortOrWrongBits
  refine ⟨fun s hr hroot => execDecs_of_noNode hr hroot, ?_, ?_⟩
  · intro s t p missing v hr hroot ht hp hbq hmissing
    exact execDecs_of_short hr hroot ht (hbq ▸ hp) hmissing
  · intro s v w rest hr hroot hn hbq
    have hexec : exec .decs s = .next (decodeSingle v s) := execDecs_of_leaf hr hroot hn
    rw [hexec, decodeSingle, hbq]
    rfl

end Sys2Proof.Machine
end

section
/-! PROOFS. The bit packer and unpacker (46_bit_packer.md R151 to R154): where the bits of BQ stand in the packed bytes,
and PACK and UNPACK undoing each other. -/

namespace Sys2Proof.Machine

/-! ## Bytes and bits (20_memory.md R42, R43) -/

/-- Position `k` of a byte's bits holds the bit numbered `7 - k`. -/
theorem getElem?_byteBits (v : Byte) {k : Nat} (hk : k < 8) : (byteBits v)[k]? = some (v.getLsbD (7 - k)) := by
  interval_cases k <;> rfl

/-- Position `p` of the bits of a byte sequence lies in byte `p div 8`, at position `p mod 8` of its bits. -/
theorem getElem?_bitsOfBytes (bs : List Byte) (p : Nat) :
    (bitsOfBytes bs)[p]? = bs[p / 8]?.map fun b => b.getLsbD (7 - p % 8) := by
  induction bs generalizing p with
  | nil => rfl
  | cons v bs ih =>
    rw [bitsOfBytes_cons]
    rcases Nat.lt_or_ge p 8 with hp | hp
    · rw [List.getElem?_append_left hp, getElem?_byteBits v hp, Nat.div_eq_of_lt hp, Nat.mod_eq_of_lt hp]
      rfl
    · obtain ⟨k, rfl⟩ := Nat.exists_eq_add_of_le' hp
      rw [List.getElem?_append_right hp, byteBits_length, Nat.add_sub_cancel, ih, Nat.add_div_right k (by decide),
        List.getElem?_cons_succ, Nat.add_mod_right]

/-! ## Packed bytes (R151, R152) -/

/-- The zeros that fill up the last byte of a bit sequence. -/
def padding (q : Bits) : Bits := List.replicate ((8 - q.length % 8) % 8) false

theorem padding_of_length_mod {q : Bits} (h : q.length % 8 = 0) : padding q = [] := by
  rw [padding, h]
  rfl

/-- A whole group of eight bits does not change how many zeros are missing. -/
theorem padding_append_of_length_mod {a : Bits} (h : a.length % 8 = 0) (b : Bits) : padding (a ++ b) = padding b := by
  rw [padding, List.length_append, Nat.add_mod, h, Nat.zero_add, Nat.mod_mod, padding]

/-- The bits of the packed bytes are the bits packed and the zeros that fill up the last byte: eight bits make one byte,
and a shorter group is the last (R151). -/
theorem bitsOfBytes_bytesOfBits : ∀ q : Bits, bitsOfBytes (bytesOfBits q) = q ++ padding q
  | [] => rfl
  | b1 :: b2 :: b3 :: b4 :: b5 :: b6 :: b7 :: b8 :: rest => by
    rw [bytesOfBits, bitsOfBytes_cons, byteBits_byteOfBits, bitsOfBytes_bytesOfBits rest, ← List.append_assoc,
      ← padding_append_of_length_mod (a := [b1, b2, b3, b4, b5, b6, b7, b8]) (Nat.mod_self 8) rest]
    rfl
  | [_] | [_, _] | [_, _, _] | [_, _, _, _] | [_, _, _, _, _] | [_, _, _, _, _, _] | [_, _, _, _, _, _, _] => by
    simp [bytesOfBits, padding, List.replicate]

/-- PACK makes ceil(len / 8) bytes. -/
theorem length_bytesOfBits (q : Bits) : (bytesOfBits q).length = (q.length + 7) / 8 := by
  have h := congrArg List.length (bitsOfBytes_bytesOfBits q)
  rw [bitsOfBytes_length, List.length_append, padding, List.length_replicate] at h
  omega

/-- Bit position `p` of the bits packed stands in byte `p div 8`, and past their end the byte holds zeros. -/
theorem getLsbD_of_bytesOfBits {q : Bits} {p : Nat} {b : Byte} (hb : (bytesOfBits q)[p / 8]? = some b) :
    b.getLsbD (7 - p % 8) = q.getD p false := by
  have hbit : (q ++ padding q)[p]? = some (b.getLsbD (7 - p % 8)) := by
    rw [← bitsOfBytes_bytesOfBits, getElem?_bitsOfBytes, hb, Option.map_some]
  rw [List.getD_eq_getElem?_getD]
  rcases Nat.lt_or_ge p q.length with hp | hp
  · rw [← List.getElem?_append_left hp (l₂ := padding q), hbit, Option.getD_some]
  · rw [List.getElem?_append_right hp] at hbit
    rw [List.getElem?_eq_none hp, Option.getD_none]
    exact List.eq_of_mem_replicate (List.mem_of_getElem? hbit)

/-- Packing gives back the bytes that the first bits come from, and packs what follows on its own. -/
theorem bytesOfBits_bitsOfBytes_append (bs : List Byte) (q : Bits) :
    bytesOfBits (bitsOfBytes bs ++ q) = bs ++ bytesOfBits q := by
  induction bs with
  | nil => rfl
  | cons v bs ih =>
    rw [bitsOfBytes_cons, List.append_assoc, bytesOfBits_byteBits_append, ih, List.cons_append]

theorem bytesOfBits_bitsOfBytes (bs : List Byte) : bytesOfBits (bitsOfBytes bs) = bs := by
  have h := bytesOfBits_bitsOfBytes_append bs []
  rwa [List.append_nil, bytesOfBits, List.append_nil] at h

/-- Bits that fill whole bytes are packed apart from those after them (R152 (f)). -/
theorem bytesOfBits_append_of_length_mod {a : Bits} (h : a.length % 8 = 0) (b : Bits) :
    bytesOfBits (a ++ b) = bytesOfBits a ++ bytesOfBits b := by
  have ha : bitsOfBytes (bytesOfBits a) = a := by
    rw [bitsOfBytes_bytesOfBits, padding_of_length_mod h, List.append_nil]
  rw [← bytesOfBits_bitsOfBytes_append, ha]

/-! ## PACK and UNPACK on a running block (R151, R153, R181) -/

/-- A queue that `xs` do not all fit into is full after the pushes. -/
theorem length_append_fitting_of_full {α : Type} {cap : Option Nat} {c : Nat} {q xs : List α} (hc : cap = some c)
    (hq : q.length ≤ c) (h : c < q.length + xs.length) : (q ++ fitting cap q.length xs).length = c := by
  rw [hc, List.length_append, fitting, List.length_take]
  omega

section
variable {s : State} (hr : s.halt = false)
include hr

theorem execPack_room (hroom : roomFor s.caps.ob s.ob.length (bytesOfBits s.bq).length = true) :
    exec .pack s = .next (respond (countData (bytesOfBits s.bq).length)
      { s with bq := [], ob := s.ob ++ bytesOfBits s.bq }) := by
  show execPack s = _
  simp only [execPack, whileRunning_running _ hr, hroom, fitting_of_room hroom, if_true]

theorem execPack_full (hfull : roomFor s.caps.ob s.ob.length (bytesOfBits s.bq).length = false) :
    exec .pack s = .next (raise .queueOverflow 2 { s with
      bq := s.bq.drop (8 * ((fitting s.caps.ob s.ob.length (bytesOfBits s.bq)).length + 1)),
      ob := s.ob ++ fitting s.caps.ob s.ob.length (bytesOfBits s.bq) }) := by
  show execPack s = _
  rw [execPack, whileRunning_running _ hr]
  exact if_neg (by rw [hfull]; decide)

theorem execUnpack_room (hroom : roomFor s.caps.bq s.bq.length (bitsOfBytes s.ib).length = true) :
    exec .unpack s = .next (respond (countData (bitsOfBytes s.ib).length)
      { s with ib := [], bq := s.bq ++ bitsOfBytes s.ib }) := by
  show execUnpack s = _
  simp only [execUnpack, whileRunning_running _ hr, hroom, fitting_of_room hroom, if_true]

theorem execUnpack_full (hfull : roomFor s.caps.bq s.bq.length (bitsOfBytes s.ib).length = false) :
    exec .unpack s = .next (raise .queueOverflow 0 { s with
      ib := s.ib.drop ((fitting s.caps.bq s.bq.length (bitsOfBytes s.ib)).length / 8 + 1),
      bq := s.bq ++ fitting s.caps.bq s.bq.length (bitsOfBytes s.ib) }) := by
  show execUnpack s = _
  rw [execUnpack, whileRunning_running _ hr]
  exact if_neg (by rw [hfull]; decide)

variable (hcaps : s.caps = Config.Caps.unbounded)
include hcaps

theorem execPack_unbounded : exec .pack s = .next (respond (countData (bytesOfBits s.bq).length)
    { s with bq := [], ob := s.ob ++ bytesOfBits s.bq }) :=
  execPack_room hr (by rw [hcaps]; rfl)

theorem execUnpack_unbounded : exec .unpack s = .next (respond (countData (bitsOfBytes s.ib).length)
    { s with ib := [], bq := s.bq ++ bitsOfBytes s.ib }) :=
  execUnpack_room hr (by rw [hcaps]; rfl)

end

/-! ## The statements -/

/-- Settles O46: the packed bytes hold the bits of BQ and the zeros after them; pushes without room fill OB. -/
theorem packPlacesEveryBit : Obligations.PackPlacesEveryBit := by
  unfold Obligations.PackPlacesEveryBit
  refine ⟨decode_of_encode (i := .pack) rfl, fun s hr => ?_⟩
  rw [← length_bytesOfBits]
  constructor
  · intro hroom
    exact ⟨_, _, execPack_room hr (roomFor_of_le hroom), rfl, countData_toNat, fun p b => getLsbD_of_bytesOfBits⟩
  · intro c hc hle hlt
    exact ⟨_, execPack_full hr (roomFor_of_gt hc hle hlt), rfl, rfl, rfl,
      length_append_fitting_of_full hc hle hlt, rfl⟩

/-- Settles O47: the bits of IB follow those of BQ byte by byte; pushes without room fill BQ. -/
theorem unpackPlacesEveryBit : Obligations.UnpackPlacesEveryBit := by
  unfold Obligations.UnpackPlacesEveryBit
  refine ⟨decode_of_encode (i := .unpack) rfl, fun s hr => ?_⟩
  rw [← bitsOfBytes_length]
  constructor
  · intro hroom
    refine ⟨_, _, execUnpack_room hr (roomFor_of_le hroom), rfl, countData_toNat, fun p b hb => ?_⟩
    rw [getElem?_bitsOfBytes, hb, Option.map_some]
  · intro c hc hle hlt
    exact ⟨_, execUnpack_full hr (roomFor_of_gt hc hle hlt), rfl, rfl, rfl,
      length_append_fitting_of_full hc hle hlt, rfl⟩

/-- Settles O48: packing undoes unpacking, and unpacking gives back the bits packed with their padding. -/
theorem packAndUnpackAreInverse : Obligations.PackAndUnpackAreInverse := by
  unfold Obligations.PackAndUnpackAreInverse
  constructor
  · intro s hr hcaps hbq
    refine ⟨_, _, execUnpack_unbounded hr hcaps, execPack_unbounded hr hcaps, rfl, rfl, ?_⟩
    show s.ob ++ bytesOfBits (s.bq ++ bitsOfBytes s.ib) = s.ob ++ s.ib
    rw [hbq, List.nil_append, bytesOfBits_bitsOfBytes]
  · intro s hr hcaps hob
    refine ⟨_, _, execPack_unbounded hr hcaps, execUnpack_unbounded hr hcaps, ?_⟩
    show bitsOfBytes (s.ob ++ bytesOfBits s.bq) = s.bq ++ padding s.bq
    rw [hob, List.nil_append, bitsOfBytes_bytesOfBits]

/-- Settles O49: a first part that fills whole bytes leaves no padding between the two. -/
theorem packSplitsAtAByteBoundary : Obligations.PackSplitsAtAByteBoundary := by
  unfold Obligations.PackSplitsAtAByteBoundary
  intro s a b hr hcaps hbq ha
  refine ⟨_, _, _, execPack_unbounded hr hcaps, execPack_unbounded hr hcaps, execPack_unbounded hr hcaps, ?_⟩
  show s.ob ++ bytesOfBits s.bq = s.ob ++ bytesOfBits a ++ bytesOfBits b
  rw [hbq, bytesOfBits_append_of_length_mod ha, List.append_assoc]

end Sys2Proof.Machine
end

section
/-! PROOFS. The commands a host sequence is made of (47_host_sequences.md R160, R161): what CLR, the LDF commands of an
input, PUTB and GETB answer and leave, one after the other. -/

namespace Sys2Proof.Machine

/-! ## Issuing commands one after the other -/

/-- A command that answers normally gives the host its data. -/
theorem issue_of_answered {i : Instr} {w : CmdWord} {s t : State} {d : Data} (hi : encode i = .command w)
    (h : exec i s = .next t) (ht : t.trace = s.trace ++ [⟨0, d⟩]) : issue i s = .ok (d, t) := by
  simp [issue, hi, present_ok (decode_of_encode hi), h, ht]

theorem issueAll_append {is js : List Instr} {s t u : State} {ds es : List Data}
    (his : issueAll is s = .ok (ds, t)) (hjs : issueAll js t = .ok (es, u)) :
    issueAll (is ++ js) s = .ok (ds ++ es, u) := by
  induction is generalizing s ds with
  | nil => cases his; exact hjs
  | cons i is ih =>
    rw [issueAll] at his
    split at his
    · cases his
    · next hi =>
      split at his
      · cases his
      · next h => cases his; exact issueAll_cons hi (ih h)

theorem issueAll_singleton {i : Instr} {s t : State} {d : Data} (h : issue i s = .ok (d, t)) :
    issueAll [i] s = .ok ([d], t) :=
  issueAll_cons h rfl

/-- CLR succeeds in every state, halted or not (R82). -/
theorem issue_clr (s : State) : issue .clr s = .ok (0, respond 0 (clear s)) := issue_of_respond rfl rfl

/-! ## The counts of an input (R161) -/

/-- The count that is loaded for a byte value. -/
def loadedCount (d : List Byte) (v : Byte) : Weight := BitVec.ofNat 32 (d.count v)

/-- The counts of an input shorter than 2^32 bytes are exact. -/
theorem toNat_loadedCount {d : List Byte} (h : d.length < 2 ^ 32) (v : Byte) :
    (loadedCount d v).toNat = d.count v := by
  have hle : d.count v ≤ d.length := List.count_le_length
  rw [loadedCount, BitVec.toNat_ofNat, Nat.mod_eq_of_lt (by omega)]

/-- The LDF command for a byte value, where the input holds it. -/
def ldfOf (d : List Byte) (v : Byte) : Option Instr := if d.count v = 0 then none else some (.ldf v (loadedCount d v))

theorem loadCommands_eq_filterMap (d : List Byte) : loadCommands d = allBytes.filterMap (ldfOf d) := rfl

/-- The LDF commands for some byte values write the entries of those the input holds and keep the others. -/
theorem issueAll_ldfs (d vs : List Byte) {s : State} (hr : s.halt = false) :
    ∃ ds freq tr, issueAll (vs.filterMap (ldfOf d)) s = .ok (ds, { s with freq := freq, trace := tr }) ∧
      ∀ v, tableGet freq v = if v ∈ vs ∧ d.count v ≠ 0 then loadedCount d v else tableGet s.freq v := by
  induction vs generalizing s with
  | nil => exact ⟨[], s.freq, s.trace, rfl, by simp⟩
  | cons x vs ih =>
    by_cases hx : d.count x = 0
    · obtain ⟨ds, freq, tr, hds, hfreq⟩ := ih hr
      refine ⟨ds, freq, tr, by simpa [ldfOf, hx] using hds, fun v => (hfreq v).trans (if_congr ?_ rfl rfl)⟩
      have absent : v = x → d.count v = 0 := fun h => h ▸ hx
      rw [List.mem_cons]
      tauto
    · have hexec : exec (.ldf x (loadedCount d x)) s = _ := execLdf_running hr x (loadedCount d x)
      obtain ⟨ds, freq, tr, hds, hfreq⟩ := ih (s := respond 0 { s with freq := tableSet s.freq x (loadedCount d x) }) hr
      refine ⟨0 :: ds, freq, tr, ?_, fun v => ?_⟩
      · rw [List.filterMap_cons, ldfOf, if_neg hx]
        exact issueAll_cons (issue_of_respond rfl hexec) hds
      · rw [hfreq v, respond_freq, tableGet_tableSet]
        by_cases hv : v = x
        · subst hv
          simp [hx]
        · simp [hv]

/-- On a running block whose FREQ is clear, the LDF commands of an input load its counts and change nothing else. -/
theorem issueAll_loadCommands (d : List Byte) {s : State} (hr : s.halt = false)
    (hfreq : ∀ v, tableGet s.freq v = 0) :
    ∃ ds freq tr, issueAll (loadCommands d) s = .ok (ds, { s with freq := freq, trace := tr }) ∧
      ∀ v, tableGet freq v = loadedCount d v := by
  obtain ⟨ds, freq, tr, hds, hload⟩ := issueAll_ldfs d allBytes hr
  refine ⟨ds, freq, tr, loadCommands_eq_filterMap d ▸ hds, fun v => ?_⟩
  rw [hload v, hfreq v]
  by_cases hv : d.count v = 0
  · simp [loadedCount, hv]
  · simp [mem_allBytes, hv]

/-- Settles O51: CLR leaves a running block with FREQ clear, and each LDF loads an exact count. -/
theorem loadCommandsLoadTheExactCounts : Obligations.LoadCommandsLoadTheExactCounts := by
  unfold Obligations.LoadCommandsLoadTheExactCounts
  intro d s hlen
  obtain ⟨ds, freq, tr, hds, hfreq⟩ := issueAll_loadCommands d (s := respond 0 (clear s)) rfl fun v => by simp
  exact ⟨0 :: ds, _, issueAll_cons (issue_clr s) hds, rfl,
    fun v => (congrArg BitVec.toNat (hfreq v)).trans (toNat_loadedCount hlen v)⟩

/-! ## The byte queues at the port (R88, R89) -/

/-- One PUTB per byte appends the bytes to an IB without a capacity. -/
theorem issueAll_putbs (p : List Byte) {s : State} (hr : s.halt = false) (hcap : s.caps.ib = none) :
    ∃ tr, issueAll (p.map .putb) s = .ok (p.map fun _ => 0, { s with ib := s.ib ++ p, trace := tr }) := by
  induction p generalizing s with
  | nil => exact ⟨s.trace, by simp [issueAll]⟩
  | cons b p ih =>
    have hexec : exec (.putb b) s = _ := execPutb_room hr (by rw [hcap, roomFor_none]) b
    obtain ⟨tr, hp⟩ := ih (s := respond 0 { s with ib := s.ib ++ [b] }) hr hcap
    rw [List.append_cons]
    exact ⟨tr, issueAll_cons (issue_of_respond rfl hexec) hp⟩

/-- As many GETB as OB holds bytes answer them and empty OB. -/
theorem issueAll_getbs {s : State} (hr : s.halt = false) {p : List Byte} (hob : s.ob = p) :
    ∃ tr, issueAll (List.replicate p.length .getb) s =
      .ok (p.map fun v => v.setWidth 64, { s with ob := [], trace := tr }) := by
  induction p generalizing s with
  | nil =>
    cases s
    cases hob
    exact ⟨_, rfl⟩
  | cons v p ih =>
    have hexec : exec .getb s = _ := execGetb_cons hr hob
    obtain ⟨tr, hp⟩ := ih (s := respond (v.setWidth 64) { s with ob := p }) hr rfl
    exact ⟨tr, issueAll_cons (issue_of_respond rfl hexec) hp⟩

/-- The host reads back the byte that was answered zero-extended. -/
theorem dataByte_setWidth (v : Byte) : dataByte (v.setWidth 64) = v := by
  simp [dataByte]

theorem map_dataByte_setWidth (p : List Byte) : (p.map fun v => v.setWidth 64).map dataByte = p := by
  rw [List.map_map]
  exact (List.map_congr_left fun v _ => dataByte_setWidth v).trans p.map_id

end Sys2Proof.Machine
end

section
/-! PROOFS. What the artifact of an input depends on (47_host_sequences.md R168): the block never reads the host's side
of its port, so that two blocks that agree in everything else answer every command alike. -/

namespace Sys2Proof.Machine

/-! ## Two blocks that differ at the port alone -/

/-- A state with the host's side of the port replaced: what the host will do, and the responses it has received. -/
def State.withPort (s : State) (inp : List PortEvent) (tr : List Response) : State :=
  { s with input := inp, trace := tr }

/-- `t` is `s` but for the host's side of the port. -/
def SameBlock (s t : State) : Prop := ∃ inp tr, t = s.withPort inp tr

theorem SameBlock.answer {s t : State} {r : Response} (h : SameBlock s t) : SameBlock (answer r s) (answer r t) := by
  obtain ⟨inp, tr, rfl⟩ := h
  exact ⟨_, _, rfl⟩

/-- Two meanings give one response and leave the same block, or stop alike. -/
inductive SameOut : Out → Out → Prop
  | answered (r : Response) {u v : State} (h : SameBlock u v) : SameOut (.next (answer r u)) (.next (answer r v))
  | stopped (f : Fault) : SameOut (.fault f) (.fault f)

/-- A meaning that does not read the host's side of the port. -/
def PortBlind (f : State → Out) : Prop := ∀ s inp tr, SameOut (f s) (f (s.withPort inp tr))

theorem SameOut.ite {c : Prop} [Decidable c] {x x' y y' : Out} (hx : SameOut x x') (hy : SameOut y y') :
    SameOut (if c then x else y) (if c then x' else y') := by
  split
  · exact hx
  · exact hy

/-- The halted test does not read the port. -/
theorem PortBlind.whileRunning {f : State → Out} (hf : PortBlind f) : PortBlind fun s => whileRunning s f :=
  fun s inp tr => .ite (.answered _ ⟨inp, tr, rfl⟩) (hf s inp tr)

/-- A push finds the same room. -/
theorem pushBits_portBlind (xs : Bits) (d : Data) : PortBlind fun s => .next (pushBits xs s (respond d)) := by
  intro s inp tr
  unfold pushBits
  dsimp only [State.withPort]
  split <;> exact .answered _ ⟨inp, tr, rfl⟩

theorem decodeSingle_portBlind (v : Byte) : PortBlind fun s => .next (decodeSingle v s) := by
  intro s inp tr
  unfold decodeSingle
  dsimp only [State.withPort]
  split <;> exact .answered _ ⟨inp, tr, rfl⟩

/-! ## Each command's meaning -/

theorem execRdcsr_portBlind (n : Byte) : PortBlind (execRdcsr n) := by
  intro s inp tr
  have hcsr : csr (s.withPort inp tr) n = csr s n := rfl
  refine .ite (.answered _ ⟨inp, tr, rfl⟩) ?_
  rw [hcsr]
  split <;> exact .answered _ ⟨inp, tr, rfl⟩

theorem execPutb_portBlind (byte : Byte) : PortBlind (execPutb byte) :=
  .whileRunning fun _ inp tr => .ite (.answered _ ⟨inp, tr, rfl⟩) (.answered _ ⟨inp, tr, rfl⟩)

theorem execGetb_portBlind : PortBlind execGetb := .whileRunning fun s inp tr => by
  dsimp only [State.withPort]
  split <;> exact .answered _ ⟨inp, tr, rfl⟩

theorem execBuild_portBlind : PortBlind execBuild := .whileRunning fun s inp tr => by
  refine .ite (.answered _ ⟨inp, tr, rfl⟩) ?_
  dsimp only [State.withPort]
  split <;> exact .answered _ ⟨inp, tr, rfl⟩

theorem execGencb_portBlind : PortBlind execGencb := .whileRunning fun s inp tr => by
  refine .ite (.answered _ ⟨inp, tr, rfl⟩) ?_
  dsimp only [State.withPort, currentTree]
  split
  · exact .stopped _
  · split <;> exact .answered _ ⟨inp, tr, rfl⟩

theorem execSert_portBlind : PortBlind execSert := .whileRunning fun s inp tr => by
  refine .ite (pushBits_portBlind _ _ s inp tr) ?_
  dsimp only [State.withPort, currentTree]
  split
  · exact .stopped _
  · exact pushBits_portBlind _ _ s inp tr

theorem execDest_portBlind : PortBlind execDest := .whileRunning fun s inp tr => by
  dsimp only [State.withPort]
  split <;> exact .answered _ ⟨inp, tr, rfl⟩

theorem execEncs_portBlind (sym : Byte) : PortBlind (execEncs sym) := .whileRunning fun s inp tr => by
  dsimp only [State.withPort]
  split
  · exact .answered _ ⟨inp, tr, rfl⟩
  · exact pushBits_portBlind _ _ s inp tr

theorem execDecs_portBlind : PortBlind execDecs := .whileRunning fun s inp tr => by
  refine .ite (.answered _ ⟨inp, tr, rfl⟩) ?_
  dsimp only [State.withPort]
  split
  · exact .stopped _
  · exact decodeSingle_portBlind _ s inp tr
  · split
    · exact .answered _ ⟨inp, tr, rfl⟩
    · exact .answered _ ⟨inp, tr, rfl⟩
    · exact .stopped _

theorem execPack_portBlind : PortBlind execPack :=
  .whileRunning fun _ inp tr => .ite (.answered _ ⟨inp, tr, rfl⟩) (.answered _ ⟨inp, tr, rfl⟩)

theorem execUnpack_portBlind : PortBlind execUnpack :=
  .whileRunning fun _ inp tr => .ite (.answered _ ⟨inp, tr, rfl⟩) (.answered _ ⟨inp, tr, rfl⟩)

/-- No command reads what the host will do or what it was answered. -/
theorem exec_portBlind {i : Instr} {w : CmdWord} (hi : encode i = .command w) : PortBlind (exec i) := by
  cases i with
  | nop => exact PortBlind.whileRunning fun s inp tr => .answered _ ⟨inp, tr, rfl⟩
  | clr => exact fun s inp tr => .answered _ ⟨inp, tr, rfl⟩
  | ldf sym count => exact PortBlind.whileRunning fun s inp tr => .answered _ ⟨inp, tr, rfl⟩
  | rdcsr n => exact execRdcsr_portBlind n
  | putb byte => exact execPutb_portBlind byte
  | getb => exact execGetb_portBlind
  | build => exact execBuild_portBlind
  | gencb => exact execGencb_portBlind
  | sert => exact execSert_portBlind
  | dest => exact execDest_portBlind
  | encs sym => exact execEncs_portBlind sym
  | decs => exact execDecs_portBlind
  | pack => exact execPack_portBlind
  | unpack => exact execUnpack_portBlind
  | tLeaf v => cases hi
  | tZero => cases hi

/-! ## The sequences of the host -/

/-- Two runs of the host answer alike and leave the same block. -/
inductive SameRun {α : Type} : Except HostFailure (α × State) → Except HostFailure (α × State) → Prop
  | failed (e : HostFailure) : SameRun (.error e) (.error e)
  | ended (a : α) {u v : State} (h : SameBlock u v) : SameRun (.ok (a, u)) (.ok (a, v))

theorem issue_sameRun (i : Instr) {s t : State} (h : SameBlock s t) : SameRun (issue i s) (issue i t) := by
  obtain ⟨inp, tr, rfl⟩ := h
  cases hi : encode i with
  | token bits => simp only [issue, hi]; exact .failed _
  | command w =>
    have hout := exec_portBlind hi s inp tr
    simp only [issue, hi, present_ok (decode_of_encode hi)]
    generalize exec i s = x, exec i (s.withPort inp tr) = y at hout
    cases hout with
    | stopped f => exact .failed _
    | answered r h =>
      simp only [answer_trace, List.getLast?_concat]
      split
      · exact .ended _ h.answer
      · exact .failed _

theorem issueAll_cons_sameRun {i : Instr} {is : List Instr} {s t : State} (hi : SameRun (issue i s) (issue i t))
    (his : ∀ {u v}, SameBlock u v → SameRun (issueAll is u) (issueAll is v)) :
    SameRun (issueAll (i :: is) s) (issueAll (i :: is) t) := by
  simp only [issueAll]
  generalize issue i s = x, issue i t = y at hi
  cases hi with
  | failed e => exact .failed e
  | @ended d u v h =>
    have hrest := his h
    dsimp only
    generalize issueAll is u = x, issueAll is v = y at hrest
    cases hrest with
    | failed e => exact .failed e
    | ended ds h => exact .ended _ h

theorem issueAll_sameRun (is : List Instr) {s t : State} (h : SameBlock s t) :
    SameRun (issueAll is s) (issueAll is t) := by
  induction is generalizing s t with
  | nil => exact .ended _ h
  | cons i is ih => exact issueAll_cons_sameRun (issue_sameRun i h) ih

/-- CLR leaves the same block wherever the capacities are the same: they alone survive it (R82). -/
theorem issue_clr_sameRun {s t : State} (h : s.caps = t.caps) : SameRun (issue .clr s) (issue .clr t) := by
  rw [issue_clr, issue_clr]
  refine .ended 0 ⟨t.input, (respond 0 (clear t)).trace, ?_⟩
  rw [respond, clear, clear, h]
  rfl

/-- HENCODE on two blocks with the same capacities makes the same artifact, or fails alike: its first command is
CLR. -/
theorem hencode_sameRun (d : List Byte) {s t : State} (h : s.caps = t.caps) : SameRun (hencode d s) (hencode d t) := by
  have hcommands : SameRun (issueAll (encodeCommands d) s) (issueAll (encodeCommands d) t) :=
    issueAll_cons_sameRun (issue_clr_sameRun h) (issueAll_sameRun _)
  unfold hencode
  split
  · exact .failed _
  generalize issueAll (encodeCommands d) s = x, issueAll (encodeCommands d) t = y at hcommands
  cases hcommands with
  | failed e => exact .failed e
  | @ended ds u v huv =>
    have hpack := issue_sameRun .pack huv
    dsimp only
    generalize issue .pack u = x, issue .pack v = y at hpack
    cases hpack with
    | failed e => exact .failed e
    | @ended m u v huv =>
      have hgetbs := issueAll_sameRun (List.replicate m.toNat .getb) huv
      dsimp only
      generalize issueAll _ u = x, issueAll _ v = y at hgetbs
      cases hgetbs with
      | failed e => exact .failed e
      | ended p huv => exact .ended _ huv

/-- Settles O54: after the CLR the two blocks answer every command alike. -/
theorem artifactDependsOnTheInputAlone : Obligations.ArtifactDependsOnTheInputAlone := by
  unfold Obligations.ArtifactDependsOnTheInputAlone
  intro d s s' a a' u u' hcaps h h'
  have hrun := hencode_sameRun d hcaps
  rw [h, h'] at hrun
  cases hrun
  rfl

end Sys2Proof.Machine
end

section
/-! PROOFS. The tree and the codebook HENCODE makes of an input (47_host_sequences.md R161, R165): BUILD meets no fault
on the counts of a nonempty input shorter than 2^32 bytes, and GENCB gives every byte of the input a code. -/

namespace Sys2Proof.Machine

/-! ## The byte values present in an input -/

theorem allBytes_nodup : allBytes.Nodup := by
  refine (List.nodup_map_iff_inj_on List.nodup_range).2 fun x hx y hy h => ?_
  have hvalue := congrArg BitVec.toNat h
  rw [BitVec.toNat_ofNat, BitVec.toNat_ofNat] at hvalue
  rw [List.mem_range] at hx hy
  omega

/-- The byte values with a nonzero entry, ascending. -/
def presentBytes (f : Table Weight) : List Byte := allBytes.filter fun v => tableGet f v ≠ 0

theorem mem_presentBytes {f : Table Weight} {v : Byte} : v ∈ presentBytes f ↔ tableGet f v ≠ 0 := by
  simp [presentBytes, mem_allBytes]

theorem presentBytes_nodup (f : Table Weight) : (presentBytes f).Nodup := allBytes_nodup.filter _

/-- BUILD's leaves are those of the present byte values. -/
theorem freqLeaves_eq_map_presentBytes (f : Table Weight) :
    freqLeaves f = (presentBytes f).map fun v => .leaf v (tableGet f v) := by
  rw [freqLeaves, presentBytes, ← List.filterMap_eq_map, List.filterMap_filter]
  congr 1
  funext v
  by_cases hv : tableGet f v = 0 <;> simp [hv]

/-- Each position of an input is counted once, at its own byte value. -/
theorem sum_count_allBytes (d : List Byte) : (allBytes.map fun v => d.count v).sum = d.length := by
  rw [← List.sum_toFinset _ allBytes_nodup]
  simpa only [Multiset.coe_count, Multiset.coe_card] using
    Multiset.sum_count_eq_card (m := (d : Multiset Byte)) fun v _ => List.mem_toFinset.2 (mem_allBytes v)

/-- The total of a table that holds the counts of an input is the input's length. -/
theorem freqTotal_of_counts {f : Table Weight} {d : List Byte} (h : ∀ v, (tableGet f v).toNat = d.count v) :
    freqTotal f = d.length := by
  have hvalues : f.toList = allBytes.map (tableGet f) := by
    have hzip := congrArg (List.map Prod.fst) (zipIdx_toList_eq_map_allBytes f)
    rwa [List.zipIdx_map_fst, List.map_map] at hzip
  rw [freqTotal, hvalues, List.map_map, ← sum_count_allBytes]
  exact congrArg List.sum (List.map_congr_left fun v _ => h v)

/-! ## The leaves of the tree at ROOT -/

theorem Tree.length_symbols (t : Tree) : t.symbols.length = t.leafCount := by
  induction t with
  | leaf v => rfl
  | node l r ihl ihr => simp [Tree.symbols, Tree.leafCount, ihl, ihr]

/-- The tree of a child is a subtree of its parent's. -/
theorem symbols_subset_of_child {nodes : List Node} {p i l r : Idx} {w : Weight} {t u : Tree} (ht : TreeAt nodes p t)
    (hp : nodeAt nodes p = some (.internal l r w)) (hi : l = i ∨ r = i) (hu : TreeAt nodes i u) :
    u.symbols ⊆ t.symbols := by
  cases ht with
  | leaf hleaf => rw [hp] at hleaf; cases hleaf
  | node hnode hl hr =>
    rw [hp] at hnode
    cases hnode
    rcases hi with rfl | rfl
    · rw [hu.unique hl]; exact List.subset_append_left _ _
    · rw [hu.unique hr]; exact List.subset_append_right _ _

/-- In a forest of one tree every allocated node stands in that tree: a node other than the root has a parent, allocated
after it. -/
theorem Forest.symbols_subset {nodes : List Node} {root : Idx} {t : Tree} (h : Forest nodes [root.toNat])
    (hlen : nodes.length ≤ 511) (ht : TreeAt nodes root t) {i : Idx} {u : Tree} (hi : i.toNat < nodes.length)
    (hu : TreeAt nodes i u) : u.symbols ⊆ t.symbols := by
  induction hk : nodes.length - i.toNat using Nat.strong_induction_on generalizing i u with
  | _ k ih =>
    have hmem : i.toNat ∈ childIndices nodes ++ [root.toNat] := h.perm.mem_iff.2 (List.mem_range.2 hi)
    rcases List.mem_append.1 hmem with hchild | hroot
    · obtain ⟨p, l, r, w, hp, hlr⟩ := mem_childIndices.1 hchild
      obtain ⟨hplen, hnode⟩ := List.getElem?_eq_some_iff.1 hp
      have hbelow := h.below p hplen
      simp [hnode, childrenBelow] at hbelow
      have hidx := toNat_ofNat_idx (n := p) (by omega)
      obtain ⟨v, hv⟩ := readTree_of_childrenBelow h.below nodes.length (BitVec.ofNat 9 p) (by omega) (by omega)
      have hparent := readTree_sound hv
      have hsub : u.symbols ⊆ v.symbols :=
        symbols_subset_of_child hparent (by rw [nodeAt, hidx, hp])
          (hlr.imp BitVec.eq_of_toNat_eq BitVec.eq_of_toNat_eq) hu
      exact List.Subset.trans hsub (ih _ (by omega) (by omega) hparent rfl)
    · obtain rfl : i = root := BitVec.eq_of_toNat_eq (List.mem_singleton.1 hroot)
      rw [hu.unique ht]
      exact List.Subset.refl _

/-- Where the allocated leaves hold distinct byte values, as many as the tree has leaves, they are the tree's. -/
theorem symbols_perm_of_leaves {s : State} (inv : TreeInv s) (hroot : s.root ≠ Config.noNode) {t : Tree}
    (ht : TreeAt s.node s.root t) {vs : List Byte} (hnodup : vs.Nodup)
    (hleaves : ∀ v ∈ vs, ∃ w, .leaf v w ∈ s.node) (hcount : s.node.length + 1 = 2 * vs.length) :
    vs.Perm t.symbols := by
  have hbound : s.node.length ≤ 511 := inv.bound
  have hsub : vs ⊆ t.symbols := by
    intro v hv
    obtain ⟨w, hw⟩ := hleaves v hv
    obtain ⟨i, hi, hn⟩ := List.getElem_of_mem hw
    have hidx := toNat_ofNat_idx (n := i) (by omega)
    have hleaf : TreeAt s.node (BitVec.ofNat 9 i) (.leaf v) :=
      .leaf (w := w) (by rw [nodeAt, hidx, List.getElem?_eq_getElem hi, hn])
    exact (inv.forest hroot).symbols_subset hbound ht (by omega) hleaf (List.mem_singleton.2 rfl)
  have hleafCount := inv.leafCount_eq hroot ht
  exact (hnodup.subperm hsub).perm_of_length_le (by rw [Tree.length_symbols]; omega)

theorem TreeInv.root_ne_noNode_of_ne_nil {s : State} (inv : TreeInv s) (hne : s.node ≠ []) :
    s.root ≠ Config.noNode := by
  have hbound : s.node.length ≤ 511 := inv.bound
  have ht1 := inv.t1
  rw [if_neg (by simpa using hne)] at ht1
  intro hroot
  have hnone : Config.noNode.toNat = 511 := rfl
  rw [hroot, hnone] at ht1
  omega

/-! ## BUILD and GENCB -/

/-- A running block that can encode every byte of `d`: `t` stands at ROOT, CODE is its codebook, and the bytes of `d` are
among its leaves. -/
structure CodebookFor (d : List Byte) (t : Tree) (s : State) : Prop where
  running : s.halt = false
  inv : TreeInv s
  root : s.root ≠ Config.noNode
  at_root : TreeAt s.node s.root t
  book : CodebookOf t s.code
  symbols : ∀ v ∈ d, v ∈ t.symbols

/-- On the counts of a nonempty input shorter than 2^32 bytes BUILD makes a tree whose leaves are the input's byte
values, once each, and keeps the queues. -/
theorem execBuild_of_counts {d : List Byte} (hne : d ≠ []) (hlen : d.length < 2 ^ 32) {s : State} (hr : s.halt = false)
    (hcounts : ∀ v, (tableGet s.freq v).toNat = d.count v) :
    ∃ b t, exec .build s = .next b ∧ b = { s with
        root := b.root, ncnt := b.ncnt, node := b.node, act := [b.root], code := noCodes,
        trace := s.trace ++ [⟨0, b.ncnt.setWidth 64⟩] } ∧
      TreeInv b ∧ b.root ≠ Config.noNode ∧ TreeAt b.node b.root t ∧ t.symbols.Nodup ∧ ∀ v, v ∈ t.symbols ↔ v ∈ d := by
  have htotal := freqTotal_of_counts hcounts
  have hpos := List.length_pos_iff.2 hne
  obtain ⟨b, hbuild, inv, hb, hcount, htake, -⟩ := buildMakesTheTreeOfFreq s hr (by omega) (by omega)
  have hpresent : ∀ v, v ∈ presentBytes s.freq ↔ v ∈ d := by
    intro v
    rw [mem_presentBytes, ← List.count_pos_iff, ← hcounts v, Nat.pos_iff_ne_zero, Ne, Ne, BitVec.toNat_eq]
    rfl
  obtain ⟨x, hx⟩ := List.exists_mem_of_ne_nil d hne
  have hsome := List.length_pos_of_mem ((hpresent x).2 hx)
  rw [freqLeaves_eq_map_presentBytes] at hcount htake
  rw [List.length_map] at hcount
  have hroot := inv.root_ne_noNode_of_ne_nil (List.length_pos_iff.1 (by omega))
  obtain ⟨t, -, ht⟩ := currentTree_eq_some inv hroot
  have hperm : (presentBytes s.freq).Perm t.symbols :=
    symbols_perm_of_leaves inv hroot ht (presentBytes_nodup _)
      (fun v hv => ⟨_, List.mem_of_mem_take (htake ▸ List.mem_map_of_mem hv)⟩) (by omega)
  exact ⟨b, t, hbuild, hb, inv, hroot, ht, hperm.nodup_iff.1 (presentBytes_nodup _),
    fun v => hperm.mem_iff.symm.trans (hpresent v)⟩

/-- On those counts BUILD and GENCB leave a block that can encode every byte of the input. -/
theorem issueAll_build_gencb {d : List Byte} (hne : d ≠ []) (hlen : d.length < 2 ^ 32) {s : State}
    (hr : s.halt = false) (hcounts : ∀ v, (tableGet s.freq v).toNat = d.count v) :
    ∃ ds t u, issueAll [.build, .gencb] s = .ok (ds, u) ∧ CodebookFor d t u ∧
      u.bq = s.bq ∧ u.ob = s.ob ∧ u.caps = s.caps := by
  obtain ⟨b, t, hbuild, hb, inv, hroot, ht, hnodup, hsymbols⟩ := execBuild_of_counts hne hlen hr hcounts
  have hbr : b.halt = false := by rw [hb]; exact hr
  obtain ⟨code, hgencb, hbook, -⟩ := gencbRecordsEveryLeafPath b t hbr inv hroot ht hnodup
  have hissue := issueAll_cons (issue_of_answered rfl hbuild (by rw [hb]))
    (issueAll_singleton (issue_of_answered rfl hgencb rfl))
  refine ⟨_, t, _, hissue, ⟨hbr, inv.congr rfl rfl rfl, hroot, ht, hbook, fun v hv => (hsymbols v).2 hv⟩, ?_, ?_, ?_⟩
  all_goals rw [hb]

end Sys2Proof.Machine
end

section
/-! PROOFS. HENCODE and HDECODE (47_host_sequences.md R165, R166, R168): the bits HENCODE packs, the artifact they make,
and HDECODE reading the input back from it. -/

namespace Sys2Proof.Machine

/-! ## The bits of an artifact -/

/-- The bits HENCODE packs for an input: the terminator alone for the empty input (R124), and otherwise the tree bits of
a tree with a leaf for every byte of the input, and the input's payload bits in that tree's codebook. -/
inductive ArtifactBits : List Byte → Bits → Prop
  | empty : ArtifactBits [] [false]
  | coded {d : List Byte} {t : Tree} {code : Table (Option Bits)} (nonempty : d ≠ []) (leaves : t.leafCount ≤ 256)
      (book : CodebookOf t code) (symbols : ∀ v ∈ d, v ∈ t.symbols) :
      ArtifactBits d (serialized t ++ payload code d)

theorem length_payload_le {code : Table (Option Bits)} {d : List Byte} {n : Nat}
    (h : ∀ v ∈ d, ∃ p, tableGet code v = some p ∧ p.length ≤ n) : (payload code d).length ≤ n * d.length := by
  induction d with
  | nil => exact Nat.zero_le _
  | cons v d ih =>
    obtain ⟨⟨p, hp, hle⟩, hd⟩ := List.forall_mem_cons.1 h
    have hrest := ih hd
    rw [payload_cons hp, List.length_append, List.length_cons, Nat.mul_add_one]
    omega

/-- Ten bits a leaf, and at most 255 bits a byte of the input. -/
theorem ArtifactBits.length_le {d : List Byte} {q : Bits} (h : ArtifactBits d q) :
    q.length ≤ 2560 + 255 * d.length := by
  cases h with
  | empty => decide
  | @coded _ t code hne hleaves hbook hsymbols =>
    have htree := treeBitsHaveTenBitsPerLeaf t
    have hpayload : (payload code d).length ≤ 255 * d.length := length_payload_le fun v hv => by
      obtain ⟨p, hp, hcode⟩ := hbook.code_of_mem (hsymbols v hv)
      exact ⟨p, hp, (hcode.length_bounds hleaves).2⟩
    rw [List.length_append]
    omega

/-! ## HENCODE (R165) -/

/-- SERT and one ENCS per byte fill an empty BQ with the bits of the input. -/
theorem issueAll_sert_encs {d : List Byte} {t : Tree} {s : State} (h : CodebookFor d t s) (hcap : s.caps.bq = none)
    (hbq : s.bq = []) : ∃ ds tr, issueAll ([.sert] ++ d.map .encs) s =
      .ok (ds, { s with bq := serialized t ++ payload s.code d, trace := tr }) := by
  have hsert := (sertAppendsTheTreeBits.2 s (serialized t) h.running h.inv (.inr ⟨h.root, t, h.at_root, rfl⟩)).1
    (by simp [hcap])
  rw [hbq, List.nil_append] at hsert
  obtain ⟨ds, tr, hencs⟩ := issueAll_encs (s := { s with
      bq := serialized t, trace := s.trace ++ [⟨0, BitVec.ofNat 64 (serialized t).length⟩] })
    (d := d) h.running hcap fun v hv => (h.book.code_of_mem (h.symbols v hv)).imp fun _ hp => hp.1
  exact ⟨_, tr, issueAll_cons (issue_of_answered rfl hsert rfl) hencs⟩

theorem encodeCommands_of_ne_nil {d : List Byte} (h : d ≠ []) : encodeCommands d =
    Instr.clr :: (loadCommands d ++ ([Instr.build, Instr.gencb] ++ ([Instr.sert] ++ d.map Instr.encs))) := by
  simp [encodeCommands, h]

/-- Up to the last ENCS, HENCODE succeeds from every state and leaves the bits of the input in BQ. -/
theorem issueAll_encodeCommands {d : List Byte} (hlen : d.length < 2 ^ 32) {s : State}
    (hcaps : s.caps = Config.Caps.unbounded) :
    ∃ ds u, issueAll (encodeCommands d) s = .ok (ds, u) ∧ ArtifactBits d u.bq ∧ u.halt = false ∧ u.ob = [] ∧
      u.caps = Config.Caps.unbounded := by
  by_cases hne : d = []
  · subst hne
    have hsert : exec .sert (respond 0 (clear s)) = .next _ :=
      (execSert_of_noNode rfl rfl).trans (congrArg _ (pushBits_fits (by simp [hcaps, Config.Caps.unbounded])))
    exact ⟨_, _, issueAll_cons (issue_clr s) (issueAll_singleton (issue_of_respond rfl hsert)), .empty, rfl, rfl, hcaps⟩
  · obtain ⟨ls, freq, tr, hload, hfreq⟩ := issueAll_loadCommands d (s := respond 0 (clear s)) rfl fun v => by simp
    obtain ⟨bs, t, u, hbuild, hcode, hbq, hob, hucaps⟩ :=
      issueAll_build_gencb hne hlen (s := { respond 0 (clear s) with freq := freq, trace := tr }) rfl
        fun v => (congrArg BitVec.toNat (hfreq v)).trans (toNat_loadedCount hlen v)
    have hunbounded : u.caps = Config.Caps.unbounded := hucaps.trans hcaps
    obtain ⟨es, tr', hencs⟩ := issueAll_sert_encs hcode (by rw [hunbounded]; rfl) hbq
    have hall := issueAll_cons (issue_clr s) (issueAll_append hload (issueAll_append hbuild hencs))
    rw [← encodeCommands_of_ne_nil hne] at hall
    exact ⟨_, _, hall, .coded hne (hcode.inv.leafCount_le hcode.root hcode.at_root) hcode.book hcode.symbols,
      hcode.running, hob, hunbounded⟩

/-- PACK and as many GETB as it answers give the packed bits of BQ, when OB was empty. -/
theorem issueAll_pack_getbs {s : State} (hr : s.halt = false) (hcaps : s.caps = Config.Caps.unbounded)
    (hob : s.ob = []) (hlen : s.bq.length < 2 ^ 64) :
    ∃ m t u, issue .pack s = .ok (m, t) ∧ m.toNat = (bytesOfBits s.bq).length ∧
      issueAll (List.replicate (bytesOfBits s.bq).length .getb) t =
        .ok ((bytesOfBits s.bq).map fun v => v.setWidth 64, u) := by
  have hpack := execPack_unbounded hr hcaps
  rw [hob, List.nil_append] at hpack
  have hcount : (countData (bytesOfBits s.bq).length).toNat = (bytesOfBits s.bq).length :=
    countData_toNat (by rw [length_bytesOfBits]; omega)
  obtain ⟨tr, hgetbs⟩ := issueAll_getbs (p := bytesOfBits s.bq)
    (s := respond (countData (bytesOfBits s.bq).length) { s with bq := [], ob := bytesOfBits s.bq }) hr rfl
  exact ⟨_, _, _, issue_of_respond rfl hpack, hcount, hgetbs⟩

/-- HENCODE makes the header of the input's length and the packed bits of the input. -/
theorem hencode_unbounded {d : List Byte} (hlen : d.length < 2 ^ 32) {s : State}
    (hcaps : s.caps = Config.Caps.unbounded) :
    ∃ q u, ArtifactBits d q ∧ hencode d s = .ok (sizeHeader d.length ++ bytesOfBits q, u) := by
  obtain ⟨ds, t, hencs, hbits, hr, hob, hcaps⟩ := issueAll_encodeCommands hlen hcaps
  have hle := hbits.length_le
  obtain ⟨m, u, v, hpack, hm, hgetbs⟩ := issueAll_pack_getbs hr hcaps hob (by omega)
  refine ⟨t.bq, v, hbits, ?_⟩
  rw [hencode, if_neg (Nat.not_le.2 hlen)]
  simp only [hencs, hpack, hm, hgetbs, map_dataByte_setWidth]

/-- Settles O52: the empty input's bits are the terminator alone, the first bit of one zero byte. -/
theorem emptyInputMakesFiveZeroBytes : Obligations.EmptyInputMakesFiveZeroBytes := by
  unfold Obligations.EmptyInputMakesFiveZeroBytes
  intro s hcaps
  obtain ⟨q, u, hbits, h⟩ := hencode_unbounded (d := []) (by decide) hcaps
  cases hbits with
  | empty => exact ⟨u, h⟩
  | coded hne => exact absurd rfl hne

/-! ## HDECODE (R166) -/

/-- One DECS per code at the head of BQ answers the codes' symbols, whatever CODE holds: the block that decodes has no
codebook (R145). -/
theorem issueAll_decs_of_payload {code : Table (Option Bits)} {t : Tree} {d : List Byte} {rest : Bits} {s : State}
    (hr : s.halt = false) (hroot : s.root ≠ Config.noNode) (ht : TreeAt s.node s.root t)
    (hcodes : ∀ v ∈ d, ∃ p, tableGet code v = some p ∧ IsCode t p v) (hbq : s.bq = payload code d ++ rest) :
    ∃ u, issueAll (List.replicate d.length .decs) s = .ok (d.map fun v => v.setWidth 64, u) := by
  induction d generalizing s with
  | nil => exact ⟨s, rfl⟩
  | cons v d ih =>
    obtain ⟨⟨p, hp, hcode⟩, hd⟩ := List.forall_mem_cons.1 hcodes
    rw [payload_cons hp, List.append_assoc] at hbq
    have hexec : exec .decs s = _ := execDecs_of_isCode hr hroot ht hcode hbq
    obtain ⟨u, hds⟩ := ih (s := respond (v.setWidth 64) { s with bq := payload code d ++ rest }) hr hroot ht hd rfl
    exact ⟨u, issueAll_cons (issue_of_respond rfl hexec) hds⟩

/-- CLR, one PUTB per byte and UNPACK put the bits of the bytes into BQ. -/
theorem issueAll_clr_putbs_unpack (p : List Byte) {s : State} (hcaps : s.caps = Config.Caps.unbounded) :
    ∃ ds t, issueAll (.clr :: (p.map .putb ++ [.unpack])) s = .ok (ds, t) ∧ ds.length = p.length + 2 ∧
      t.halt = false ∧ t.bq = bitsOfBytes p := by
  obtain ⟨tr, hputbs⟩ := issueAll_putbs p (s := respond 0 (clear s)) rfl (congrArg Config.Caps.ib hcaps)
  have hunpack := issue_of_respond rfl
    (execUnpack_unbounded (s := { respond 0 (clear s) with ib := p, trace := tr }) rfl hcaps)
  exact ⟨_, _, issueAll_cons (issue_clr s) (issueAll_append hputbs (issueAll_singleton hunpack)), by simp, rfl, rfl⟩

/-- DEST and one DECS per byte of the input read the input back from its bits, whatever follows them. -/
theorem issueAll_dest_decs {d : List Byte} {q rest : Bits} (hbits : ArtifactBits d q) {s : State}
    (hr : s.halt = false) (hbq : s.bq = q ++ rest) :
    ∃ k u, issueAll (.dest :: List.replicate d.length .decs) s = .ok (k :: d.map fun v => v.setWidth 64, u) := by
  cases hbits with
  | empty => exact ⟨_, _, issueAll_singleton (issue_of_answered rfl (destReadsTheEmptyTree s rest hr hbq) rfl)⟩
  | @coded _ t code hne hleaves hbook hsymbols =>
    rw [List.append_assoc] at hbq
    obtain ⟨u, hdest, inv, ht, -, hu⟩ := destReadsBackEveryTree s t _ hr hbq hleaves
    obtain ⟨v, hdecs⟩ := issueAll_decs_of_payload (by rw [hu]; exact hr) (inv.root_ne_noNode ht) ht
      (fun v hv => hbook.code_of_mem (hsymbols v hv)) (show u.bq = payload code d ++ rest by rw [hu])
    exact ⟨_, v, issueAll_cons (issue_of_answered rfl hdest (by rw [hu])) hdecs⟩

theorem decodeCommands_eq_append (p : List Byte) (n : Nat) : decodeCommands p n =
    Instr.clr :: (p.map Instr.putb ++ [Instr.unpack]) ++ Instr.dest :: List.replicate n Instr.decs := by
  simp [decodeCommands]

/-- HDECODE of a header and the packed bits of an input gives the input back: the padding stays in BQ. -/
theorem hdecode_of_artifactBits {d : List Byte} {q : Bits} (hlen : d.length < 2 ^ 32) (hbits : ArtifactBits d q)
    {s : State} (hcaps : s.caps = Config.Caps.unbounded) :
    ∃ v, hdecode (sizeHeader d.length ++ bytesOfBits q) s = .ok (d, v) := by
  obtain ⟨ds, t, hfill, hds, hr, hbq⟩ := issueAll_clr_putbs_unpack (bytesOfBits q) hcaps
  rw [bitsOfBytes_bytesOfBits] at hbq
  obtain ⟨k, v, hread⟩ := issueAll_dest_decs hbits hr hbq
  have hall := issueAll_append hfill hread
  rw [← decodeCommands_eq_append, ← headerLength_digits hlen] at hall
  have hdata : (ds ++ k :: d.map fun v => v.setWidth 64).drop ((bytesOfBits q).length + 3) =
      d.map fun v => v.setWidth 64 := by
    rw [List.append_cons]
    exact List.drop_left' (by rw [List.length_append, hds, List.length_singleton])
  exact ⟨v, by simp only [sizeHeader, List.cons_append, List.nil_append, hdecode, hall, hdata, map_dataByte_setWidth]⟩

/-- Settles O53: HENCODE packs the bits of the input, which HDECODE reads back. -/
theorem hdecodeInvertsHencode : Obligations.HdecodeInvertsHencode := by
  unfold Obligations.HdecodeInvertsHencode
  intro d s s' hlen hcaps hcaps'
  obtain ⟨q, u, hbits, hencoded⟩ := hencode_unbounded hlen hcaps
  obtain ⟨v, hdecoded⟩ := hdecode_of_artifactBits hlen hbits hcaps'
  exact ⟨_, u, v, hencoded, hdecoded⟩

end Sys2Proof.Machine
end

section
/-! PROOFS. What a halted block does with a word (60_exceptions.md R187), which faults an instruction can raise (R180),
and that unbounded queues never overflow (R181); a port with nothing to do (70_reset_and_hazards.md R217). -/

namespace Sys2Proof.Machine

/-! ## A word at the port of a halted block (R187) -/

section
variable {s : State}

/-- The halted test stops every instruction but CLR and RDCSR of CSRs 0 to 3. -/
theorem exec_halted {i : Instr} (hs : s.halt = true) (hclr : i ≠ .clr)
    (hcsr : ∀ n : Byte, n.toNat ≤ 3 → i ≠ .rdcsr n) : exec i s = .next (answerHalted s) := by
  cases i
  case clr => exact absurd rfl hclr
  case rdcsr n => exact execRdcsr_halted hs (Nat.lt_of_not_le fun hn => hcsr n hn rfl)
  all_goals exact if_pos hs

/-- A word that is no encoding of an executed command is answered so, legal or not. -/
theorem present_halted {w : CmdWord} (hs : s.halt = true) (hclr : encode .clr ≠ .command w)
    (hcsr : ∀ n : Byte, n.toNat ≤ 3 → encode (.rdcsr n) ≠ .command w) : present w s = .next (answerHalted s) := by
  cases hd : decode w with
  | error e =>
    rw [present_error hd]
    exact whileRunning_halted _ hs
  | ok i =>
    have hw : encode i = .command w := encodingADecodedWordGivesItBack.1 w i hd
    rw [present_ok hd]
    exact exec_halted hs (fun e => hclr (e ▸ hw)) fun n hn e => hcsr n hn (e ▸ hw)

/-- CLR has no halted test. -/
theorem present_clr (s : State) : present 0x010000000000#48 s = .next (respond 0 (clear s)) :=
  present_ok (decode_of_encode (i := .clr) rfl) s

/-- The word of RDCSR n answers the register, of a halted block for the four it may read. -/
theorem present_rdcsr {n : Byte} {d : Data} (hn : s.halt = true → n.toNat ≤ 3) (hd : csr s n = some d) :
    present (0x03#8 ++ n ++ 0#32) s = .next (respond d s) :=
  (present_ok (decode_of_encode (i := .rdcsr n) rfl) s).trans (execRdcsr_answered hn hd)

end

/-! ## Queues without a capacity (R181) -/

theorem Cause.code_eq_twelve_iff {c : Cause} : c.code = 12 ↔ c = .queueOverflow := by cases c <;> decide

theorem queueOverflow_mem_raisedBy {i : Instr} : .queueOverflow ∈ raisedBy i ↔
    (∃ byte, i = .putb byte) ∨ i = .sert ∨ (∃ sym, i = .encs sym) ∨ i = .pack ∨ i = .unpack := by
  cases i <;> simp [raisedBy]

section
variable {i : Instr} {s t : State} (hcaps : s.caps = Config.Caps.unbounded)
include hcaps

theorem roomFor_bq_unbounded (n k : Nat) : roomFor s.caps.bq n k = true := by rw [hcaps]; rfl
theorem roomFor_ib_unbounded (n k : Nat) : roomFor s.caps.ib n k = true := by rw [hcaps]; rfl
theorem roomFor_ob_unbounded (n k : Nat) : roomFor s.caps.ob n k = true := by rw [hcaps]; rfl

theorem pushBits_unbounded (xs : Bits) (done : State → State) :
    pushBits xs s done = done { s with bq := s.bq ++ xs } := pushBits_fits (roomFor_bq_unbounded hcaps _ _)

/-- An instruction that pushes finds room in an unbounded queue: the one fault left is CodebookMiss, of ENCS. -/
theorem err_of_pusher_unbounded (hq : .queueOverflow ∈ raisedBy i) (h : exec i s = .next t) :
    t.err = s.err ∨ t.err = Cause.code .codebookMiss := by
  rcases queueOverflow_mem_raisedBy.1 hq with ⟨byte, rfl⟩ | rfl | ⟨sym, rfl⟩ | rfl | rfl
  · rcases execPutb_next h with ⟨-, rfl⟩ | ⟨-, -, rfl⟩ | ⟨-, full, -⟩
    · exact .inl rfl
    · exact .inl rfl
    · simp [roomFor_ib_unbounded hcaps] at full
  · rcases execSert_next h with ⟨-, rfl⟩ | ⟨-, bits, rfl, -⟩
    · exact .inl rfl
    · rw [pushBits_unbounded hcaps]
      exact .inl rfl
  · rcases execEncs_next h with ⟨-, rfl⟩ | ⟨-, -, rfl⟩ | ⟨-, p, -, rfl⟩
    · exact .inl rfl
    · exact .inr rfl
    · rw [pushBits_unbounded hcaps]
      exact .inl rfl
  · rcases execPack_next h with ⟨-, rfl⟩ | ⟨-, -, rfl⟩ | ⟨-, full, -⟩
    · exact .inl rfl
    · exact .inl rfl
    · simp [roomFor_ob_unbounded hcaps] at full
  · rcases execUnpack_next h with ⟨-, rfl⟩ | ⟨-, -, rfl⟩ | ⟨-, full, -⟩
    · exact .inl rfl
    · exact .inl rfl
    · simp [roomFor_bq_unbounded hcaps] at full

end

/-- An instruction whose row of R180 has no QueueOverflow does not raise it. -/
theorem err_ne_twelve_of_not_pusher {i : Instr} {s t : State} (hq : .queueOverflow ∉ raisedBy i)
    (h : exec i s = .next t) (hs : s.err ≠ 12) : t.err ≠ 12 := by
  by_cases hi : i = .clr
  · subst hi
    rw [execClr_next h, respond_err, clear_err]
    decide
  · cases exec_faultRegsAfter h hi with
    | kept err => rwa [err]
    | raised c info u running listed trace eq =>
      subst eq
      intro hcode
      exact hq (Cause.code_eq_twelve_iff.1 hcode ▸ listed)

/-! ## The statements -/

/-- Settles O9: the words of CLR and of RDCSR 0 to 3 are presented to their commands, every other one to the halted
test. -/
theorem haltedBlockExecutesOnlyClrAndRdcsr : Obligations.HaltedBlockExecutesOnlyClrAndRdcsr := by
  unfold Obligations.HaltedBlockExecutesOnlyClrAndRdcsr
  intro s w rest hin hs
  rw [step_word hin]
  refine ⟨fun hclr hcsr => ?_, ?_, ?_, ?_, ?_, ?_⟩
  · exact present_halted hs (fun e => hclr (Encoded.command.inj e).symm)
      fun n hn e => hcsr n hn (Encoded.command.inj e).symm
  · rintro rfl
    exact present_clr _
  · rintro rfl
    exact present_rdcsr (n := 0) (fun _ => by decide) (csr_halted hs (by decide))
  · rintro rfl
    exact present_rdcsr (n := 1) (fun _ => by decide) (csr_halted hs (by decide))
  · rintro rfl
    exact present_rdcsr (n := 2) (fun _ => by decide) (csr_halted hs (by decide))
  · rintro rfl
    exact present_rdcsr (n := 3) (fun _ => by decide) (csr_halted hs (by decide))

/-- Settles O12: an instruction that halts a running block is not CLR and has not kept HALT, so that it has raised a
fault of its row. -/
theorem onlyTheListedFaultsAreRaised : Obligations.OnlyTheListedFaultsAreRaised := by
  unfold Obligations.OnlyTheListedFaultsAreRaised
  intro i s t h hr ht
  have hi : i ≠ .clr := by
    rintro rfl
    rw [execClr_next h] at ht
    cases ht
  cases exec_faultRegsAfter h hi with
  | kept err errinfo halt =>
    rw [halt, hr] at ht
    cases ht
  | raised c info u running listed trace eq =>
    subst eq
    exact ⟨c, listed, rfl, by rw [raise_trace, trace]⟩

/-- Settles O13: the instructions that push find room, and no other one raises QueueOverflow. -/
theorem unboundedQueuesNeverOverflow : Obligations.UnboundedQueuesNeverOverflow := by
  unfold Obligations.UnboundedQueuesNeverOverflow
  intro i s t hcaps h hs
  by_cases hq : .queueOverflow ∈ raisedBy i
  · rcases err_of_pusher_unbounded hcaps hq h with err | err
    · rwa [err]
    · rw [err]
      decide
  · exact err_ne_twelve_of_not_pusher hq h hs

/-- Settles O7: with no event in `input` the port has nothing to answer. -/
theorem stepWithoutEventKeepsTheState : Obligations.StepWithoutEventKeepsTheState := by
  intro s hin
  simp only [step, advance, hin]

end Sys2Proof.Machine
end
